-- ==== Sys2Proof/Word.lean ====
section
/-! DEFINITION. The word of the device: 32 bits, bit 0 the least significant (`00_scope.md` section 5, `20_memory.md` R41). -/

namespace Sys2Proof

/-- The addressable unit of every space and the unit of both channels: one 32-bit word (R41, R60). A sample, a
coefficient, a spectrum component and an offset are each the bit pattern of one binary32 value in a word (R160). -/
abbrev Word := BitVec 32

end Sys2Proof
end

