-- ==== Sys2Proof/Syntax.lean ====
section
/-! DEFINITION. The commands of the device, one constructor per row of `spec/opcode_table.json` (`30_encoding.md` R63), and
the command packet that carries one (R60). -/

namespace Sys2Proof

/-- A command packet: one header word and `n >= 0` payload words; the framing gives `n` (R60). A packet without a header
word is not a packet (R70) and cannot be written in this type. -/
structure Packet where
  header  : Word
  payload : List Word
  deriving DecidableEq, Repr

/-- The twelve commands of R63. Each carries its immediate field and ALL payload words of its packet, whatever their number:
the payload count is tested by the command itself, after the engine state (R69, R74, R215), so a packet with a wrong
count is still this command (log 11). -/
inductive Instr where
  /-- `INIT`: `mode = H[7:0]`; payload `irLength`, `blockLength`, `ir[0]`, … (R191). -/
  | init (mode : BitVec 8) (payload : List Word)
  /-- `PROCESS`: `count = H[23:0]`; payload the input samples (R192). -/
  | process (count : BitVec 24) (payload : List Word)
  /-- `FLUSH`: no operand (R193). -/
  | flush (payload : List Word)
  /-- `RESET` of the engine: no operand (R194). -/
  | reset (payload : List Word)
  /-- `DL.PUT v` (R100). -/
  | dlPut (payload : List Word)
  /-- `DL.PUTADV v` (R101). -/
  | dlPutAdv (payload : List Word)
  /-- `DL.GET [offset]` (R102). -/
  | dlGet (payload : List Word)
  /-- `DL.GETADV`: no operand (R103). -/
  | dlGetAdv (payload : List Word)
  /-- `DL.SETRD idx` (R104). -/
  | dlSetRd (payload : List Word)
  /-- `DL.SETWR idx` (R105). -/
  | dlSetWr (payload : List Word)
  /-- `DL.RESET`: no operand (R106). -/
  | dlReset (payload : List Word)
  /-- `DL.NUM`: no operand (R107). -/
  | dlNum (payload : List Word)
  deriving DecidableEq, Repr

/-- The payload words that came with the command. -/
def Instr.payload : Instr → List Word
  | .init _ p => p
  | .process _ p => p
  | .flush p => p
  | .reset p => p
  | .dlPut p => p
  | .dlPutAdv p => p
  | .dlGet p => p
  | .dlGetAdv p => p
  | .dlSetRd p => p
  | .dlSetWr p => p
  | .dlReset p => p
  | .dlNum p => p

end Sys2Proof
end

