-- ==== Sys2Proof/WellFormed.lean ====
section
/-! DEFINITION. Which commands have the payload count the encoding asks of them (`30_encoding.md` R64, R69). A command that
is not well formed is no error of the model: the device answers it with `INVALID_ARG` (R69), and so does its meaning. -/

namespace Sys2Proof

/-- R69 for `INIT`: two words are needed to read `irLength` and `blockLength`; then, if both are positive, the payload has
`2 + irLength` words. -/
def initPayloadOk : List Word → Bool
  | irLength :: blockLength :: ir =>
    if 0 < irLength.toInt ∧ 0 < blockLength.toInt then (ir.length : Int) == irLength.toInt else true
  | _ => false

/-- R69: the payload count is the "Required `n`" of R64. -/
def Instr.wellFormed : Instr → Bool
  | .init _ p => initPayloadOk p
  | .process count p => p.length == count.toNat
  | .flush p => p.length == 0
  | .reset p => p.length == 0
  | .dlPut p => p.length == 1
  | .dlPutAdv p => p.length == 1
  | .dlGet p => p.length == 0 || p.length == 1
  | .dlGetAdv p => p.length == 0
  | .dlSetRd p => p.length == 1
  | .dlSetWr p => p.length == 1
  | .dlReset p => p.length == 0
  | .dlNum p => p.length == 0

end Sys2Proof
end

