-- ==== Sys2Proof/Decode.lean ====
section
/-! DEFINITION. From packets to commands and back (`30_encoding.md` R61 to R70). Decoding looks at the header alone; the
payload count is the command's own affair (R69, R74). -/

namespace Sys2Proof

/-- The names of the twelve rows of R63. -/
inductive Opcode where
  | init | process | flush | reset
  | dlPut | dlPutAdv | dlGet | dlGetAdv | dlSetRd | dlSetWr | dlReset | dlNum
  deriving DecidableEq, Repr

/-- One row of the opcode map: `H` selects it when `H & mask = pattern` (R63). -/
structure OpcodeRow where
  op      : Opcode
  pattern : Word
  mask    : Word
  deriving DecidableEq, Repr

/-- R63, the columns match and mask, in the table's order. -/
def opcodeRows : List OpcodeRow :=
  [ ⟨.init,     0x01000000#32, 0xFFFFFF00#32⟩,
    ⟨.process,  0x02000000#32, 0xFF000000#32⟩,
    ⟨.flush,    0x03000000#32, 0xFFFFFFFF#32⟩,
    ⟨.reset,    0x04000000#32, 0xFFFFFFFF#32⟩,
    ⟨.dlPut,    0x10000000#32, 0xFFFFFFFF#32⟩,
    ⟨.dlPutAdv, 0x11000000#32, 0xFFFFFFFF#32⟩,
    ⟨.dlGet,    0x12000000#32, 0xFFFFFFFF#32⟩,
    ⟨.dlGetAdv, 0x13000000#32, 0xFFFFFFFF#32⟩,
    ⟨.dlSetRd,  0x14000000#32, 0xFFFFFFFF#32⟩,
    ⟨.dlSetWr,  0x15000000#32, 0xFFFFFFFF#32⟩,
    ⟨.dlReset,  0x16000000#32, 0xFFFFFFFF#32⟩,
    ⟨.dlNum,    0x17000000#32, 0xFFFFFFFF#32⟩ ]

/-- Header field `H[31:24]` (R61). -/
def opcodeField (h : Word) : BitVec 8 := h.extractLsb' 24 8

/-- Header field `H[23:0]` (R61); the `count` of `PROCESS` (R65). -/
def imm24Field (h : Word) : BitVec 24 := h.extractLsb' 0 24

/-- Header field `H[7:0]`, the `mode` of `INIT` (R65). -/
def modeField (h : Word) : BitVec 8 := h.extractLsb' 0 8

/-- `H & mask = pattern` (R63). -/
def OpcodeRow.selectedBy (r : OpcodeRow) (h : Word) : Bool := (h &&& r.mask) == r.pattern

/-- The row that a header word selects, if any (R63, R74). -/
def lookupRow (h : Word) : Option Opcode := (opcodeRows.find? fun r => r.selectedBy h).map fun r => r.op

/-- Why a list of words is no command. -/
inductive DecodeError where
  /-- No header word: not a packet (R70). -/
  | emptyPacket
  /-- `H[31:24]` is none of the twelve opcodes (R68). -/
  | unknownOpcode
  /-- A defined opcode with a non-zero reserved bit (R67, R68). -/
  | reservedBits
  deriving DecidableEq, Repr

/-- The command of a row, with its immediate taken from the header (R65) and its payload as it came. -/
def commandOf (op : Opcode) (h : Word) (payload : List Word) : Instr :=
  match op with
  | .init => .init (modeField h) payload
  | .process => .process (imm24Field h) payload
  | .flush => .flush payload
  | .reset => .reset payload
  | .dlPut => .dlPut payload
  | .dlPutAdv => .dlPutAdv payload
  | .dlGet => .dlGet payload
  | .dlGetAdv => .dlGetAdv payload
  | .dlSetRd => .dlSetRd payload
  | .dlSetWr => .dlSetWr payload
  | .dlReset => .dlReset payload
  | .dlNum => .dlNum payload

/-- Whether some row has the opcode of this header. -/
def opcodeDefined (h : Word) : Bool := opcodeRows.any fun r => opcodeField r.pattern == opcodeField h

/-- The decode of R74, total on packets: the command of the selected row, or a rejection by name (R67, R68). -/
def decode (p : Packet) : Except DecodeError Instr :=
  match lookupRow p.header with
  | some op => .ok (commandOf op p.header p.payload)
  | none => .error (if opcodeDefined p.header then .reservedBits else .unknownOpcode)

/-- The same on a list of words: the first is the header (R70). -/
def decodeWords : List Word → Except DecodeError Instr
  | [] => .error .emptyPacket
  | h :: payload => decode ⟨h, payload⟩

/-- The header of `INIT`, `0x010000mm` (R63, R191). -/
def initHeader (mode : BitVec 8) : Word := 0x01000000#32 ||| mode.setWidth 32

/-- The header of `PROCESS`, `0x02cccccc` (R63, R192). -/
def processHeader (count : BitVec 24) : Word := 0x02000000#32 ||| count.setWidth 32

/-- The header word of a command (R61, R63). -/
def encodeHeader : Instr → Word
  | .init mode _ => initHeader mode
  | .process count _ => processHeader count
  | .flush _ => 0x03000000#32
  | .reset _ => 0x04000000#32
  | .dlPut _ => 0x10000000#32
  | .dlPutAdv _ => 0x11000000#32
  | .dlGet _ => 0x12000000#32
  | .dlGetAdv _ => 0x13000000#32
  | .dlSetRd _ => 0x14000000#32
  | .dlSetWr _ => 0x15000000#32
  | .dlReset _ => 0x16000000#32
  | .dlNum _ => 0x17000000#32

/-- The packet of a command (R60, R63, R64). -/
def encode (i : Instr) : Packet := ⟨encodeHeader i, i.payload⟩

/-- The packet as the list of words on the channel, header first (R60). -/
def encodeWords (i : Instr) : List Word := encodeHeader i :: i.payload

/-- How many payload words a packet with this header has when every operand word not given is zero: the "Required `n`" of
R64, with the optional offset of `DL.GET` left out (log 15). -/
def payloadDue (h : Word) (given : List Word) : Nat :=
  match lookupRow h with
  | some .init => 2 + (given.getD 0 0).toInt.toNat
  | some .process => (imm24Field h).toNat
  | some .dlPut => 1
  | some .dlPutAdv => 1
  | some .dlSetRd => 1
  | some .dlSetWr => 1
  | _ => 0

/-- The packet whose bits are `w`, numbered as `spec/opcode_table.json` numbers them (bit 0 the least significant bit of the
header, later words above it), with `nbits` bits given and every later operand word zero (log 15). -/
def tablePacket (nbits w : Nat) : Packet :=
  let bits := w % 2 ^ nbits
  let header := BitVec.ofNat 32 bits
  let given := (List.range ((nbits + 31) / 32 - 1)).map fun j => BitVec.ofNat 32 (bits >>> (32 * (j + 1)))
  ⟨header, given ++ List.replicate (payloadDue header given - given.length) 0#32⟩

/-- The command the decoder reads from a word of the opcode table. -/
def decodeTableWord (nbits w : Nat) : Option Instr := (decode (tablePacket nbits w)).toOption

end Sys2Proof
end

