-- ==== Sys2Proof/Config.lean ====
section
/-! DEFINITION. What an implementation fixes and the spec leaves open (`00_scope.md` R4): the two function parameters
`NaNdraw` and `Xfm` as opaque constants, of which nothing can be proved, and the sizes of the instance that
`State.reset` describes. -/

namespace Sys2Proof

/-- The four floating-point operations of the device (`43_cmac_transform_numerics.md` R161). -/
inductive FloatOp where
  | add | sub | mul | div
  deriving DecidableEq, Repr

/-- The bits an implementation's transform draws where the contract of R169 leaves them open: the real and the imaginary
part of bin `k` of the forward transform of size `2*B`, and sample `n` of the inverse transform. Each depends on the
operands alone (`XP1`). -/
structure XfmDraw where
  fwdRe : Nat → List Word → Nat → Word
  fwdIm : Nat → List Word → Nat → Word
  inv   : Nat → List Word → List Word → Nat → Word
  deriving Inhabited

/-- DESIGN CHOICE (log 5), safe: `NaNdraw` of R4 and R162, the sign and the fraction (less one) of the NaN that an operation
returns on these operands. Opaque: any NaN. -/
opaque Config.nanDraw : FloatOp → Word → Word → Bool × Fin 8388607

/-- DESIGN CHOICE (log 6), safe: the open part of the parameter `Xfm` of R4 and R169. Opaque: any bits. -/
opaque Config.xfmDraw : XfmDraw

/-- DESIGN CHOICE (log 1), unsafe: `DL_N` of the instance that `State.reset` describes: 4, the size of the spec's own
programs (`95_test_vectors.md` section 3). The source fixes no sizes (R4, U12). -/
def Config.dlN : Nat := 4

/-- DESIGN CHOICE (log 1), unsafe: `IR_MAX` of that instance. -/
def Config.irMax : Nat := 64

/-- DESIGN CHOICE (log 1), unsafe: `B_MAX` of that instance. -/
def Config.bMax : Nat := 16

/-- DESIGN CHOICE (log 1), unsafe: `P_MAX` of that instance. -/
def Config.pMax : Nat := 8

end Sys2Proof
end

