-- ==== Sys2Proof/Machine/State.lean ====
section
/-! DEFINITION. The state of one device as plain data (`10_state.md` R10 to R20), the host's side of the two channels
(`30_encoding.md` R60), the status codes (`60_exceptions.md` R211) and the state after hardware reset (R26, R240). -/

namespace Sys2Proof.Machine

/-- One array of 32-bit words indexed by a sample index (R40, R41): the pairs (index, word) of the words that are not
`+0.0`, indices strictly rising. An index that is not listed reads `+0.0`, what R26 gives every word of every array at
reset or at `INIT` (log 7). -/
abbrev Memory := List (Nat × Word)

/-- The two modes of the engine (R14, R66). -/
inductive Mode where
  | timeDomain
  | freqDomain
  deriving DecidableEq, Repr

/-- A ring instance, the record `(N, storage, writeIdx, readIdx)` of R11. The capacity is fixed at construction. -/
structure Ring where
  n        : Nat
  storage  : Memory
  writeIdx : Nat
  readIdx  : Nat
  deriving DecidableEq, Repr

/-- The Time-Domain Convolver: the copy of the coefficients and its private ring `TD.hist` (R16). -/
structure TdState where
  ir   : Memory
  hist : Ring
  deriving DecidableEq, Repr

/-- The Frequency-Domain Convolver (R17 to R20). The two-dimensional arrays are held row by row (log 7): `hre`, `him` with
rows of `B+1` words, one per partition; `staging` with rows of `2*B` words and `accum` with rows of `B` words, one per
block of the block ring. -/
structure FdState where
  p          : Nat
  r          : Nat
  scale      : Word
  hre        : Memory
  him        : Memory
  staging    : Memory
  accum      : Memory
  writeBlock : Nat
  nextBlock  : Nat
  readBlock  : Nat
  writeIdx   : Nat
  deriving DecidableEq, Repr

/-- Exactly one convolver, a variant chosen at `INIT` (R14, R15). -/
inductive Convolver where
  | td (t : TdState)
  | fd (f : FdState)
  deriving DecidableEq, Repr

/-- The scalars the facade owns while it is initialised, and its convolver (R14, R195). `ENG.mode` is which convolver it is
(log 10). -/
structure Engine where
  irLength    : Nat
  blockLength : Nat
  conv        : Convolver
  deriving DecidableEq, Repr

/-- The build parameters `IR_MAX`, `B_MAX`, `P_MAX` of R4: numbers fixed for the life of one device. No step writes them
(log 1). -/
structure Limits where
  irMax : Nat
  bMax  : Nat
  pMax  : Nat
  deriving DecidableEq, Repr

/-- The status of a command (R211). -/
inductive Status where
  | ok
  | illegalCall
  | invalidArg
  | allocFail
  deriving DecidableEq, Repr

/-- A response packet: one status word and its payload words (R60, R62). -/
structure Response where
  status  : Word
  payload : List Word
  deriving DecidableEq, Repr

/-- One thing the host does to the device, in the host's order (log 2, log 4). -/
inductive HostInput where
  /-- A command packet arrives on the command channel (R60). -/
  | packet (p : Packet)
  /-- Hardware reset is asserted between two commands (R240). -/
  | hardReset
  /-- Hardware reset is asserted while this command executes: outside the model (R241). -/
  | resetDuring (p : Packet)
  deriving DecidableEq, Repr

/-- Everything one device holds, and the two channels to its host. `eng` is absent exactly while `ENG.initialized = 0`: R15
says that no convolver and no engine scalar exists then, and that a model represents it so. -/
structure State where
  /-- `IR_MAX`, `B_MAX`, `P_MAX` of the instance (R4). -/
  limits    : Limits
  /-- The host-visible ring `DL`; its `n` is `DL_N` (R4, R11). -/
  dl        : Ring
  /-- The Convolution Engine while it is initialised (R14, R15). -/
  eng       : Option Engine
  /-- What the host does next, oldest first (R60; log 2). -/
  inputs    : List HostInput
  /-- The response channel, oldest first (R60; log 3). -/
  responses : List Response
  deriving DecidableEq, Repr

/-- Why the machine stops with a fault. -/
inductive Fault where
  /-- Raised by `DL.PUT`, `DL.PUTADV`, `DL.GET`, `DL.GETADV`, `PROCESS` and `FLUSH` when a cursor lies outside its array, so that
  the access would be at an index that does not exist. R55 says no such access exists; the invariant of Safety.lean
  excludes it, so no run reaches it (log 8). Safe. -/
  | outsideArray
  deriving DecidableEq, Repr

/-- Why the model gives an input no meaning. -/
inductive Refusal where
  /-- Raised only by an arm of `exec` whose instruction has no meaning yet; no arm raises it. Safe. -/
  | notModelled (mnemonic : String)
  /-- Raised by `step` for a hardware reset asserted while a command executes: R241 and U11 say that a model refuses such a
  run (log 4). Safe. -/
  | resetDuringCommand
  deriving DecidableEq, Repr

/-- A freshly constructed ring of capacity `n`: storage `+0.0`, both cursors 0 (R11, R26). -/
def Ring.fresh (n : Nat) : Ring := { n := n, storage := [], writeIdx := 0, readIdx := 0 }

/-- Right after hardware reset, for a device built with these sizes: `DL` zeroed with both cursors 0, the engine
uninitialised, nothing on either channel (R26, R240). -/
def State.resetWith (dlN : Nat) (limits : Limits) : State :=
  { limits := limits, dl := Ring.fresh dlN, eng := none, inputs := [], responses := [] }

/-- Right after hardware reset, for the sizes of Config.lean (log 1). -/
def State.reset : State :=
  State.resetWith Config.dlN { irMax := Config.irMax, bMax := Config.bMax, pMax := Config.pMax }

end Sys2Proof.Machine
end

