-- ==== Sys2Proof/Machine/Ops.lean ====
section
/-! DEFINITION. The named operations every meaning is written over: one word of an array (`20_memory.md` R40, R47), the
updates of State, ending a command with a response (`00_scope.md` section 5, `60_exceptions.md` R210) and hardware
reset (`70_reset_and_hazards.md` R240). -/

namespace Sys2Proof.Machine

/-! ### Arrays of words -/

/-- The canonical form of an array: indices strictly rising and no entry equal to what an unlisted index reads as. -/
abbrev Memory.wf (m : Memory) : Prop := m.Pairwise (fun x y => x.1 < y.1) ∧ ∀ c ∈ m, c.2 ≠ 0#32

/-- Every listed index lies in the array's range `[0, size)` (R40). -/
abbrev Memory.below (m : Memory) (size : Nat) : Prop := ∀ c ∈ m, c.1 < size

/-- What an index that is not listed reads as: `+0.0` (R26; log 7). -/
def Memory.unlisted : Word := 0#32

/-- `MemRead(A, i)` of `00_scope.md` section 5. -/
def Memory.read : Memory → Nat → Word
  | [], _ => Memory.unlisted
  | (b, w) :: m, a => if a = b then w else Memory.read m a

/-- `MemWrite(A, i, v)` of `00_scope.md` section 5; it keeps the canonical form. -/
def Memory.write : Memory → Nat → Word → Memory
  | [], a, v => if v = Memory.unlisted then [] else [(a, v)]
  | (b, w) :: m, a, v =>
    if a < b then (if v = Memory.unlisted then (b, w) :: m else (a, v) :: (b, w) :: m)
    else if a = b then (if v = Memory.unlisted then m else (a, v) :: m)
    else (b, w) :: Memory.write m a v

/-- `for i: A[base + i] <- ws[i]`. -/
def Memory.load : Memory → Nat → List Word → Memory
  | m, _, [] => m
  | m, base, w :: ws => Memory.load (m.write base w) (base + 1) ws

/-- The words `A[base], …, A[base + len - 1]`, in index order. -/
def Memory.slice (m : Memory) (base len : Nat) : List Word := (List.range len).map fun i => m.read (base + i)

/-- `a mod n` of `00_scope.md` section 5, the non-negative remainder also for negative `a`. -/
def wrap (a : Int) (n : Nat) : Nat := (a % (n : Int)).toNat

/-- `ceil_div(a, b)` of `00_scope.md` section 5. -/
def ceilDiv (a b : Nat) : Nat := (a + b - 1) / b

/-! ### Updates of State -/

/-- `s` with another `DL` ring. -/
def State.setDl (s : State) (r : Ring) : State := { s with dl := r }

/-- `s` with another engine. -/
def State.setEng (s : State) (e : Option Engine) : State := { s with eng := e }

/-- `s` with other host inputs left. -/
def State.setInputs (s : State) (is : List HostInput) : State := { s with inputs := is }

/-- `s` with one more response packet on the response channel (R60). -/
def State.pushResponse (s : State) (r : Response) : State := { s with responses := s.responses ++ [r] }

/-! ### Ending a command -/

/-- The status codes of R211. -/
def Status.code : Status → BitVec 8
  | .ok => 0#8
  | .illegalCall => 1#8
  | .invalidArg => 2#8
  | .allocFail => 3#8

/-- The status word: `S[31:8] = 0`, `S[7:0] = code` (R62). -/
def Status.word (st : Status) : Word := st.code.setWidth 32

/-- `respond(OK, payload)` of `00_scope.md` section 5. -/
def respond (payload : List Word) (s : State) : Host.Outcome State Fault Refusal :=
  .next (s.pushResponse ⟨Status.ok.word, payload⟩)

/-- `raise <Status>` of `00_scope.md` section 5, the device's only way of taking an error (R210, R216): the state is left as it
was, the response is the status word alone, and the device goes on with the next command. There is nothing to save
and nothing to return from (R217). -/
def raise (st : Status) (s : State) : Host.Outcome State Fault Refusal :=
  .next (s.pushResponse ⟨st.word, []⟩)

/-! ### Hardware reset -/

/-- Hardware reset at a command boundary: the state of freshly constructed objects (R240, R26). The capacities are fixed
for the life of the device, and what the channels hold is the host's (log 4). -/
def hardReset (s : State) : State := (s.setDl (Ring.fresh s.dl.n)).setEng none

end Sys2Proof.Machine
end

