-- ==== Sys2Proof/Machine/Operands.lean ====
section
/-! DEFINITION. Operand assembly (`30_encoding.md` R65, R66): what a payload word or a header field stands for. -/

namespace Sys2Proof.Machine

/-- An i32 payload word stands for `int_s(w)`, in `[-2^31, 2^31)` (R65). -/
def i32 (w : Word) : Int := w.toInt

/-- A u32 response word, `zext_32(v)` (R65). -/
def u32 (v : Nat) : Word := BitVec.ofNat 32 v

/-- `count = int_u(zext_32(H[23:0]))`, not scaled or shifted (R65). -/
def countOf (imm24 : BitVec 24) : Nat := imm24.toNat

/-- The mode enumeration: 0 TimeDomain, 1 FreqDomain, every other value unknown (R66). -/
def modeOf (imm : BitVec 8) : Option Mode :=
  if imm = 0#8 then some .timeDomain else if imm = 1#8 then some .freqDomain else none

end Sys2Proof.Machine
end

