-- ==== Sys2Proof/Machine/Float.lean ====
section
/-! DEFINITION. IEEE 754 binary32 arithmetic (`43_cmac_transform_numerics.md` R160 to R164). A finite value is a sign and a
magnitude counted in units of `2^-149`, the smallest subnormal, so that every finite word is an exact integer; an
operation computes its exact result and rounds it once. -/

namespace Sys2Proof.Machine

/-- What a word stands for (R160). A finite value is `-mag * 2^-149` or `mag * 2^-149`. -/
inductive FloatView where
  | nan
  | infinite (neg : Bool)
  | finite (neg : Bool) (mag : Nat)
  deriving DecidableEq, Repr

/-- Bit 31 (R160). -/
def signBit (w : Word) : Bool := w.getLsbD 31

/-- Bits 30:23, the biased exponent (R160). -/
def exponentField (w : Word) : Nat := (w.extractLsb' 23 8).toNat

/-- Bits 22:0, the fraction (R160). -/
def fractionField (w : Word) : Nat := (w.extractLsb' 0 23).toNat

/-- The value of a word (R160): exponent 255 is an infinity or a NaN; exponent 0 a zero or a subnormal, `fraction * 2^-149`;
otherwise `(2^23 + fraction) * 2^(exponent - 1) * 2^-149`. -/
def view (w : Word) : FloatView :=
  let e := exponentField w
  let f := fractionField w
  if e = 255 then (if f = 0 then .infinite (signBit w) else .nan)
  else if e = 0 then .finite (signBit w) f
  else .finite (signBit w) ((2 ^ 23 + f) * 2 ^ (e - 1))

/-- A word from its sign and its low 31 bits. -/
def packBits (neg : Bool) (low31 : Nat) : Word := BitVec.ofNat 32 ((if neg then 2 ^ 31 else 0) + low31)

/-- `+inf` or `-inf`: exponent 255, fraction 0 (R160). -/
def infinity (neg : Bool) : Word := packBits neg (255 * 2 ^ 23)

/-- `+0.0` or `-0.0` (R160). -/
def signedZero (neg : Bool) : Word := packBits neg 0

/-- The low 31 bits of the binary32 value nearest `num / den` units of `2^-149`, ties to the even fraction, overflow to an
infinity (R161). With `q` the integer part, `k` is how far the last place of the result lies above the smallest
subnormal; the rounded significand `n` gives the exponent and fraction fields by one addition, since a carry out of
the fraction steps the exponent. -/
def roundMag (num den : Nat) : Nat :=
  let k := (num / den).log2 - 23
  let unit := den * 2 ^ k
  let low := num / unit
  let rest := num % unit
  let n := if 2 * rest < unit then low else if 2 * rest = unit then low + low % 2 else low + 1
  min (k * 2 ^ 23 + n) (255 * 2 ^ 23)

/-- The binary32 value nearest `±num / den` units of `2^-149` (R161). -/
def roundWord (neg : Bool) (num den : Nat) : Word := packBits neg (roundMag num den)

/-- The NaN that an operation returns: the parameter `NaNdraw`, a function of the operation and its operands (R162, R4). -/
def nanOf (op : FloatOp) (a b : Word) : Word :=
  let d := Config.nanDraw op a b
  packBits d.1 (255 * 2 ^ 23 + (d.2.val + 1))

/-- A finite value in units of `2^-149`, with its sign. -/
def signedMag (neg : Bool) (mag : Nat) : Int := if neg then -(mag : Int) else (mag : Int)

/-- The exact sum of two finite values, rounded; an exact zero is `+0.0` unless both operands are negative, when both are
`-0.0` (R161). -/
def addFinite (na : Bool) (ma : Nat) (nb : Bool) (mb : Nat) : Word :=
  let x := signedMag na ma + signedMag nb mb
  if x = 0 then signedZero (na && nb) else roundWord (decide (x < 0)) x.natAbs 1

/-- The sum of two viewed values, `nan` standing for the NaN of the operation that asked (R161, R162). PRESUMED (log 13): a sum
with an infinity that does not cancel is that infinity. -/
def addView (nan : Word) : FloatView → FloatView → Word
  | .finite na ma, .finite nb mb => addFinite na ma nb mb
  | .infinite na, .finite _ _ => infinity na
  | .finite _ _, .infinite nb => infinity nb
  | .infinite na, .infinite nb => if na = nb then infinity na else nan
  | .nan, _ => nan
  | _, .nan => nan

/-- The value with the other sign. -/
def negView : FloatView → FloatView
  | .nan => .nan
  | .infinite n => .infinite (!n)
  | .finite n m => .finite (!n) m

/-- `fadd(a, b)` (R161, R162). -/
def fadd (a b : Word) : Word := addView (nanOf .add a b) (view a) (view b)

/-- `fsub(a, b)`: the exact difference rounded once (R161, R162). A zero difference takes the sign IEEE 754 gives it: `+0.0`, but
`-0.0 - (+0.0) = -0.0`, which R92 needs for the offset `-0.0` (log 12). -/
def fsub (a b : Word) : Word := addView (nanOf .sub a b) (view a) (negView (view b))

/-- `fmul(a, b)`; a zero product takes the exclusive-or of the signs (R161, R162). PRESUMED (log 13): an infinity times a non-zero
value is an infinity. -/
def fmul (a b : Word) : Word :=
  match view a, view b with
  | .finite na ma, .finite nb mb => roundWord (na != nb) (ma * mb) (2 ^ 149)
  | .infinite na, .infinite nb => infinity (na != nb)
  | .infinite na, .finite nb mb => if mb = 0 then nanOf .mul a b else infinity (na != nb)
  | .finite na ma, .infinite nb => if ma = 0 then nanOf .mul a b else infinity (na != nb)
  | .nan, _ => nanOf .mul a b
  | _, .nan => nanOf .mul a b

/-- `fdiv(a, b)`; a zero quotient takes the exclusive-or of the signs (R161, R162). PRESUMED (log 13): a finite non-zero value
divided by zero, and an infinity divided by a finite value, is an infinity, and a finite value divided by an infinity a
zero, as in IEEE 754; R163 says that no division by zero occurs in the device. -/
def fdiv (a b : Word) : Word :=
  match view a, view b with
  | .finite na ma, .finite nb mb =>
    if mb = 0 then (if ma = 0 then nanOf .div a b else infinity (na != nb))
    else roundWord (na != nb) (ma * 2 ^ 149) mb
  | .infinite na, .finite nb _ => infinity (na != nb)
  | .finite na _, .infinite nb => signedZero (na != nb)
  | .infinite _, .infinite _ => nanOf .div a b
  | .nan, _ => nanOf .div a b
  | _, .nan => nanOf .div a b

/-- The word of `1.0`. -/
def oneWord : Word := 0x3F800000#32

/-- `fl(x)` of an integer: the binary32 value nearest it (`00_scope.md` section 5); `fl(0)` is `+0.0`. -/
def flInt (i : Int) : Word := roundWord (decide (i < 0)) (i.natAbs * 2 ^ 149) 1

/-- `floor(v)` of a finite binary32 value, a mathematical integer (`00_scope.md` section 5). -/
def floorFinite (neg : Bool) (mag : Nat) : Int := signedMag neg mag / (2 ^ 149 : Int)

/-- `f >= +0.0`, false of a NaN; `-0.0` equals `+0.0` (R161). -/
def geZero (f : Word) : Bool :=
  match view f with
  | .finite neg mag => !neg || mag == 0
  | .infinite neg => !neg
  | .nan => false

/-- `f < 1.0`, false of a NaN (R161). -/
def ltOne (f : Word) : Bool :=
  match view f with
  | .finite neg mag => neg || decide (mag < 2 ^ 149)
  | .infinite neg => neg
  | .nan => false

/-- `f = 0.0`: true of `+0.0` and `-0.0` (R161). -/
def eqZero (f : Word) : Bool :=
  match view f with
  | .finite _ mag => mag == 0
  | _ => false

end Sys2Proof.Machine
end

