-- ==== Sys2Proof/Machine/Ring.lean ====
section
/-! DEFINITION. The Circular Sample Buffer operations on any ring (`40_ring_buffer.md` section 1, R90 to R98). No operation
tests for full or empty and none resizes the ring (R98). -/

namespace Sys2Proof.Machine

/-- `RB_put` (R90). -/
def Ring.put (r : Ring) (v : Word) : Ring := { r with storage := r.storage.write r.writeIdx v }

/-- `RB_putAdvance` (R91): the write uses the old `writeIdx`. -/
def Ring.putAdvance (r : Ring) (v : Word) : Ring :=
  { r with storage := r.storage.write r.writeIdx v, writeIdx := (r.writeIdx + 1) % r.n }

/-- The interpolation of R92: `(1 - f)*a + f*b`, four rounded operations in that order (R164). -/
def interpolate (f a b : Word) : Word := fadd (fmul (fsub oneWord f) a) (fmul f b)

/-- `RB_get` (R92); `none` is "fail". -/
def Ring.get (r : Ring) (offset : Word) : Option Word :=
  match view offset with
  | .finite neg mag =>
    let i := floorFinite neg mag
    let f := fsub offset (flInt i)
    if geZero f && ltOne f then
      let idx := wrap (r.readIdx + i) r.n
      let a := r.storage.read idx
      if eqZero f then some a
      else some (interpolate f a (r.storage.read ((idx + 1) % r.n)))
    else none
  | _ => none

/-- The sample `RB_getAdvance` returns (R93). -/
def Ring.current (r : Ring) : Word := r.storage.read r.readIdx

/-- The cursor move of `RB_getAdvance` (R93). -/
def Ring.advanceRead (r : Ring) : Ring := { r with readIdx := (r.readIdx + 1) % r.n }

/-- `RB_setReadIdx` (R94). -/
def Ring.setReadIdx (r : Ring) (idx : Int) : Ring := { r with readIdx := wrap idx r.n }

/-- `RB_setWriteIdx` (R95). -/
def Ring.setWriteIdx (r : Ring) (idx : Int) : Ring := { r with writeIdx := wrap idx r.n }

/-- `RB_reset` (R96): storage `+0.0`, cursors 0, capacity unchanged. -/
def Ring.clear (r : Ring) : Ring := { r with storage := [], writeIdx := 0, readIdx := 0 }

/-- `RB_valuesInBuffer` (R97), derived: 0 both for an empty and for an exactly full ring. -/
def Ring.valuesInBuffer (r : Ring) : Nat := wrap ((r.writeIdx : Int) - r.readIdx + r.n) r.n

end Sys2Proof.Machine
end

