-- ==== Sys2Proof/Machine/DelayLine.lean ====
section
/-! DEFINITION. The meanings of the eight `DL` commands (`40_ring_buffer.md` section 2, R100 to R107). None reads or writes a
flag or depends on the engine. -/

namespace Sys2Proof.Machine

/-- The `DL` access at cursor `idx` is inside the storage (R55); `k` is what the command does then. -/
def dlAccess (s : State) (idx : Nat) (k : Host.Outcome State Fault Refusal) : Host.Outcome State Fault Refusal :=
  if idx < s.dl.n then k else .fault .outsideArray

/-- `DL.PUT v` (R100). -/
def execDlPut (payload : List Word) (s : State) : Host.Outcome State Fault Refusal :=
  match payload with
  | [v] => dlAccess s s.dl.writeIdx (respond [] (s.setDl (s.dl.put v)))
  | _ => raise .invalidArg s

/-- `DL.PUTADV v` (R101). -/
def execDlPutAdv (payload : List Word) (s : State) : Host.Outcome State Fault Refusal :=
  match payload with
  | [v] => dlAccess s s.dl.writeIdx (respond [] (s.setDl (s.dl.putAdvance v)))
  | _ => raise .invalidArg s

/-- `DL.GET` at an offset: the sample, or `INVALID_ARG` where `RB_get` fails (R102); the index is reduced modulo `N`, so the
access is inside the storage of every ring of at least one word (R47). -/
def dlGetAt (offset : Word) (s : State) : Host.Outcome State Fault Refusal :=
  match s.dl.get offset with
  | none => raise .invalidArg s
  | some v => dlAccess s 0 (respond [v] s)

/-- `DL.GET [offset]` (R102): no payload word means the offset `+0.0`. -/
def execDlGet (payload : List Word) (s : State) : Host.Outcome State Fault Refusal :=
  match payload with
  | [] => dlGetAt 0#32 s
  | [offset] => dlGetAt offset s
  | _ => raise .invalidArg s

/-- `DL.GETADV` (R103). -/
def execDlGetAdv (payload : List Word) (s : State) : Host.Outcome State Fault Refusal :=
  match payload with
  | [] => dlAccess s s.dl.readIdx (respond [s.dl.current] (s.setDl s.dl.advanceRead))
  | _ => raise .invalidArg s

/-- `DL.SETRD idx` (R104). -/
def execDlSetRd (payload : List Word) (s : State) : Host.Outcome State Fault Refusal :=
  match payload with
  | [idx] => respond [] (s.setDl (s.dl.setReadIdx (i32 idx)))
  | _ => raise .invalidArg s

/-- `DL.SETWR idx` (R105). -/
def execDlSetWr (payload : List Word) (s : State) : Host.Outcome State Fault Refusal :=
  match payload with
  | [idx] => respond [] (s.setDl (s.dl.setWriteIdx (i32 idx)))
  | _ => raise .invalidArg s

/-- `DL.RESET` (R106). -/
def execDlReset (payload : List Word) (s : State) : Host.Outcome State Fault Refusal :=
  match payload with
  | [] => respond [] (s.setDl s.dl.clear)
  | _ => raise .invalidArg s

/-- `DL.NUM` (R107). -/
def execDlNum (payload : List Word) (s : State) : Host.Outcome State Fault Refusal :=
  match payload with
  | [] => respond [u32 s.dl.valuesInBuffer] s
  | _ => raise .invalidArg s

end Sys2Proof.Machine
end

