-- ==== Sys2Proof/Machine/Flags.lean ====
section
/-! DEFINITION. The only status flag, `ENG.initialized`, and the engine's mode (`10_state.md` R14, R25). No command sets any
other flag, and floating-point operations leave no flag (R25, `43_cmac_transform_numerics.md` R163). -/

namespace Sys2Proof.Machine

/-- `ENG.initialized = 1` exactly when a convolver instance exists (R14; log 10). -/
def State.initialized (s : State) : Bool := s.eng.isSome

/-- `ENG.mode`: which convolver the engine owns (R14, R219; log 10). -/
def Engine.mode (e : Engine) : Mode :=
  match e.conv with
  | .td _ => .timeDomain
  | .fd _ => .freqDomain

end Sys2Proof.Machine
end

