-- ==== Sys2Proof/Machine/Transform.lean ====
section
/-! DEFINITION. The words of the spectral transform primitive `Xfm` (`43_cmac_transform_numerics.md` R165, R169, R170): opaque,
with its shape (`XP1`), its zeros (`XP3`) and its small exact cases (`XP4`) built in, and nothing else. What it means in real
arithmetic for every size (`XP2`, R166, R167) is Machine/RealTransform.lean; R169 lets nothing more be assumed of the
words, not that `im[0]` and `im[B]` are zero nor that the inverse ignores them. -/

namespace Sys2Proof.Machine

/-- A half spectrum: separate real and imaginary arrays of `B+1` words, bin `k` at index `k` of both (R170). -/
structure Spectrum where
  re : List Word
  im : List Word
  deriving DecidableEq, Repr

/-- The parameter `Xfm` of R4: for a block length `B`, the pair of functions of transform size `T = 2*B` (R165). -/
structure Xfm where
  fwd : Nat → List Word → Spectrum
  inv : Nat → Spectrum → List Word

/-- `+0.0` or `-0.0`. -/
def isZeroWord (w : Word) : Bool := eqZero w

/-- The value of a word in units of `2^-8`, if it is an integer multiple of `2^-8` of magnitude at most `2^10` (`XP4`). -/
def gridValue (w : Word) : Option Int :=
  match view w with
  | .finite neg mag => if mag % 2 ^ 141 = 0 ∧ mag ≤ 2 ^ 159 then some (signedMag neg (mag / 2 ^ 141)) else none
  | _ => none

/-- The word whose value is `z` units of `2^-8`; the sign of a zero is not specified and is taken from the draw (log 6). -/
def gridWord (draw : Word) (z : Int) : Word :=
  if z = 0 then signedZero (signBit draw) else roundWord (decide (z < 0)) (z.natAbs * 2 ^ 141) 1

/-- R166 for `T = 2` and `T = 4`, real part of bin `k`, on exact values. -/
def exactFwdRe (B : Nat) (x : List Int) (k : Nat) : Int :=
  let at' := fun n => x.getD n 0
  if B = 1 then (if k = 0 then at' 0 + at' 1 else at' 0 - at' 1)
  else if k = 0 then at' 0 + at' 1 + at' 2 + at' 3
  else if k = 1 then at' 0 - at' 2
  else at' 0 - at' 1 + at' 2 - at' 3

/-- R166 for `T = 2` and `T = 4`, imaginary part of bin `k`, on exact values. -/
def exactFwdIm (B : Nat) (x : List Int) (k : Nat) : Int :=
  if B = 2 ∧ k = 1 then x.getD 3 0 - x.getD 1 0 else 0

/-- R167 for `T = 2` and `T = 4`, sample `n`, on exact values. -/
def exactInv (B : Nat) (re im : List Int) (n : Nat) : Int :=
  let r := fun k => re.getD k 0
  if B = 1 then (if n = 0 then r 0 + r 1 else r 0 - r 1)
  else if n = 0 then r 0 + r 2 + 2 * r 1
  else if n = 1 then r 0 - r 2 - 2 * im.getD 1 0
  else if n = 2 then r 0 + r 2 - 2 * r 1
  else r 0 - r 2 + 2 * im.getD 1 0

/-- One output word of a transform: a zero when every input is a zero (`XP3`); the exact value when `T` is 2 or 4 and every
input lies on the grid of `XP4`; otherwise the draw. -/
def settleWord (draw : Word) (B : Nat) (inputs : List Word) (exact : Option Int) : Word :=
  if inputs.all isZeroWord then signedZero (signBit draw)
  else if B = 1 ∨ B = 2 then
    match exact with
    | some z => gridWord draw z
    | none => draw
  else draw

/-- `Xfm.fwd_T` with `T = 2*B`: a half spectrum of `B+1` bins (R165, R169). -/
def xfmForward (d : XfmDraw) (B : Nat) (x : List Word) : Spectrum :=
  let grid := x.mapM gridValue
  { re := (List.range (B + 1)).map fun k =>
      settleWord (d.fwdRe B x k) B x (grid.map fun v => exactFwdRe B v k)
    im := (List.range (B + 1)).map fun k =>
      settleWord (d.fwdIm B x k) B x (grid.map fun v => exactFwdIm B v k) }

/-- `Xfm.inv_T` with `T = 2*B`: `2*B` samples (R165, R169). -/
def xfmInverse (d : XfmDraw) (B : Nat) (s : Spectrum) : List Word :=
  let gridRe := s.re.mapM gridValue
  let gridIm := s.im.mapM gridValue
  (List.range (2 * B)).map fun n =>
    settleWord (d.inv B s.re s.im n) B (s.re ++ s.im)
      (gridRe.bind fun re => gridIm.map fun im => exactInv B re im n)

/-- The transform that a draw settles. -/
def xfmOf (d : XfmDraw) : Xfm := { fwd := xfmForward d, inv := xfmInverse d }

/-- The transform of the device (R4, R169; log 6). -/
def deviceXfm : Xfm := xfmOf Config.xfmDraw

end Sys2Proof.Machine
end

