-- ==== Sys2Proof/Machine/Cmac.lean ====
section
/-! DEFINITION. The complex multiply `CMUL` and the accumulation of the partition loop
(`43_cmac_transform_numerics.md` R171, R173, R174). -/

namespace Sys2Proof.Machine

/-- One bin of `CMUL` (R171): six `fmul`, one `fsub`, one `fadd`, each rounded, in this nesting (R164). -/
def cmulBin (xr xi hr hi s : Word) : Word × Word :=
  let pr := fsub (fmul xr hr) (fmul xi hi)
  let pi := fadd (fmul xr hi) (fmul xi hr)
  (fmul s pr, fmul s pi)

/-- `CMUL` on half spectra of `B+1` bins (R171): the lanes are independent (R174). -/
def cmul (B : Nat) (x h : Spectrum) (s : Word) : Spectrum :=
  let bin := fun k => cmulBin (x.re.getD k 0#32) (x.im.getD k 0#32) (h.re.getD k 0#32) (h.im.getD k 0#32) s
  { re := (List.range (B + 1)).map fun k => (bin k).1
    im := (List.range (B + 1)).map fun k => (bin k).2 }

/-- `for n in 0..B-1: A[base + n] <- fadd(A[base + n], y[B + n])` (R173). -/
def accumulateInto (m : Memory) (base B : Nat) (y : List Word) : Memory :=
  (List.range B).foldl (fun m n => m.write (base + n) (fadd (m.read (base + n)) (y.getD (B + n) 0#32))) m

end Sys2Proof.Machine
end

