-- ==== Sys2Proof/Machine/TimeDomain.lean ====
section
/-! DEFINITION. The Time-Domain Convolver (`41_time_domain_convolver.md` R120 to R123), and the left fold that both
convolvers process their input with (R122, R141). -/

namespace Sys2Proof.Machine

/-- The left fold of a per-sample step over the input in index order, with its outputs (R122, R141). -/
def stream {σ : Type} (sampleStep : σ → Word → σ × Word) : σ → List Word → σ × List Word
  | t, [] => (t, [])
  | t, x :: xs =>
    let now := sampleStep t x
    let later := stream sampleStep now.1 xs
    (later.1, now.2 :: later.2)

/-- `TD_construct` (R120). -/
def tdConstruct (ir : List Word) (L : Nat) : TdState :=
  { ir := Memory.load [] 0 ir, hist := (Ring.fresh L).clear }

/-- The FIR sum of R121: from `+0.0`, one `fmul` and one `fadd` per tap, `k` ascending, tap `k` read backward from the
just-written sample. -/
def firSum (ir : Memory) (hist : Ring) (L : Nat) : Word :=
  (List.range L).foldl
    (fun acc k => fadd acc (fmul (ir.read k) (hist.storage.read (wrap ((hist.writeIdx : Int) - 1 - k) L)))) 0#32

/-- `TD_step` (R121): push, then sum. `TD.hist.readIdx` is never moved. -/
def tdStep (L : Nat) (t : TdState) (x : Word) : TdState × Word :=
  let pushed := { t with hist := t.hist.putAdvance x }
  (pushed, firSum pushed.ir pushed.hist L)

/-- The history cursor addresses the history of `L` words (R12, R55). -/
def TdState.inRange (L : Nat) (t : TdState) : Bool := t.hist.n == L && decide (t.hist.writeIdx < L)

/-- `TD_process` (R122). -/
def tdProcess (L : Nat) (t : TdState) (xs : List Word) : TdState × List Word := stream (tdStep L) t xs

/-- `TD_flush` (R123): `irLength - 1` zero samples through `TD_process`. -/
def tdFlush (L : Nat) (t : TdState) : TdState × List Word := tdProcess L t (List.replicate (L - 1) 0#32)

end Sys2Proof.Machine
end

