-- ==== Sys2Proof/Machine/FreqDomain.lean ====
section
/-! DEFINITION. The Frequency-Domain Convolver (`42_freq_domain_convolver.md` R130 to R144). `xf` is the transform `Xfm` and `B`
is `ENG.blockLength` throughout. -/

namespace Sys2Proof.Machine

/-! ### Construction -/

/-- The zero-padded segment of partition `p` (R131): its coefficients first, then `+0.0` up to `2*B` words. -/
def irSegment (ir : List Word) (L B p : Nat) : List Word :=
  (List.range (2 * B)).map fun n => if n < B ∧ p * B + n < L then ir.getD (p * B + n) 0#32 else 0#32

/-- The cached spectra, row by row: one forward transform per partition, no scaling (R131). -/
def partitionSpectra (xf : Xfm) (ir : List Word) (L B P : Nat) : Memory × Memory :=
  (List.range P).foldl
    (fun m p =>
      let h := xf.fwd B (irSegment ir L B p)
      (m.1.load (p * (B + 1)) h.re, m.2.load (p * (B + 1)) h.im))
    ([], [])

/-- The scale `fdiv(1.0, fl(2*B))` (R17, R172). -/
def fdScale (B : Nat) : Word := fdiv oneWord (flInt (2 * B))

/-- `FD_construct` (R130 to R133): constants, spectra, zeroed staging and accumulators, cursors. -/
def fdConstruct (xf : Xfm) (ir : List Word) (L B : Nat) : FdState :=
  let P := ceilDiv L B
  let R := max P 2
  let h := partitionSpectra xf ir L B P
  { p := P, r := R, scale := fdScale B, hre := h.1, him := h.2, staging := [], accum := [],
    writeBlock := 0, nextBlock := 1, readBlock := wrap (0 - ((P : Int) - 1)) R, writeIdx := 0 }

/-! ### The per-sample step -/

/-- Step 1, double write (R134, R48): the tail half of `writeBlock`, the head half of `nextBlock`. -/
def FdState.stage (f : FdState) (B : Nat) (x : Word) : FdState :=
  { f with staging :=
      (f.staging.write (f.writeBlock * (2 * B) + (f.writeIdx + B)) x).write (f.nextBlock * (2 * B) + f.writeIdx) x }

/-- Step 2, emit (R135, R49): the word is read before `writeIdx` advances. -/
def FdState.emit (f : FdState) (B : Nat) : Word := f.accum.read (f.readBlock * B + f.writeIdx)

/-- Boundary a, clear the drained accumulator (R137). -/
def FdState.clearDrained (f : FdState) (B : Nat) : FdState :=
  { f with accum := f.accum.load (f.readBlock * B) (List.replicate B 0#32) }

/-- Boundary b, the spectrum of the block just assembled (R138). -/
def FdState.frameSpectrum (xf : Xfm) (f : FdState) (B : Nat) : Spectrum :=
  xf.fwd B (f.staging.slice (f.writeBlock * (2 * B)) (2 * B))

/-- The cached spectrum of partition `j` (R18, R50). -/
def FdState.partSpectrum (f : FdState) (B j : Nat) : Spectrum :=
  { re := f.hre.slice (j * (B + 1)) (B + 1), im := f.him.slice (j * (B + 1)) (B + 1) }

/-- One turn of the partition loop (R139): multiply, scale, inverse-transform, add the back half into block
`(writeBlock + j) mod R`. -/
def FdState.addPartition (xf : Xfm) (x : Spectrum) (B : Nat) (f : FdState) (j : Nat) : FdState :=
  let y := xf.inv B (cmul B x (f.partSpectrum B j) f.scale)
  { f with accum := accumulateInto f.accum ((f.writeBlock + j) % f.r * B) B y }

/-- Boundary c, the partition loop, `j` ascending (R139). -/
def FdState.addPartitions (xf : Xfm) (x : Spectrum) (f : FdState) (B : Nat) : FdState :=
  (List.range f.p).foldl (FdState.addPartition xf x B) f

/-- Boundary d, rotate (R140): three assignments one after the other, the third reading the new `writeBlock`. -/
def FdState.rotate (f : FdState) : FdState :=
  let f1 := { f with readBlock := f.writeBlock }
  let f2 := { f1 with writeBlock := f1.nextBlock }
  let f3 := { f2 with nextBlock := (f2.writeBlock + 1) % f2.r }
  { f3 with writeIdx := 0 }

/-- The block boundary: a, b, c, d in that order (R136). -/
def FdState.boundary (xf : Xfm) (f : FdState) (B : Nat) : FdState :=
  let cleared := f.clearDrained B
  (FdState.addPartitions xf (cleared.frameSpectrum xf B) cleared B).rotate

/-- Step 3, advance and test (R136). -/
def FdState.advance (xf : Xfm) (f : FdState) (B : Nat) : FdState :=
  let moved := { f with writeIdx := f.writeIdx + 1 }
  if moved.writeIdx = B then moved.boundary xf B else moved

/-- `FD_step` (R134 to R136). -/
def fdStep (xf : Xfm) (B : Nat) (f : FdState) (x : Word) : FdState × Word :=
  let staged := f.stage B x
  (staged.advance xf B, staged.emit B)

/-- The cursors address blocks of the ring and a position of the block (R20, R55). -/
def FdState.inRange (B : Nat) (f : FdState) : Bool :=
  decide (f.writeBlock < f.r) && decide (f.nextBlock < f.r) && decide (f.readBlock < f.r) && decide (f.writeIdx < B)

/-! ### Process and flush -/

/-- `FD_process` (R141). -/
def fdProcess (xf : Xfm) (B : Nat) (f : FdState) (xs : List Word) : FdState × List Word := stream (fdStep xf B) f xs

/-- `FD_flush` (R142): `B + irLength - 1` zero samples through `FD_process`. -/
def fdFlush (xf : Xfm) (L B : Nat) (f : FdState) : FdState × List Word :=
  fdProcess xf B f (List.replicate (B + L - 1) 0#32)

end Sys2Proof.Machine
end

