-- ==== Sys2Proof/Machine/Engine.lean ====
section
/-! DEFINITION. The Convolution Engine: the facade's delegation (`44_engine_commands.md` R195) and the meanings of `INIT`,
`PROCESS`, `FLUSH` and `RESET` (R190 to R194). In each, the tests stand in the order of R215 and before the first write
(R216). -/

namespace Sys2Proof.Machine

/-- The convolver of a successful `INIT` (R191): the mode, the two lengths and the coefficients from the packet. -/
def engineConstruct (xf : Xfm) (mode : Mode) (L B : Nat) (ir : List Word) : Engine :=
  { irLength := L, blockLength := B,
    conv := match mode with
      | .timeDomain => .td (tdConstruct ir L)
      | .freqDomain => .fd (fdConstruct xf ir L B) }

/-- The convolver's cursors address its arrays (R55). -/
def Engine.inRange (e : Engine) : Bool :=
  match e.conv with
  | .td t => t.inRange e.irLength
  | .fd f => f.inRange e.blockLength

/-- The engine with another state of its time-domain convolver. -/
def Engine.withTd (e : Engine) (r : TdState × List Word) : Engine × List Word := ({ e with conv := .td r.1 }, r.2)

/-- The engine with another state of its frequency-domain convolver. -/
def Engine.withFd (e : Engine) (r : FdState × List Word) : Engine × List Word := ({ e with conv := .fd r.1 }, r.2)

/-- `process` delegated unchanged to the convolver (R192, R195). -/
def Engine.process (xf : Xfm) (e : Engine) (xs : List Word) : Engine × List Word :=
  match e.conv with
  | .td t => e.withTd (tdProcess e.irLength t xs)
  | .fd f => e.withFd (fdProcess xf e.blockLength f xs)

/-- `flushBuffer` delegated unchanged to the convolver (R193, R195). -/
def Engine.flush (xf : Xfm) (e : Engine) : Engine × List Word :=
  match e.conv with
  | .td t => e.withTd (tdFlush e.irLength t)
  | .fd f => e.withFd (fdFlush xf e.irLength e.blockLength f)

/-- A streaming command completes: the convolver's new state is kept and its output samples are the payload (R192, R193). -/
def finishStream (s : State) (r : Engine × List Word) : Host.Outcome State Fault Refusal :=
  respond r.2 (s.setEng (some r.1))

/-- `INIT` (R191). -/
def execInit (mode : BitVec 8) (payload : List Word) (s : State) : Host.Outcome State Fault Refusal :=
  if s.initialized then raise .illegalCall s
  else
    match payload with
    | irLength :: blockLength :: ir =>
      let L := i32 irLength
      let B := i32 blockLength
      if L ≤ 0 ∨ B ≤ 0 then raise .invalidArg s
      else
        match modeOf mode with
        | none => raise .invalidArg s
        | some m =>
          if (ir.length : Int) ≠ L then raise .invalidArg s
          else if s.limits.irMax < L.toNat then raise .allocFail s
          else if m = .freqDomain ∧ (s.limits.bMax < B.toNat ∨ s.limits.pMax < ceilDiv L.toNat B.toNat) then
            raise .allocFail s
          else respond [] (s.setEng (some (engineConstruct deviceXfm m L.toNat B.toNat ir)))
    | _ => raise .invalidArg s

/-- `PROCESS` (R192). -/
def execProcess (count : BitVec 24) (payload : List Word) (s : State) : Host.Outcome State Fault Refusal :=
  match s.eng with
  | none => raise .illegalCall s
  | some e =>
    if payload.length ≠ countOf count then raise .invalidArg s
    else if e.inRange then finishStream s (e.process deviceXfm payload)
    else .fault .outsideArray

/-- `FLUSH` (R193). -/
def execFlush (payload : List Word) (s : State) : Host.Outcome State Fault Refusal :=
  match s.eng with
  | none => raise .illegalCall s
  | some e =>
    if payload.length ≠ 0 then raise .invalidArg s
    else if e.inRange then finishStream s (e.flush deviceXfm)
    else .fault .outsideArray

/-- `RESET` of the engine (R194): the convolver and every engine scalar lose their value (R15). -/
def execReset (payload : List Word) (s : State) : Host.Outcome State Fault Refusal :=
  if s.initialized then
    if payload.length ≠ 0 then raise .invalidArg s else respond [] (s.setEng none)
  else raise .illegalCall s

end Sys2Proof.Machine
end

