-- ==== Sys2Proof/Machine/Dispatch.lean ====
section
/-! DEFINITION. The meaning of every command, one arm per constructor of `Instr` (`30_encoding.md` R63, R74). -/

namespace Sys2Proof.Machine

def exec (i : Instr) (s : State) : Host.Outcome State Fault Refusal :=
  match i with
  | .init mode payload => Sys2Proof.Machine.execInit mode payload s
  | .process count payload => Sys2Proof.Machine.execProcess count payload s
  | .flush payload => Sys2Proof.Machine.execFlush payload s
  | .reset payload => Sys2Proof.Machine.execReset payload s
  | .dlPut payload => Sys2Proof.Machine.execDlPut payload s
  | .dlPutAdv payload => Sys2Proof.Machine.execDlPutAdv payload s
  | .dlGet payload => Sys2Proof.Machine.execDlGet payload s
  | .dlGetAdv payload => Sys2Proof.Machine.execDlGetAdv payload s
  | .dlSetRd payload => Sys2Proof.Machine.execDlSetRd payload s
  | .dlSetWr payload => Sys2Proof.Machine.execDlSetWr payload s
  | .dlReset payload => Sys2Proof.Machine.execDlReset payload s
  | .dlNum payload => Sys2Proof.Machine.execDlNum payload s

end Sys2Proof.Machine
end

