-- ==== Sys2Proof/Machine/Input.lean ====
section
/-! DEFINITION. What one host input does (`30_encoding.md` R74, `70_reset_and_hazards.md` R240, R241). `Step.lean` only calls
it. -/

namespace Sys2Proof.Machine

/-- One command packet (R74): the command of its header runs; a header that matches no row executes nothing and is
answered with `INVALID_ARG`, whatever the payload (R68). -/
def runPacket (p : Packet) (s : State) : Host.Outcome State Fault Refusal :=
  match decode p with
  | .ok i => exec i s
  | .error _ => raise .invalidArg s

/-- One host input: a packet, a hardware reset between commands (R240), or a hardware reset inside a command, which the
model refuses (R241). -/
def runInput (i : HostInput) (s : State) : Host.Outcome State Fault Refusal :=
  match i with
  | .packet p => runPacket p s
  | .hardReset => .next (hardReset s)
  | .resetDuring _ => .refused .resetDuringCommand

/-- The host inputs with a packet put first: the next command the device takes. -/
def offerPacket (p : Packet) (s : State) : State := s.setInputs (.packet p :: s.inputs)

end Sys2Proof.Machine
end

