-- ==== Sys2Proof/Machine/Step.lean ====
section
/-! DEFINITION. One step of the device: it takes the host's next input and runs it to completion (`00_scope.md` R6,
`20_memory.md` R51). -/

namespace Sys2Proof.Machine

/-- With no input the device waits and nothing changes (R6, R240; log 2); otherwise the oldest input is consumed and run. -/
def step (s : State) : Host.Outcome State Fault Refusal :=
  match s.inputs with
  | [] => .next s
  | i :: rest => runInput i (s.setInputs rest)

/-- `s` with the packet of a word of the opcode table as the next packet on the command channel (log 15). -/
def State.withFetchWord (s : State) (nbits w : Nat) : State := offerPacket (tablePacket nbits w) s

end Sys2Proof.Machine
end

