-- ==== Sys2Proof/Machine/RealTransform.lean ====
section
/-! DEFINITION. The spectral transform in exact, real-number arithmetic, for every transform size (`43_cmac_transform_numerics.md`
R166, R167, R168): what `XP2` of R169 says that `Xfm` means. No step runs these functions: the words that the device
computes are those of Machine/Transform.lean, whose rounding R169 leaves open. -/

namespace Sys2Proof.Machine

/-- A half spectrum in exact arithmetic: bin `k` of `0..B` at index `k` of both parts (R165, R170). An index above `B` is
no bin. -/
structure RealSpectrum where
  re : ℕ → ℝ
  im : ℕ → ℝ

/-- `Xfm` evaluated in real arithmetic on real inputs (`XP2`): for a block length `B`, the pair of functions of transform
size `T = 2*B`. -/
structure RealXfm where
  fwd : ℕ → (ℕ → ℝ) → RealSpectrum
  inv : ℕ → RealSpectrum → ℕ → ℝ

/-- The angle `2*pi*k*n / T` with `T = 2*B` (R166, R167). -/
noncomputable def binAngle (B k n : ℕ) : ℝ := 2 * Real.pi * k * n / (2 * B)

/-- `re[k] = Σ x[n] * cos(2*pi*k*n / T)`, `n` in `0..T-1`; no scale factor (R166). -/
noncomputable def realFwdRe (B : ℕ) (x : ℕ → ℝ) (k : ℕ) : ℝ :=
  ∑ n ∈ Finset.range (2 * B), x n * Real.cos (binAngle B k n)

/-- `im[k] = - Σ x[n] * sin(2*pi*k*n / T)`, `n` in `0..T-1` (R166). -/
noncomputable def realFwdIm (B : ℕ) (x : ℕ → ℝ) (k : ℕ) : ℝ :=
  -∑ n ∈ Finset.range (2 * B), x n * Real.sin (binAngle B k n)

/-- `y[n] = re[0] + (-1)^n * re[B] + 2 * Σ (re[k] * cos(2*pi*k*n / T) - im[k] * sin(2*pi*k*n / T))`, `k` in `1..B-1`; no factor
`1/T` (R167). -/
noncomputable def realInv (B : ℕ) (s : RealSpectrum) (n : ℕ) : ℝ :=
  s.re 0 + (-1) ^ n * s.re B +
    2 * ∑ k ∈ Finset.Ico 1 B, (s.re k * Real.cos (binAngle B k n) - s.im k * Real.sin (binAngle B k n))

/-- The transform of R166 and R167. -/
noncomputable def realXfm : RealXfm :=
  { fwd := fun B x => { re := realFwdRe B x, im := realFwdIm B x }
    inv := realInv }

/-- `.*` of R168: the complex product, bin by bin. -/
def RealSpectrum.mul (x h : RealSpectrum) : RealSpectrum :=
  { re := fun k => x.re k * h.re k - x.im k * h.im k
    im := fun k => x.re k * h.im k + x.im k * h.re k }

/-- `circ(x, h)[n] = Σ h[m] * x[(n - m) mod T]`, `m` in `0..T-1`, with `T = 2*B` (R168). -/
def circularConvolution (B : ℕ) (x h : ℕ → ℝ) (n : ℕ) : ℝ :=
  ∑ m ∈ Finset.range (2 * B), h m * x (wrap ((n : Int) - m) (2 * B))

/-- The full spectrum of `T = 2*B` bins that a half spectrum stands for (R167, R170): `X[k] = re[k] + i*im[k]` for `k <= B`, and
`X[T-k]` the complex conjugate of `X[k]`. -/
def RealSpectrum.bin (B : ℕ) (s : RealSpectrum) (k : ℕ) : ℂ :=
  if k ≤ B then ⟨s.re k, s.im k⟩ else ⟨s.re (2 * B - k), -s.im (2 * B - k)⟩

end Sys2Proof.Machine
end

