-- ==== Sys2Proof/Safety.lean ====
section
/-! DEFINITION. The terms claims use: the invariant of the device (`10_state.md` R10 to R21), what a safe run is, how a command is
answered, the packets of the streaming commands, the value of a word, the contract of the transform (R169), and the direct forms of the two convolutions that
`41_time_domain_convolver.md` R124 and `42_freq_domain_convolver.md` R145 describe. -/

namespace Sys2Proof.Machine

/-! ### The invariant -/

/-- The build parameters obey the constraints of R4. -/
abbrev Limits.Inv (l : Limits) : Prop :=
  1 ≤ l.irMax ∧ l.irMax < 2 ^ 31 ∧ 1 ≤ l.bMax ∧ l.bMax ≤ 2 ^ 23 ∧ 1 ≤ l.pMax

/-- R4, R11, R12: a capacity below `2^31`, both cursors in `[0, N)`, the storage in canonical form and inside `[0, N)`. -/
abbrev Ring.Inv (r : Ring) : Prop :=
  r.n < 2 ^ 31 ∧ r.writeIdx < r.n ∧ r.readIdx < r.n ∧ r.storage.wf ∧ r.storage.below r.n

/-- R16: the history is a ring of `irLength` words whose read cursor stays 0, the coefficients an array of that length. -/
abbrev TdState.Inv (L : Nat) (t : TdState) : Prop :=
  t.hist.Inv ∧ t.hist.n = L ∧ t.hist.readIdx = 0 ∧ t.ir.wf ∧ t.ir.below L

/-- No block boundary has happened since `INIT` (R133): `writeBlock` is 0, `readBlock` is `P-1` slots behind it, and every
accumulator word is `+0.0`. -/
abbrev FdState.beforeFirstBoundary (f : FdState) : Prop :=
  f.writeBlock = 0 ∧ f.readBlock = wrap (0 - ((f.p : Int) - 1)) f.r ∧ f.accum = []

/-- R17 to R21: the derived constants, the arrays inside their ranges, and the corrected cursor invariant. -/
abbrev FdState.Inv (L B : Nat) (f : FdState) : Prop :=
  f.p = ceilDiv L B ∧ f.r = max f.p 2 ∧ f.scale = fdScale B ∧
  f.hre.wf ∧ f.hre.below (f.p * (B + 1)) ∧ f.him.wf ∧ f.him.below (f.p * (B + 1)) ∧
  f.staging.wf ∧ f.staging.below (f.r * (2 * B)) ∧ f.accum.wf ∧ f.accum.below (f.r * B) ∧
  f.writeBlock < f.r ∧ f.nextBlock = (f.writeBlock + 1) % f.r ∧ f.writeIdx < B ∧
  (f.readBlock = wrap ((f.writeBlock : Int) - 1) f.r ∨ f.beforeFirstBoundary)

/-- The convolver's own invariant, for the lengths of its engine; a Frequency-Domain Convolver fits the build (R10, R191). -/
def Convolver.Inv (l : Limits) (L B : Nat) : Convolver → Prop
  | .td t => t.Inv L
  | .fd f => B ≤ l.bMax ∧ f.p ≤ l.pMax ∧ f.Inv L B

/-- R10, R14: the engine's lengths are in their ranges and its convolver obeys its own invariant. -/
def Engine.Inv (l : Limits) (e : Engine) : Prop :=
  1 ≤ e.irLength ∧ e.irLength ≤ l.irMax ∧ 1 ≤ e.blockLength ∧ e.blockLength < 2 ^ 31 ∧
  e.conv.Inv l e.irLength e.blockLength

/-- What holds of every device between commands (R10 to R21). It asks nothing of the channels. -/
def State.Inv (s : State) : Prop :=
  s.limits.Inv ∧ s.dl.Inv ∧ ∀ e, s.eng = some e → e.Inv s.limits

/-! ### Safe runs -/

/-- A state whose next step does not fault (R55: the device has no access fault). -/
def State.Safe (s : State) : Prop := ∀ r, step s ≠ .fault r

/-- The states a device built with these sizes can be in: after hardware reset, after a step, and after the host has put
one more thing on its list. -/
inductive Reachable (dlN : Nat) (limits : Limits) : State → Prop where
  | reset : Reachable dlN limits (State.resetWith dlN limits)
  | step {s t : State} : Reachable dlN limits s → Sys2Proof.Machine.step s = .next t → Reachable dlN limits t
  | host {s : State} (i : HostInput) : Reachable dlN limits s →
      Reachable dlN limits (s.setInputs (s.inputs ++ [i]))

/-! ### How a command is answered -/

/-- What every completed command does to the channels and the build: one response with this status and payload is added, the
host's inputs left and the build parameters are as before (R60, R210). -/
def Responded (s t : State) (st : Status) (payload : List Word) : Prop :=
  t.responses = s.responses ++ [⟨st.word, payload⟩] ∧ t.inputs = s.inputs ∧ t.limits = s.limits

/-- `s` with a failed command's response added and NOTHING ELSE changed (R210, R216). -/
def State.failed (s : State) (st : Status) : State := { s with responses := s.responses ++ [⟨st.word, []⟩] }

/-- The outcome is a next state whose added response has this status, whatever else the command does. -/
def RespondsWith (o : Host.Outcome State Fault Refusal) (s : State) (st : Status) : Prop :=
  ∃ t payload, o = .next t ∧ t.responses = s.responses ++ [⟨st.word, payload⟩]

/-- The four engine commands and the state of the engine they need (R190): `INIT` an uninitialised one, the others an
initialised one. The `DL` commands need none. -/
def engineStateOk : Instr → State → Prop
  | .init _ _, s => s.eng = none
  | .process _ _, s => s.eng ≠ none
  | .flush _, s => s.eng ≠ none
  | .reset _, s => s.eng ≠ none
  | _, _ => True

/-- The operand values that a command turns away (R213, R191, R102): for `INIT` a length or a block length that is not positive, or
a mode other than 0 and 1; for `DL.GET` an offset at which `RB_get` fails. -/
def argumentsBad : Instr → State → Prop
  | .init mode (irLength :: blockLength :: _), _ =>
    irLength.toInt ≤ 0 ∨ blockLength.toInt ≤ 0 ∨ 2 ≤ mode.toNat
  | .dlGet [offset], s => s.dl.get offset = none
  | _, _ => False

/-- `INIT` asks for more than the build holds (R214): `irLength > IR_MAX`, or in FreqDomain mode `blockLength > B_MAX` or
`ceil(irLength / blockLength) > P_MAX`. -/
def beyondCapacity (l : Limits) (mode : BitVec 8) (L B : Nat) : Prop :=
  l.irMax < L ∨ (mode = 1#8 ∧ (l.bMax < B ∨ l.pMax < (L + B - 1) / B))

/-- The commands of the opcodes `0x01` to `0x04` (R63). -/
def engineCommand : Instr → Bool
  | .init _ _ => true
  | .process _ _ => true
  | .flush _ => true
  | .reset _ => true
  | _ => false

/-- An outcome with its next state changed by `g`. -/
def mapNext (g : State → State) : Host.Outcome State Fault Refusal → Host.Outcome State Fault Refusal
  | .next t => .next (g t)
  | .fault r => .fault r
  | .refused r => .refused r

/-! ### Packets of the streaming commands -/

/-- The packet of `INIT` (R191): header `0x010000mm`, the two lengths, the coefficients. -/
def initPacket (mode : BitVec 8) (B : Nat) (ir : List Word) : Packet :=
  ⟨initHeader mode, BitVec.ofNat 32 ir.length :: BitVec.ofNat 32 B :: ir⟩

/-- The packet of `PROCESS` (R192): header `0x02cccccc`, the samples. -/
def processPacket (xs : List Word) : Packet := ⟨processHeader (BitVec.ofNat 24 xs.length), xs⟩

/-- `s` with these packets, and nothing else, on the command channel. -/
def State.withPackets (s : State) (ps : List Packet) : State := s.setInputs (ps.map HostInput.packet)

/-! ### Values -/

/-- The word is finite: no infinity and no NaN (R160). -/
def isFiniteWord (w : Word) : Prop := exponentField w ≠ 255

/-- The word is a NaN (R160). -/
def isNanWord (w : Word) : Prop := exponentField w = 255 ∧ fractionField w ≠ 0

/-- The word is an infinity (R160). -/
def isInfWord (w : Word) : Prop := exponentField w = 255 ∧ fractionField w = 0

/-- The value of a finite word by the layout of R160, 0 of a word that is not finite. -/
def wordValue (w : Word) : ℚ :=
  let sign : ℚ := if w.getLsbD 31 then -1 else 1
  let e := exponentField w
  let f : ℚ := fractionField w
  if e = 255 then 0
  else if e = 0 then sign * f / 2 ^ 149
  else sign * (2 ^ 23 + f) * 2 ^ e / 2 ^ 150

/-- A finite word whose value is an integer multiple of `2^-8` of magnitude at most `2^10` (`XP4` of R169). -/
def onGrid (w : Word) : Prop := isFiniteWord w ∧ ∃ z : ℤ, |z| ≤ 2 ^ 18 ∧ wordValue w = z / 2 ^ 8

/-- `w` is the binary32 value nearest `x`, ties to the even fraction, with an infinity from `2^128 - 2^103` on (halfway
between the largest finite value and `2^128`); the sign is that of `x` when `x` is not zero (R161). -/
def NearestEven (x : ℚ) (w : Word) : Prop :=
  (x ≠ 0 → w.getLsbD 31 = decide (x < 0)) ∧
  if |x| < 2 ^ 128 - 2 ^ 103 then
    isFiniteWord w ∧
    ∀ v, isFiniteWord v →
      |x - wordValue w| ≤ |x - wordValue v| ∧
      (wordValue v ≠ wordValue w → |x - wordValue v| = |x - wordValue w| → w.getLsbD 0 = false)
  else isInfWord w

/-! ### The contract of the transform -/

/-- `+0.0` or `-0.0` (R160, `XP3` of R169). -/
def isZeroBits (w : Word) : Prop := w = 0#32 ∨ w = 0x80000000#32

/-- The real samples that a list of words stands for. -/
def realSamples (x : List Word) (n : ℕ) : ℝ := (wordValue (x.getD n 0#32) : ℝ)

/-- The real half spectrum that a spectrum of words stands for. -/
def Spectrum.reals (s : Spectrum) : RealSpectrum := { re := realSamples s.re, im := realSamples s.im }

/-- The contract of R169 between a transform on words and what it means in real arithmetic. Nothing else may be assumed of
the words: `XP5` gives no accuracy. -/
structure XfmContract (xf : Xfm) (meaning : RealXfm) : Prop where
  /-- `XP1`: the shape of R165. That equal inputs give equal outputs is what a function is. -/
  xp1 : ∀ (B : Nat) (x : List Word) (s : Spectrum),
    (xf.fwd B x).re.length = B + 1 ∧ (xf.fwd B x).im.length = B + 1 ∧ (xf.inv B s).length = 2 * B
  /-- `XP2`: in real arithmetic on real inputs, R166 and R167 exactly, for every size. -/
  xp2 : ∀ B : Nat, 1 ≤ B →
    (∀ (x : ℕ → ℝ), ∀ k ≤ B,
      (meaning.fwd B x).re k = realFwdRe B x k ∧ (meaning.fwd B x).im k = realFwdIm B x k) ∧
    (∀ (s : RealSpectrum), ∀ n < 2 * B, meaning.inv B s n = realInv B s n)
  /-- `XP3`: zeros to zeros. -/
  xp3 : ∀ (B : Nat) (x : List Word) (s : Spectrum),
    ((∀ w ∈ x, isZeroBits w) → (∀ w ∈ (xf.fwd B x).re, isZeroBits w) ∧ ∀ w ∈ (xf.fwd B x).im, isZeroBits w) ∧
    ((∀ w ∈ s.re, isZeroBits w) → (∀ w ∈ s.im, isZeroBits w) → ∀ w ∈ xf.inv B s, isZeroBits w)
  /-- `XP4`: for `T = 2` and `T = 4`, on the grid, the exact value of the meaning. -/
  xp4 : ∀ (B : Nat) (x : List Word) (s : Spectrum), B = 1 ∨ B = 2 →
    (x.length = 2 * B → (∀ w ∈ x, onGrid w) → ∀ k ≤ B,
      (xf.fwd B x).reals.re k = (meaning.fwd B (realSamples x)).re k ∧
      (xf.fwd B x).reals.im k = (meaning.fwd B (realSamples x)).im k) ∧
    (s.re.length = B + 1 → s.im.length = B + 1 → (∀ w ∈ s.re, onGrid w) → (∀ w ∈ s.im, onGrid w) →
      ∀ n < 2 * B, realSamples (xf.inv B s) n = meaning.inv B s.reals n)

/-! ### The two convolutions in direct form -/

/-- Output `i` of the direct-form FIR on the stream `xs` (R124): from `+0.0`, `k` ascending, tap `k` times the input `k` samples
ago, `+0.0` before the stream began. -/
def firOutput (ir xs : List Word) (i : Nat) : Word :=
  (List.range ir.length).foldl
    (fun acc k => fadd acc (fmul (ir.getD k 0#32) (if k ≤ i then xs.getD (i - k) 0#32 else 0#32))) 0#32

/-- Frame `m` of the stream `xs` (R134): input block `m-1` (`+0.0` for `m = 0`), then input block `m`. -/
def inputFrame (xs : List Word) (B m : Nat) : List Word :=
  (List.range (2 * B)).map fun i =>
    if i < B then (if m = 0 then 0#32 else xs.getD ((m - 1) * B + i) 0#32) else xs.getD (m * B + (i - B)) 0#32

/-- Word `n` of what partition `j` makes of frame `m` (R138, R139): the back half of the inverse transform of the scaled
product. -/
def partitionOfFrame (xf : Xfm) (ir xs : List Word) (B j m n : Nat) : Word :=
  (xf.inv B (cmul B (xf.fwd B (inputFrame xs B m)) (xf.fwd B (irSegment ir ir.length B j)) (fdScale B))).getD (B + n) 0#32

/-- Output `i` of the partitioned convolver on the stream `xs` (R145): `+0.0` in the first block; then, for word `n` of block `m`
of the convolution, the sum from `+0.0` over `j` from `P-1` down to 0 of partition `j` applied to frame `m - j`. -/
def partitionedOutput (xf : Xfm) (ir xs : List Word) (B i : Nat) : Word :=
  if i < B then 0#32
  else
    let m := i / B - 1
    let n := i % B
    ((List.range (ceilDiv ir.length B)).reverse.filter fun j => decide (j ≤ m)).foldl
      (fun acc j => fadd acc (partitionOfFrame xf ir xs B j (m - j) n)) 0#32

/-- Sample `i` of the linear convolution of two integer sequences. -/
def linearConvolution (ir xs : List Int) (i : Nat) : Int :=
  ((List.range ir.length).map fun k => if k ≤ i then ir.getD k 0 * xs.getD (i - k) 0 else 0).sum

end Sys2Proof.Machine
end

