-- ==== Sys2Proof/Certificates/Slice0/Obligations.lean ====
section
/-! DEFINITION. The statements for the provers. Each says which sentence of the spec it formalises. In the DL and ENG
statements the conclusion names the whole next state or every field of it, so each is its own frame. -/

open Sys2Proof Sys2Proof.Machine

/-! ### Encoding -/

/-- Every well-formed command survives encoding and decoding, as a packet and as a list of words, with every operand at
every value (R61 to R70). -/
def Obligations.DecodeEncodeAgree : Prop :=
  ∀ i : Instr, i.wellFormed = true → decode (encode i) = .ok i ∧ decodeWords (encodeWords i) = .ok i

/-- A packet that decodes is the encoding of the command it decodes to: every packet has one meaning and no bit of it is
dropped (R61, R67, R74). -/
def Obligations.EncodeDecodeAgree : Prop :=
  ∀ (p : Packet) (i : Instr), decode p = .ok i → encode i = p

/-- R63: a header selects exactly the row whose `H & mask = match`; the immediates are `H[7:0]` of `INIT` and `H[23:0]` of
`PROCESS`. The rows are disjoint because `decode` is a function and the commands are distinct constructors. -/
def Obligations.HeaderSelectsItsRow : Prop :=
  ∀ (h : Word) (pl : List Word),
    (∀ mode, decode ⟨h, pl⟩ = .ok (.init mode pl) ↔ h &&& 0xFFFFFF00#32 = 0x01000000#32 ∧ mode = h.extractLsb' 0 8) ∧
    (∀ count, decode ⟨h, pl⟩ = .ok (.process count pl) ↔
      h &&& 0xFF000000#32 = 0x02000000#32 ∧ count = h.extractLsb' 0 24) ∧
    (decode ⟨h, pl⟩ = .ok (.flush pl) ↔ h = 0x03000000#32) ∧
    (decode ⟨h, pl⟩ = .ok (.reset pl) ↔ h = 0x04000000#32) ∧
    (decode ⟨h, pl⟩ = .ok (.dlPut pl) ↔ h = 0x10000000#32) ∧
    (decode ⟨h, pl⟩ = .ok (.dlPutAdv pl) ↔ h = 0x11000000#32) ∧
    (decode ⟨h, pl⟩ = .ok (.dlGet pl) ↔ h = 0x12000000#32) ∧
    (decode ⟨h, pl⟩ = .ok (.dlGetAdv pl) ↔ h = 0x13000000#32) ∧
    (decode ⟨h, pl⟩ = .ok (.dlSetRd pl) ↔ h = 0x14000000#32) ∧
    (decode ⟨h, pl⟩ = .ok (.dlSetWr pl) ↔ h = 0x15000000#32) ∧
    (decode ⟨h, pl⟩ = .ok (.dlReset pl) ↔ h = 0x16000000#32) ∧
    (decode ⟨h, pl⟩ = .ok (.dlNum pl) ↔ h = 0x17000000#32)

/-- R67 and R68: an opcode outside `0x01..0x04` and `0x10..0x17`, or a defined opcode with a non-zero reserved bit, executes
nothing: the step consumes the packet, whatever its payload, and the only change is the response `INVALID_ARG`. -/
def Obligations.IllegalHeaderChangesNothing : Prop :=
  ∀ (s : State) (p : Packet) (rest : List HostInput), s.inputs = .packet p :: rest →
    (let opcode := (p.header.extractLsb' 24 8).toNat
     ¬(1 ≤ opcode ∧ opcode ≤ 4 ∨ 16 ≤ opcode ∧ opcode ≤ 23) ∨
     (opcode = 1 ∧ p.header.extractLsb' 8 16 ≠ 0#16) ∨
     (opcode ≠ 1 ∧ opcode ≠ 2 ∧ p.header.extractLsb' 0 24 ≠ 0#24)) →
    step s = .next { s with inputs := rest, responses := s.responses ++ [⟨2#32, []⟩] }

/-- A few words of the opcode map, written out from its table, decode to the commands they stand for (R63; V-ENC-1 to
V-ENC-12 of `95_test_vectors.md`). -/
def Obligations.SampleWordsDecode : Prop :=
  decodeWords [0x01000001#32, 1#32, 2#32, 0x3F800000#32] = .ok (.init 1#8 [1#32, 2#32, 0x3F800000#32]) ∧
  decodeWords [0x010000FF#32] = .ok (.init 255#8 []) ∧
  decodeWords [0x02FFFFFF#32] = .ok (.process 16777215#24 []) ∧
  decodeWords [0x04000000#32] = .ok (.reset []) ∧
  decodeWords [0x11000000#32, 0x41200000#32] = .ok (.dlPutAdv [0x41200000#32]) ∧
  decodeWords [0x14000000#32, 0xFFFFFFFF#32] = .ok (.dlSetRd [0xFFFFFFFF#32]) ∧
  decodeWords [0x01000100#32] = .error .reservedBits ∧
  decodeWords [0x05000000#32] = .error .unknownOpcode ∧
  decodeWords [] = .error .emptyPacket

/-! ### The step -/

/-- When the next packet on the command channel decodes to `i`, the step is `exec` of `i` on the state with that packet
consumed (R60, R74). -/
def Obligations.StepRunsDecodedPacket : Prop :=
  ∀ (s : State) (p : Packet) (rest : List HostInput) (i : Instr),
    s.inputs = .packet p :: rest → decode p = .ok i → step s = exec i { s with inputs := rest }

/-- With nothing from the host the device waits and nothing changes (the model's choice, log 2; R6 and R240 say that nothing
changes the state between commands and that the device waits for a packet). -/
def Obligations.StepWaitsForTheHost : Prop :=
  ∀ s : State, s.inputs = [] → step s = .next s

/-- R240: hardware reset at a command boundary leaves `DL` zeroed with both cursors 0 and no convolver; so does the state
right after power-on, which then waits for its first packet. Capacities, build parameters and channels stay (log 4). -/
def Obligations.HardResetGivesFreshDevice : Prop :=
  (∀ (s : State) (rest : List HostInput), s.inputs = .hardReset :: rest →
    ∃ t, step s = .next t ∧ (∀ i, t.dl.storage.read i = 0#32) ∧ t.dl.writeIdx = 0 ∧ t.dl.readIdx = 0 ∧
      t.initialized = false ∧ t.eng = none ∧ t.dl.n = s.dl.n ∧ t.limits = s.limits ∧ t.inputs = rest ∧
      t.responses = s.responses) ∧
  (∀ (n : Nat) (l : Limits), let t := State.resetWith n l
    (∀ i, t.dl.storage.read i = 0#32) ∧ t.dl.n = n ∧ t.dl.writeIdx = 0 ∧ t.dl.readIdx = 0 ∧
      t.initialized = false ∧ t.eng = none ∧ step t = .next t)

/-- R241: the model refuses exactly the runs in which hardware reset is asserted inside a command. -/
def Obligations.OnlyResetInsideCommandIsRefused : Prop :=
  ∀ (s : State) (r : Refusal),
    step s = .refused r ↔ r = .resetDuringCommand ∧ ∃ p rest, s.inputs = .resetDuring p :: rest

/-! ### Ring operations -/

/-- R90: `RB_put` writes one word at `writeIdx`, moves no cursor, and a second call overwrites the same slot. -/
def Obligations.RingPutWritesAtCursor : Prop :=
  ∀ (r : Ring) (v w : Word), r.Inv →
    (∀ a, (r.put v).storage.read a = if a = r.writeIdx then v else r.storage.read a) ∧
    (r.put v).writeIdx = r.writeIdx ∧ (r.put v).readIdx = r.readIdx ∧ (r.put v).n = r.n ∧
    (r.put w).put v = r.put v

/-- R91: `RB_putAdvance` writes at the old `writeIdx` and then advances it, wrapping from `N-1` to 0; there is no full check. -/
def Obligations.RingPutAdvanceWraps : Prop :=
  ∀ (r : Ring) (v : Word), r.Inv →
    (∀ a, (r.putAdvance v).storage.read a = if a = r.writeIdx then v else r.storage.read a) ∧
    (r.putAdvance v).writeIdx = (if r.writeIdx + 1 = r.n then 0 else r.writeIdx + 1) ∧
    (r.putAdvance v).readIdx = r.readIdx ∧ (r.putAdvance v).n = r.n

/-- R93, R94, R95: `RB_getAdvance` returns the word at `readIdx` and advances; the cursor setters take any integer and leave the
remainder in `[0, N)`; nothing else changes. -/
def Obligations.RingCursorMoves : Prop :=
  ∀ (r : Ring) (idx : Int), r.Inv →
    r.current = r.storage.read r.readIdx ∧
    r.advanceRead = { r with readIdx := if r.readIdx + 1 = r.n then 0 else r.readIdx + 1 } ∧
    (∃ k : Nat, k < r.n ∧ (r.n : Int) ∣ idx - k ∧ r.setReadIdx idx = { r with readIdx := k }) ∧
    (∃ k : Nat, k < r.n ∧ (r.n : Int) ∣ idx - k ∧ r.setWriteIdx idx = { r with writeIdx := k })

/-- R96: `RB_reset` zeroes every word and both cursors and keeps the capacity. -/
def Obligations.RingResetZeroes : Prop :=
  ∀ r : Ring, (∀ a, r.clear.storage.read a = 0#32) ∧ r.clear.writeIdx = 0 ∧ r.clear.readIdx = 0 ∧ r.clear.n = r.n

/-- R97: `valuesInBuffer` lies in `[0, N-1]` and is `writeIdx - readIdx` modulo `N`; after `N` calls of `RB_putAdvance` from the reset
state it is 0, as when nothing was written. -/
def Obligations.FullRingLooksEmpty : Prop :=
  (∀ r : Ring, r.Inv → r.valuesInBuffer < r.n ∧
    (r.n : Int) ∣ ((r.writeIdx : Int) - r.readIdx) - r.valuesInBuffer) ∧
  (∀ (n : Nat) (vs : List Word), 1 ≤ n → vs.length = n →
    (vs.foldl Ring.putAdvance (Ring.fresh n)).valuesInBuffer = 0 ∧ (Ring.fresh n).valuesInBuffer = 0)

/-- `RB_get` fails exactly for the non-finite offsets and for the words `0x80000001` to `0xB3000000`, the offsets in `[-2^-25, 0)`
whose computed fractional part is `1.0` (R92). -/
def Obligations.RingGetFailsExactly : Prop :=
  ∀ (r : Ring) (offset : Word),
    r.get offset = none ↔
      exponentField offset = 255 ∨ (0x80000001 ≤ offset.toNat ∧ offset.toNat ≤ 0xB3000000)

/-- The value of `RB_get` where it does not fail (R92): at an offset of integer value the stored word bit for bit; otherwise
`(1-f)*a + f*b` with `f` the rounded fractional part and `a`, `b` the words at `readIdx + floor(offset)` and its successor. -/
def Obligations.RingGetInterpolates : Prop :=
  ∀ (r : Ring) (offset v : Word), 1 ≤ r.n → r.get offset = some v →
    (let i : Int := ⌊wordValue offset⌋
     let f := fsub offset (flInt i)
     let a := r.storage.read (wrap (r.readIdx + i) r.n)
     let b := r.storage.read (wrap (r.readIdx + i + 1) r.n)
     v = if wordValue offset = i then a
         else fadd (fmul (fsub 0x3F800000#32 f) a) (fmul f b))

/-! ### DL commands -/

/-- R100: `DL.PUT`. -/
def Obligations.DlPutStores : Prop :=
  ∀ (s : State) (pl : List Word),
    decode ⟨0x10000000#32, pl⟩ = .ok (.dlPut pl) ∧
    (pl.length ≠ 1 → exec (.dlPut pl) s = .next (s.failed .invalidArg)) ∧
    (∀ v, pl = [v] → s.dl.Inv → ∃ t, exec (.dlPut pl) s = .next t ∧ Responded s t .ok [] ∧ t.eng = s.eng ∧
      t.dl.n = s.dl.n ∧ t.dl.writeIdx = s.dl.writeIdx ∧ t.dl.readIdx = s.dl.readIdx ∧
      ∀ a, t.dl.storage.read a = if a = s.dl.writeIdx then v else s.dl.storage.read a)

/-- R101: `DL.PUTADV`. -/
def Obligations.DlPutAdvStoresAndAdvances : Prop :=
  ∀ (s : State) (pl : List Word),
    decode ⟨0x11000000#32, pl⟩ = .ok (.dlPutAdv pl) ∧
    (pl.length ≠ 1 → exec (.dlPutAdv pl) s = .next (s.failed .invalidArg)) ∧
    (∀ v, pl = [v] → s.dl.Inv → ∃ t, exec (.dlPutAdv pl) s = .next t ∧ Responded s t .ok [] ∧ t.eng = s.eng ∧
      t.dl.n = s.dl.n ∧ t.dl.readIdx = s.dl.readIdx ∧
      t.dl.writeIdx = (if s.dl.writeIdx + 1 = s.dl.n then 0 else s.dl.writeIdx + 1) ∧
      ∀ a, t.dl.storage.read a = if a = s.dl.writeIdx then v else s.dl.storage.read a)

/-- R102: `DL.GET` changes nothing but the response channel; it answers what `RB_get` returns, at the offset `+0.0` when the
packet gives none, and `INVALID_ARG` where `RB_get` fails or the packet has more than one payload word. -/
def Obligations.DlGetReads : Prop :=
  ∀ (s : State) (pl : List Word), s.dl.Inv →
    decode ⟨0x12000000#32, pl⟩ = .ok (.dlGet pl) ∧
    (1 < pl.length → exec (.dlGet pl) s = .next (s.failed .invalidArg)) ∧
    (pl.length ≤ 1 → s.dl.get (pl.getD 0 0#32) = none → exec (.dlGet pl) s = .next (s.failed .invalidArg)) ∧
    (∀ v, pl.length ≤ 1 → s.dl.get (pl.getD 0 0#32) = some v →
      exec (.dlGet pl) s = .next { s with responses := s.responses ++ [⟨0#32, [v]⟩] }) ∧
    exec (.dlGet []) s = .next { s with responses := s.responses ++ [⟨0#32, [s.dl.storage.read s.dl.readIdx]⟩] }

/-- R103: `DL.GETADV`. -/
def Obligations.DlGetAdvReadsAndAdvances : Prop :=
  ∀ (s : State) (pl : List Word), s.dl.Inv →
    decode ⟨0x13000000#32, pl⟩ = .ok (.dlGetAdv pl) ∧
    (pl ≠ [] → exec (.dlGetAdv pl) s = .next (s.failed .invalidArg)) ∧
    exec (.dlGetAdv []) s = .next
      { s with dl := { s.dl with readIdx := if s.dl.readIdx + 1 = s.dl.n then 0 else s.dl.readIdx + 1 },
               responses := s.responses ++ [⟨0#32, [s.dl.storage.read s.dl.readIdx]⟩] }

/-- R104: `DL.SETRD`, every i32 legal. -/
def Obligations.DlSetRdSetsReadCursor : Prop :=
  ∀ (s : State) (pl : List Word), s.dl.Inv →
    decode ⟨0x14000000#32, pl⟩ = .ok (.dlSetRd pl) ∧
    (pl.length ≠ 1 → exec (.dlSetRd pl) s = .next (s.failed .invalidArg)) ∧
    (∀ idx, pl = [idx] → ∃ k : Nat, k < s.dl.n ∧ (s.dl.n : Int) ∣ idx.toInt - k ∧
      exec (.dlSetRd pl) s = .next { s with dl := { s.dl with readIdx := k }, responses := s.responses ++ [⟨0#32, []⟩] })

/-- R105: `DL.SETWR`, every i32 legal. -/
def Obligations.DlSetWrSetsWriteCursor : Prop :=
  ∀ (s : State) (pl : List Word), s.dl.Inv →
    decode ⟨0x15000000#32, pl⟩ = .ok (.dlSetWr pl) ∧
    (pl.length ≠ 1 → exec (.dlSetWr pl) s = .next (s.failed .invalidArg)) ∧
    (∀ idx, pl = [idx] → ∃ k : Nat, k < s.dl.n ∧ (s.dl.n : Int) ∣ idx.toInt - k ∧
      exec (.dlSetWr pl) s = .next { s with dl := { s.dl with writeIdx := k }, responses := s.responses ++ [⟨0#32, []⟩] })

/-- R106: `DL.RESET`; it does not touch the engine. -/
def Obligations.DlResetZeroes : Prop :=
  ∀ (s : State) (pl : List Word),
    decode ⟨0x16000000#32, pl⟩ = .ok (.dlReset pl) ∧
    (pl ≠ [] → exec (.dlReset pl) s = .next (s.failed .invalidArg)) ∧
    (∃ t, exec (.dlReset []) s = .next t ∧ Responded s t .ok [] ∧ t.eng = s.eng ∧ t.dl.n = s.dl.n ∧
      t.dl.writeIdx = 0 ∧ t.dl.readIdx = 0 ∧ ∀ a, t.dl.storage.read a = 0#32)

/-- R107: `DL.NUM` changes nothing but the response channel and answers `writeIdx - readIdx` modulo `N`, zero-extended. -/
def Obligations.DlNumCounts : Prop :=
  ∀ (s : State) (pl : List Word), s.dl.Inv →
    decode ⟨0x17000000#32, pl⟩ = .ok (.dlNum pl) ∧
    (pl ≠ [] → exec (.dlNum pl) s = .next (s.failed .invalidArg)) ∧
    (∃ w : Word, w.toNat < s.dl.n ∧ (s.dl.n : Int) ∣ ((s.dl.writeIdx : Int) - s.dl.readIdx) - w.toNat ∧
      exec (.dlNum []) s = .next { s with responses := s.responses ++ [⟨0#32, [w]⟩] })

/-! ### Engine commands -/

/-- `INIT` in TimeDomain mode on an uninitialised engine (R191, R120): it answers `OK`, keeps the coefficients bit for bit, and
makes a zeroed history of `irLength` words. `DL` is untouched. -/
def Obligations.InitBuildsTimeDomain : Prop :=
  ∀ (s : State) (B : Nat) (ir : List Word), s.limits.Inv → s.eng = none → 1 ≤ ir.length → ir.length ≤ s.limits.irMax →
    1 ≤ B → B < 2 ^ 31 →
    ∃ t td, exec (.init 0#8 (BitVec.ofNat 32 ir.length :: BitVec.ofNat 32 B :: ir)) s = .next t ∧
      Responded s t .ok [] ∧ t.dl = s.dl ∧
      t.eng = some { irLength := ir.length, blockLength := B, conv := .td td } ∧
      (∀ k, td.ir.read k = ir.getD k 0#32) ∧ td.hist.n = ir.length ∧ (∀ i, td.hist.storage.read i = 0#32) ∧
      td.hist.writeIdx = 0 ∧ td.hist.readIdx = 0

/-- `INIT` in FreqDomain mode on an uninitialised engine (R191, R130 to R133): it answers `OK`, with the constants of R17, the
cached spectra of the zero-padded segments of R131, zeroed staging and accumulators, and the cursors of R133. -/
def Obligations.InitBuildsFreqDomain : Prop :=
  ∀ (s : State) (B : Nat) (ir : List Word), s.limits.Inv → s.eng = none → 1 ≤ ir.length → ir.length ≤ s.limits.irMax →
    1 ≤ B → B ≤ s.limits.bMax → (ir.length + B - 1) / B ≤ s.limits.pMax →
    ∃ t f, exec (.init 1#8 (BitVec.ofNat 32 ir.length :: BitVec.ofNat 32 B :: ir)) s = .next t ∧
      Responded s t .ok [] ∧ t.dl = s.dl ∧
      t.eng = some { irLength := ir.length, blockLength := B, conv := .fd f } ∧
      f.p = (ir.length + B - 1) / B ∧ f.r = max f.p 2 ∧ f.scale = fdiv 0x3F800000#32 (flInt (2 * B)) ∧
      (∀ p < f.p, ∀ k ≤ B,
        (let seg := (List.range (2 * B)).map fun n =>
          if n < B ∧ p * B + n < ir.length then ir.getD (p * B + n) 0#32 else 0#32
         f.hre.read (p * (B + 1) + k) = (deviceXfm.fwd B seg).re.getD k 0#32 ∧
         f.him.read (p * (B + 1) + k) = (deviceXfm.fwd B seg).im.getD k 0#32)) ∧
      (∀ a, f.staging.read a = 0#32) ∧ (∀ a, f.accum.read a = 0#32) ∧
      f.writeBlock = 0 ∧ f.nextBlock = 1 ∧ f.readBlock = (if 2 ≤ f.p then 1 else 0) ∧ f.writeIdx = 0

/-- `PROCESS` of one sample in TimeDomain mode (R192, R121): push, then the FIR sum in ascending `k` from `+0.0`, read from the
history after the push. Everything else stays. -/
def Obligations.ProcessTimeDomainSample : Prop :=
  ∀ (s : State) (L B : Nat) (td : TdState) (x : Word), s.Inv →
    s.eng = some { irLength := L, blockLength := B, conv := .td td } →
    ∃ t td' out, exec (.process 1#24 [x]) s = .next t ∧ Responded s t .ok [out] ∧ t.dl = s.dl ∧
      t.eng = some { irLength := L, blockLength := B, conv := .td td' } ∧
      td'.ir = td.ir ∧ td'.hist.n = L ∧ td'.hist.readIdx = 0 ∧
      td'.hist.writeIdx = (if td.hist.writeIdx + 1 = L then 0 else td.hist.writeIdx + 1) ∧
      (∀ a, td'.hist.storage.read a = if a = td.hist.writeIdx then x else td.hist.storage.read a) ∧
      out = (List.range L).foldl (fun acc k => fadd acc (fmul (td.ir.read k)
        (td'.hist.storage.read (wrap ((td'.hist.writeIdx : Int) - 1 - k) L)))) 0#32

/-- `PROCESS` of one sample in FreqDomain mode inside a block (R192, R134 to R136): the double write, the emitted accumulator
word, the advance; nothing else changes. -/
def Obligations.ProcessFreqDomainInsideBlock : Prop :=
  ∀ (s : State) (L B : Nat) (f : FdState) (x : Word), s.Inv →
    s.eng = some { irLength := L, blockLength := B, conv := .fd f } → f.writeIdx + 1 < B →
    ∃ t f', exec (.process 1#24 [x]) s = .next t ∧
      Responded s t .ok [f.accum.read (f.readBlock * B + f.writeIdx)] ∧ t.dl = s.dl ∧
      t.eng = some { irLength := L, blockLength := B, conv := .fd f' } ∧
      f' = { f with staging := f'.staging, writeIdx := f.writeIdx + 1 } ∧
      ∀ b i, i < 2 * B → f'.staging.read (b * (2 * B) + i) =
        if (b = f.writeBlock ∧ i = f.writeIdx + B) ∨ (b = f.nextBlock ∧ i = f.writeIdx) then x
        else f.staging.read (b * (2 * B) + i)

/-- `PROCESS` of the sample that completes a block (R192, R134 to R140): the double write and the emitted word as inside a block;
the drained accumulator cleared; each partition's product, scaled, inverse-transformed, and its back half added into
block `(writeBlock + j) mod R`; the cursors rotated; `writeIdx` 0. -/
def Obligations.ProcessFreqDomainBlockBoundary : Prop :=
  ∀ (s : State) (L B : Nat) (f : FdState) (x : Word), s.Inv →
    s.eng = some { irLength := L, blockLength := B, conv := .fd f } → f.writeIdx + 1 = B →
    ∃ t f', exec (.process 1#24 [x]) s = .next t ∧
      Responded s t .ok [f.accum.read (f.readBlock * B + f.writeIdx)] ∧ t.dl = s.dl ∧
      t.eng = some { irLength := L, blockLength := B, conv := .fd f' } ∧
      f' = { f with staging := f'.staging, accum := f'.accum, readBlock := f.writeBlock, writeBlock := f.nextBlock,
                    nextBlock := (f.nextBlock + 1) % f.r, writeIdx := 0 } ∧
      (∀ b i, i < 2 * B → f'.staging.read (b * (2 * B) + i) =
        if (b = f.writeBlock ∧ i = f.writeIdx + B) ∨ (b = f.nextBlock ∧ i = f.writeIdx) then x
        else f.staging.read (b * (2 * B) + i)) ∧
      (let frame := (List.range (2 * B)).map fun i => f'.staging.read (f.writeBlock * (2 * B) + i)
       let part := fun j => Spectrum.mk ((List.range (B + 1)).map fun k => f.hre.read (j * (B + 1) + k))
         ((List.range (B + 1)).map fun k => f.him.read (j * (B + 1) + k))
       let y := fun j => deviceXfm.inv B (cmul B (deviceXfm.fwd B frame) (part j) f.scale)
       let old := fun b n => if b = f.readBlock then 0#32 else f.accum.read (b * B + n)
       (∀ j < f.p, ∀ n < B, f'.accum.read ((f.writeBlock + j) % f.r * B + n) =
         fadd (old ((f.writeBlock + j) % f.r) n) ((y j).getD (B + n) 0#32)) ∧
       (∀ b, (∀ j < f.p, b ≠ (f.writeBlock + j) % f.r) → ∀ n < B, f'.accum.read (b * B + n) = old b n))

/-- `PROCESS` completes on an initialised engine for every input the header can count, in both modes, with one output word
per input word; no samples change nothing (R192, D25). -/
def Obligations.ProcessCompletes : Prop :=
  ∀ (s : State) (e : Engine) (xs : List Word), s.Inv → s.eng = some e → xs.length < 2 ^ 24 →
    ∃ t out e', exec (.process (BitVec.ofNat 24 xs.length) xs) s = .next t ∧ Responded s t .ok out ∧
      out.length = xs.length ∧ t.dl = s.dl ∧ t.eng = some e' ∧ e'.irLength = e.irLength ∧
      e'.blockLength = e.blockLength ∧ e'.mode = e.mode ∧ (xs = [] → e' = e)

/-- `FLUSH` completes on an initialised engine with `irLength - 1` words in TimeDomain mode and `blockLength + irLength - 1` in
FreqDomain mode, and does exactly what `PROCESS` of that many `+0.0` samples does wherever one `PROCESS` can count them
(R193, R73). -/
def Obligations.FlushIsProcessOfZeros : Prop :=
  ∀ (s : State) (e : Engine), s.Inv → s.eng = some e →
    (let m := match e.mode with
       | .timeDomain => e.irLength - 1
       | .freqDomain => e.blockLength + e.irLength - 1
     (∃ t out, exec (.flush []) s = .next t ∧ Responded s t .ok out ∧ out.length = m ∧ t.dl = s.dl ∧
       t.eng ≠ none ∧ (m = 0 → t.eng = s.eng)) ∧
     (m < 2 ^ 24 → exec (.flush []) s = exec (.process (BitVec.ofNat 24 m) (List.replicate m 0#32)) s))

/-- R194: `RESET` releases the convolver of an initialised engine and fails on an uninitialised one; it does not touch `DL`. -/
def Obligations.EngineResetReleases : Prop :=
  ∀ (s : State) (pl : List Word),
    decode ⟨0x04000000#32, pl⟩ = .ok (.reset pl) ∧
    (s.eng = none → exec (.reset pl) s = .next (s.failed .illegalCall)) ∧
    (s.eng ≠ none → pl ≠ [] → exec (.reset pl) s = .next (s.failed .invalidArg)) ∧
    (s.eng ≠ none → exec (.reset []) s = .next { s with eng := none, responses := s.responses ++ [⟨0#32, []⟩] })

/-! ### Statuses -/

/-- R212, the complete list: `ILLEGAL_CALL` is the answer exactly to `INIT` on an initialised engine and to `PROCESS`, `FLUSH`, `RESET`
on an uninitialised one, before any operand is looked at; no `DL` command raises it. -/
def Obligations.IllegalCallCauses : Prop :=
  ∀ (i : Instr) (s : State),
    (RespondsWith (exec i s) s .illegalCall ↔
      ((∃ mode pl, i = .init mode pl) ∧ s.eng ≠ none) ∨
      ((∃ count pl, i = .process count pl) ∨ (∃ pl, i = .flush pl) ∨ (∃ pl, i = .reset pl)) ∧ s.eng = none) ∧
    (RespondsWith (exec i s) s .illegalCall → exec i s = .next (s.failed .illegalCall))

/-- `INVALID_ARG` is the answer exactly to a header that matches no row and, where the engine state is right, to a payload count
that violates R69 or an operand value that R213 lists; nothing else changes (R213, R215). -/
def Obligations.InvalidArgCauses : Prop :=
  ∀ (p : Packet) (s : State),
    (RespondsWith (runPacket p s) s .invalidArg ↔
      (∃ e, decode p = .error e) ∨
      (∃ i, decode p = .ok i ∧ engineStateOk i s ∧ (i.wellFormed = false ∨ argumentsBad i s))) ∧
    (RespondsWith (runPacket p s) s .invalidArg → runPacket p s = .next (s.failed .invalidArg))

/-- `ALLOC_FAIL` is the answer exactly to a well-formed `INIT` with good operands on an uninitialised engine that asks for more
than the build holds; nothing else changes (R214, R215). -/
def Obligations.AllocFailCauses : Prop :=
  ∀ (i : Instr) (s : State),
    (RespondsWith (exec i s) s .allocFail ↔
      ∃ mode irLength blockLength ir, i = .init mode (irLength :: blockLength :: ir) ∧ s.eng = none ∧
        i.wellFormed = true ∧ ¬argumentsBad i s ∧
        beyondCapacity s.limits mode irLength.toNat blockLength.toNat) ∧
    (RespondsWith (exec i s) s .allocFail → exec i s = .next (s.failed .allocFail))

/-- R210: a packet that the device answers gets exactly one response, with one of the four codes; unless it is `OK`, the response
is the status word alone and no state of the device has changed. -/
def Obligations.FailedCommandChangesNothing : Prop :=
  ∀ (s t : State) (p : Packet) (rest : List HostInput), s.inputs = .packet p :: rest → step s = .next t →
    ∃ r : Response, t.responses = s.responses ++ [r] ∧ t.inputs = rest ∧ t.limits = s.limits ∧
      (r.status = 0#32 ∨ r.status = 1#32 ∨ r.status = 2#32 ∨ r.status = 3#32) ∧
      (r.status ≠ 0#32 → r.payload = [] ∧ t.dl = s.dl ∧ t.eng = s.eng)

/-- The number of payload words of every `OK` response (R64, column `m`). -/
def Obligations.OkResponseLengths : Prop :=
  ∀ (i : Instr) (s t : State) (payload : List Word), exec i s = .next t →
    t.responses = s.responses ++ [⟨0#32, payload⟩] →
    match i, s.eng with
    | .process count _, _ => payload.length = count.toNat
    | .flush _, some e =>
      payload.length = (match e.mode with
        | .timeDomain => e.irLength - 1
        | .freqDomain => e.blockLength + e.irLength - 1)
    | .dlGet _, _ => payload.length = 1
    | .dlGetAdv _, _ => payload.length = 1
    | .dlNum _, _ => payload.length = 1
    | _, _ => payload = []

/-! ### Whole-machine rules -/

/-- Within one device `DL` and the engine share no state (R29): an engine command does the same whatever `DL` holds and leaves it
alone, and a `DL` command does the same whatever the engine holds and leaves it alone. -/
def Obligations.DlAndEngineIndependent : Prop :=
  (∀ (i : Instr) (s : State) (d : Ring), engineCommand i = true →
    exec i (s.setDl d) = mapNext (fun t => t.setDl d) (exec i s)) ∧
  (∀ (i : Instr) (s : State) (e : Option Engine), engineCommand i = false →
    exec i (s.setEng e) = mapNext (fun t => t.setEng e) (exec i s))

/-- From `INIT` to the release of the convolver the mode, the lengths and the impulse response are fixed, and the sizes of the
device never change (R4, R14, R16, R18, R249). -/
def Obligations.ImpulseResponseFrozen : Prop :=
  ∀ s t : State, step s = .next t →
    t.limits = s.limits ∧ t.dl.n = s.dl.n ∧
    ∀ e e', s.eng = some e → t.eng = some e' →
      e'.irLength = e.irLength ∧ e'.blockLength = e.blockLength ∧
      match e.conv, e'.conv with
      | .td a, .td b => b.ir = a.ir ∧ b.hist.n = a.hist.n ∧ b.hist.readIdx = a.hist.readIdx
      | .fd a, .fd b => b.p = a.p ∧ b.r = a.r ∧ b.scale = a.scale ∧ b.hre = a.hre ∧ b.him = a.him
      | _, _ => False

/-- Among the commands, the flag `ENG.initialized` changes exactly at a successful `INIT`, which sets it, and a successful `RESET`,
which clears it. Hardware reset, which is no command, clears it too (R25): `HardResetGivesFreshDevice` says so. -/
def Obligations.OnlyInitAndResetToggleInitialized : Prop :=
  ∀ (i : Instr) (s t : State), exec i s = .next t →
    (t.initialized ≠ s.initialized ↔
      ((∃ mode pl, i = .init mode pl) ∨ (∃ pl, i = .reset pl)) ∧ RespondsWith (exec i s) s .ok) ∧
    ((∃ mode pl, i = .init mode pl) → RespondsWith (exec i s) s .ok → t.initialized = true) ∧
    ((∃ pl, i = .reset pl) → RespondsWith (exec i s) s .ok → t.initialized = false)

/-! ### The convolutions -/

/-- R251: two ways of cutting one input into `PROCESS` commands, of any number and any sizes, give the same concatenated outputs and
the same final state, bit for bit, and every command answers `OK`. -/
def Obligations.BlockSizeInvariance : Prop :=
  ∀ (s : State) (c d : List (List Word)), s.Inv → s.initialized = true →
    (∀ x ∈ c, x.length < 2 ^ 24) → (∀ x ∈ d, x.length < 2 ^ 24) → c.flatten = d.flatten →
    ∃ t u rc rd,
      core.run c.length (s.withPackets (c.map processPacket)) = .next t ∧
      core.run d.length (s.withPackets (d.map processPacket)) = .next u ∧
      t.eng = u.eng ∧ t.dl = u.dl ∧ t.limits = u.limits ∧ t.inputs = [] ∧ u.inputs = [] ∧
      t.responses = s.responses ++ rc ∧ rc.map (fun r => r.payload.length) = c.map List.length ∧
      u.responses = s.responses ++ rd ∧ rd.map (fun r => r.payload.length) = d.map List.length ∧
      (∀ r ∈ rc ++ rd, r.status = 0#32) ∧
      (rc.map fun r => r.payload).flatten = (rd.map fun r => r.payload).flatten

/-- From `INIT` on, the time-domain output is the direct-form FIR of the stream: output `i` is the sum from `+0.0` over ascending `k`
of `ir[k]` times input `i - k`, bit for bit, with no delay (R121, R122, R124). -/
def Obligations.TimeDomainIsDirectFir : Prop :=
  ∀ (s : State) (B : Nat) (ir xs : List Word), s.limits.Inv → s.eng = none → 1 ≤ ir.length →
    ir.length ≤ s.limits.irMax → 1 ≤ B → B < 2 ^ 31 → xs.length < 2 ^ 24 →
    ∃ t, core.run 2 (s.withPackets [initPacket 0#8 B ir, processPacket xs]) = .next t ∧
      t.responses = s.responses ++ [⟨0#32, []⟩, ⟨0#32, (List.range xs.length).map (firOutput ir xs)⟩]

/-- From `INIT` on, the first `blockLength` output samples in FreqDomain mode are `+0.0` bit for bit, whatever the input and the
impulse response (R143). -/
def Obligations.FreqDomainLatencyIsOneBlock : Prop :=
  ∀ (s : State) (B : Nat) (ir xs : List Word), s.limits.Inv → s.eng = none → 1 ≤ ir.length →
    ir.length ≤ s.limits.irMax → 1 ≤ B → B ≤ s.limits.bMax → (ir.length + B - 1) / B ≤ s.limits.pMax →
    xs.length < 2 ^ 24 →
    ∃ t out, core.run 2 (s.withPackets [initPacket 1#8 B ir, processPacket xs]) = .next t ∧
      t.responses = s.responses ++ [⟨0#32, []⟩, ⟨0#32, out⟩] ∧ out.length = xs.length ∧
      ∀ i, i < B → i < xs.length → out[i]? = some 0#32

/-- From `INIT` on, the frequency-domain output is the partitioned convolution of the stream, bit for bit, for the device's own
transform: word `n` of output block `m + 1` is the sum from `+0.0`, over `j` from `P-1` down to 0, of what partition `j` makes of
frame `m - j` (R134, R139, R145). -/
def Obligations.FreqDomainIsPartitionedConvolution : Prop :=
  ∀ (s : State) (B : Nat) (ir xs : List Word), s.limits.Inv → s.eng = none → 1 ≤ ir.length →
    ir.length ≤ s.limits.irMax → 1 ≤ B → B ≤ s.limits.bMax → (ir.length + B - 1) / B ≤ s.limits.pMax →
    xs.length < 2 ^ 24 →
    ∃ t, core.run 2 (s.withPackets [initPacket 1#8 B ir, processPacket xs]) = .next t ∧
      t.responses = s.responses ++
        [⟨0#32, []⟩, ⟨0#32, (List.range xs.length).map (partitionedOutput deviceXfm ir xs B)⟩]

/-- On integer data whose sums stay below `2^24` the time-domain output is the linear convolution itself, word for word (R124). -/
def Obligations.TimeDomainExactOnIntegers : Prop :=
  ∀ (ir xs : List Int) (a b : Nat), 1 ≤ ir.length → 1 ≤ a → 1 ≤ b → ir.length * (a * b) ≤ 2 ^ 24 →
    (∀ c ∈ ir, c.natAbs ≤ a) → (∀ x ∈ xs, x.natAbs ≤ b) →
    (tdProcess ir.length (tdConstruct (ir.map flInt) ir.length) (xs.map flInt)).2 =
      (List.range xs.length).map fun i => flInt (linearConvolution ir xs i)

/-- With block length 1 or 2, where `XP4` makes the transform exact, the frequency-domain output on integers of magnitude at most 8
is the linear convolution delayed by `blockLength` samples, word for word (R143, E2). -/
def Obligations.FreqDomainExactOnSmallIntegers : Prop :=
  ∀ (ir xs : List Int) (B : Nat), 1 ≤ ir.length → ir.length ≤ 2 ^ 18 → B = 1 ∨ B = 2 →
    (∀ c ∈ ir, c.natAbs ≤ 8) → (∀ x ∈ xs, x.natAbs ≤ 8) →
    (fdProcess deviceXfm B (fdConstruct deviceXfm (ir.map flInt) ir.length B) (xs.map flInt)).2 =
      (List.range xs.length).map fun i => if i < B then 0#32 else flInt (linearConvolution ir xs (i - B))

/-! ### Arithmetic, transform and complex multiply -/

/-- The four operations on finite values return the binary32 value nearest the exact result, ties to even, overflow to an
infinity of the right sign, subnormals kept (R161). -/
def Obligations.FloatOpsRoundToNearestEven : Prop :=
  ∀ a b : Word, isFiniteWord a → isFiniteWord b →
    NearestEven (wordValue a + wordValue b) (fadd a b) ∧
    NearestEven (wordValue a - wordValue b) (fsub a b) ∧
    NearestEven (wordValue a * wordValue b) (fmul a b) ∧
    (wordValue b ≠ 0 → NearestEven (wordValue a / wordValue b) (fdiv a b))

/-- An operation returns a NaN for a NaN operand and for the invalid operations `inf - inf`, `0 * inf`, `0 / 0`, `inf / inf`, as
R162 says, and for no others. That the other operations on an infinity or with a zero divisor (an infinity with a finite
operand, infinities that do not cancel, a finite non-zero value divided by zero) return no NaN is the model's, PRESUMED from
IEEE 754 (log 13). -/
def Obligations.NanExactlyWhenInvalid : Prop :=
  ∀ a b : Word,
    (let zero := fun w => isFiniteWord w ∧ wordValue w = 0
     (isNanWord (fadd a b) ↔
       isNanWord a ∨ isNanWord b ∨ (isInfWord a ∧ isInfWord b ∧ a.getLsbD 31 ≠ b.getLsbD 31)) ∧
     (isNanWord (fsub a b) ↔
       isNanWord a ∨ isNanWord b ∨ (isInfWord a ∧ isInfWord b ∧ a.getLsbD 31 = b.getLsbD 31)) ∧
     (isNanWord (fmul a b) ↔
       isNanWord a ∨ isNanWord b ∨ (isInfWord a ∧ zero b) ∨ (zero a ∧ isInfWord b)) ∧
     (isNanWord (fdiv a b) ↔
       isNanWord a ∨ isNanWord b ∨ (zero a ∧ zero b) ∨ (isInfWord a ∧ isInfWord b)))

/-- The signs of zero results (R161): a sum of zeros of opposite sign and the exact-zero sum or difference of finite values is
`+0.0`; a zero product or quotient takes the exclusive-or of the signs. -/
def Obligations.ZeroResultSigns : Prop :=
  ∀ a b : Word, isFiniteWord a → isFiniteWord b →
    (wordValue a + wordValue b = 0 → a.getLsbD 31 = false ∨ b.getLsbD 31 = false → fadd a b = 0#32) ∧
    fsub a a = 0#32 ∧
    (wordValue a * wordValue b = 0 →
      fmul a b = if a.getLsbD 31 = b.getLsbD 31 then 0#32 else 0x80000000#32) ∧
    (wordValue a = 0 → wordValue b ≠ 0 →
      fdiv a b = if a.getLsbD 31 = b.getLsbD 31 then 0#32 else 0x80000000#32)

/-- `FD.scale` is the binary32 value nearest `1 / (2*blockLength)`, exactly that when the block length is a power of two; `2*blockLength`
itself is exact (R172, R5). -/
def Obligations.ScaleIsNearestReciprocal : Prop :=
  ∀ B : Nat, 1 ≤ B → B ≤ 2 ^ 23 →
    wordValue (flInt (2 * B)) = 2 * B ∧ NearestEven (1 / (2 * B)) (fdScale B) ∧
    ∀ k, B = 2 ^ k → wordValue (fdScale B) = 1 / (2 * B)

/-- R171: every bin of `CMUL`, bins 0 and `B` included, is the scaled complex product in the order of operations written. -/
def Obligations.ComplexMultiplyBins : Prop :=
  ∀ (B : Nat) (x h : Spectrum) (sc : Word),
    (cmul B x h sc).re.length = B + 1 ∧ (cmul B x h sc).im.length = B + 1 ∧
    ∀ k ≤ B,
      (let xr := x.re.getD k 0#32
       let xi := x.im.getD k 0#32
       let hr := h.re.getD k 0#32
       let hi := h.im.getD k 0#32
       (cmul B x h sc).re.getD k 0#32 = fmul sc (fsub (fmul xr hr) (fmul xi hi)) ∧
       (cmul B x h sc).im.getD k 0#32 = fmul sc (fadd (fmul xr hi) (fmul xi hr)))

/-- The transform has the shape of R165 and maps zeros to zeros, `XP1` and `XP3` of R169. -/
def Obligations.TransformShapeAndZeros : Prop :=
  ∀ (B : Nat) (x : List Word) (sp : Spectrum),
    (deviceXfm.fwd B x).re.length = B + 1 ∧ (deviceXfm.fwd B x).im.length = B + 1 ∧
    (deviceXfm.inv B sp).length = 2 * B ∧
    ((∀ w ∈ x, isZeroBits w) →
      (∀ w ∈ (deviceXfm.fwd B x).re, isZeroBits w) ∧ ∀ w ∈ (deviceXfm.fwd B x).im, isZeroBits w) ∧
    ((∀ w ∈ sp.re, isZeroBits w) → (∀ w ∈ sp.im, isZeroBits w) → ∀ w ∈ deviceXfm.inv B sp, isZeroBits w)

/-- For transform sizes 2 and 4 and inputs on the grid of `XP4`, every output word of the device's transform has exactly the value
of the sums of R166 and R167 over the real numbers (`realFwdRe`, `realFwdIm`, `realInv`). -/
def Obligations.SmallTransformsAreExact : Prop :=
  ∀ (B : Nat) (x : List Word) (sp : Spectrum), B = 1 ∨ B = 2 →
    (x.length = 2 * B → (∀ w ∈ x, onGrid w) → ∀ k ≤ B,
      (deviceXfm.fwd B x).reals.re k = realFwdRe B (realSamples x) k ∧
      (deviceXfm.fwd B x).reals.im k = realFwdIm B (realSamples x) k) ∧
    (sp.re.length = B + 1 → sp.im.length = B + 1 → (∀ w ∈ sp.re, onGrid w) → (∀ w ∈ sp.im, onGrid w) →
      ∀ n < 2 * B, realSamples (deviceXfm.inv B sp) n = realInv B sp.reals n)

/-! ### Invariants -/

/-- The invariant holds right after reset, for every size R4 allows and for the sizes of `State.reset` (R12, R26, R240). -/
def Obligations.ResetHasInvariant : Prop :=
  (∀ (n : Nat) (l : Limits), 1 ≤ n → n < 2 ^ 31 → l.Inv → (State.resetWith n l).Inv) ∧ State.reset.Inv

/-- Every step keeps the invariant: ring cursors in range, arrays in canonical form and inside their ranges, the derived constants
and the cursor invariant of the frequency-domain convolver (R12, R14, R16 to R21). -/
def Obligations.StepKeepsInvariant : Prop :=
  ∀ s t : State, s.Inv → step s = .next t → t.Inv

/-- R55: no access fault exists: from a state with the invariant no step faults. -/
def Obligations.NoAccessFault : Prop :=
  ∀ s : State, s.Inv → s.Safe

/-- Every state a device can be in, whatever the host sends it, has the invariant and does not fault, for every size R4 allows
(R12, R55). -/
def Obligations.ReachableStatesAreSafe : Prop :=
  ∀ (n : Nat) (l : Limits) (s : State), 1 ≤ n → n < 2 ^ 31 → l.Inv → Reachable n l s → s.Inv ∧ s.Safe

/-- The corrected cursor invariant, R21: `nextBlock` is the block after `writeBlock` and another block; behind `writeBlock` the read
cursor is another block too, and is `nextBlock` exactly when there are two blocks; before the first boundary it is `nextBlock`
when `P >= 2` and block 0, with `writeBlock`, when `P = 1`. -/
def Obligations.FreqDomainCursorsSeparate : Prop :=
  ∀ (L B : Nat) (f : FdState), 1 ≤ L → 1 ≤ B → f.Inv L B →
    f.nextBlock = (f.writeBlock + 1) % f.r ∧ f.nextBlock ≠ f.writeBlock ∧
    (f.readBlock = wrap ((f.writeBlock : Int) - 1) f.r →
      f.readBlock ≠ f.writeBlock ∧ (f.readBlock = f.nextBlock ↔ f.r = 2)) ∧
    (f.beforeFirstBoundary →
      (2 ≤ f.p → f.readBlock = f.nextBlock) ∧ (f.p = 1 → f.readBlock = 0 ∧ f.writeBlock = 0))

/-- R23: under the invariant every integer scalar of the device fits an unsigned 32-bit register. -/
def Obligations.ScalarsFitRegisters : Prop :=
  ∀ s : State, s.Inv →
    s.dl.n < 2 ^ 32 ∧ s.dl.writeIdx < 2 ^ 32 ∧ s.dl.readIdx < 2 ^ 32 ∧
    ∀ e, s.eng = some e → e.irLength < 2 ^ 32 ∧ e.blockLength < 2 ^ 32 ∧
      match e.conv with
      | .td t => t.hist.n < 2 ^ 32 ∧ t.hist.writeIdx < 2 ^ 32 ∧ t.hist.readIdx < 2 ^ 32
      | .fd f => f.p < 2 ^ 32 ∧ f.r < 2 ^ 32 ∧ f.writeBlock < 2 ^ 32 ∧ f.nextBlock < 2 ^ 32 ∧
          f.readBlock < 2 ^ 32 ∧ f.writeIdx < 2 ^ 32

/-! ### The transform in exact arithmetic -/

/-- R168, in exact arithmetic and for every transform size `T = 2*B`: the round trip multiplies by `T`, and the inverse transform of
the product of two spectra is `T` times the circular convolution of the blocks. -/
def Obligations.TransformRoundTripAndConvolution : Prop :=
  ∀ B : Nat, 1 ≤ B → ∀ x h : ℕ → ℝ, ∀ n < 2 * B,
    realXfm.inv B (realXfm.fwd B x) n = (2 * B : ℕ) * x n ∧
    realXfm.inv B ((realXfm.fwd B x).mul (realXfm.fwd B h)) n = (2 * B : ℕ) * circularConvolution B x h n
end

