-- ==== Sys2Proof/Laws/Memory.lean ====
section
/-! SUPPORT. Arrays of words: what a read gives after a write, and that every operation keeps the canonical form and the
array's range. -/

namespace Sys2Proof.Machine

theorem Memory.wf_nil : Memory.wf [] := ⟨List.Pairwise.nil, by simp⟩

theorem Memory.below_nil (n : Nat) : Memory.below [] n := by simp

@[simp] theorem Memory.read_nil (a : Nat) : Memory.read [] a = 0#32 := rfl

theorem Memory.wf_tail {c : Nat × Word} {m : Memory} (h : Memory.wf (c :: m)) : Memory.wf m :=
  ⟨h.1.of_cons, fun x hx => h.2 x (List.mem_cons_of_mem _ hx)⟩

theorem Memory.head_lt {c : Nat × Word} {m : Memory} (h : Memory.wf (c :: m)) : ∀ x ∈ m, c.1 < x.1 :=
  (List.pairwise_cons.mp h.1).1

/-- An index below every listed one reads as an unlisted index. -/
theorem Memory.read_of_lt {m : Memory} {a : Nat} (h : ∀ x ∈ m, a < x.1) : m.read a = 0#32 := by
  induction m with
  | nil => rfl
  | cons c m ih =>
    have hc : a ≠ c.1 := Nat.ne_of_lt (h c (by simp))
    simp [Memory.read, hc, ih fun x hx => h x (by simp [hx])]

/-- A write adds no index but its own. -/
theorem Memory.mem_write {m : Memory} {a : Nat} {v : Word} {x : Nat × Word} (hx : x ∈ m.write a v) :
    x ∈ m ∨ (x = (a, v) ∧ v ≠ 0#32) := by
  induction m with
  | nil =>
    by_cases hv : v = 0#32 <;> simp_all [Memory.write, Memory.unlisted]
  | cons c m ih =>
    obtain ⟨b, w⟩ := c
    by_cases hv : v = 0#32 <;> by_cases hab : a < b <;> by_cases he : a = b <;>
      simp [Memory.write, Memory.unlisted, hv, hab, he] at hx ⊢ <;> grind

/-- Every memory operation keeps the canonical form: a write. -/
theorem Memory.wf_write {m : Memory} (h : m.wf) (a : Nat) (v : Word) : (m.write a v).wf := by
  induction m with
  | nil => by_cases hv : v = 0#32 <;> simp [Memory.write, Memory.unlisted, Memory.wf, hv]
  | cons c m ih =>
    obtain ⟨b, w⟩ := c
    have hm := ih (Memory.wf_tail h)
    have hb := Memory.head_lt h
    have hw : w ≠ 0#32 := h.2 (b, w) (by simp)
    refine ⟨?_, fun x hx => ?_⟩
    · by_cases hab : a < b
      · by_cases hv : v = 0#32
        · simpa [Memory.write, Memory.unlisted, hab, hv] using h.1
        · simp only [Memory.write, Memory.unlisted, hab, hv, if_true, if_false, List.pairwise_cons]
          refine ⟨fun x hx => ?_, hb, (Memory.wf_tail h).1⟩
          rcases List.mem_cons.mp hx with rfl | hx
          · exact hab
          · exact Nat.lt_trans hab (hb x hx)
      · by_cases he : a = b
        · by_cases hv : v = 0#32
          · simpa [Memory.write, Memory.unlisted, he, hv] using (Memory.wf_tail h).1
          · subst he
            simp only [Memory.write, Memory.unlisted, hv, lt_irrefl, if_true, if_false, List.pairwise_cons]
            exact ⟨hb, (Memory.wf_tail h).1⟩
        · simp only [Memory.write, hab, he, if_false, List.pairwise_cons]
          refine ⟨fun x hx => ?_, hm.1⟩
          rcases Memory.mem_write hx with hx | ⟨rfl, -⟩
          · exact hb x hx
          · exact Nat.lt_of_le_of_ne (Nat.le_of_not_lt hab) (Ne.symm he)
    · rcases Memory.mem_write hx with hx | ⟨rfl, hv⟩
      · exact h.2 x hx
      · exact hv

/-- Every memory operation keeps the array's range: a write inside it. -/
theorem Memory.below_write {m : Memory} {n : Nat} (h : m.below n) {a : Nat} (ha : a < n) (v : Word) :
    (m.write a v).below n := by
  intro x hx
  rcases Memory.mem_write hx with hx | ⟨rfl, -⟩
  · exact h x hx
  · exact ha

/-- A read after a write: the word written at its index, the old word everywhere else. -/
theorem Memory.read_write {m : Memory} (h : m.wf) (a : Nat) (v : Word) (c : Nat) :
    (m.write a v).read c = if c = a then v else m.read c := by
  induction m with
  | nil => by_cases hv : v = 0#32 <;> by_cases hc : c = a <;> simp [Memory.write, Memory.read, Memory.unlisted, hv, hc]
  | cons x m ih =>
    obtain ⟨b, w⟩ := x
    have ih := ih (Memory.wf_tail h)
    have hb := Memory.head_lt h
    by_cases hab : a < b
    · by_cases hv : v = 0#32
      · by_cases hc : c = a
        · subst hc
          have hlt : ∀ x ∈ (b, w) :: m, c < x.1 := fun x hx => by
            rcases List.mem_cons.mp hx with rfl | hx
            · exact hab
            · exact Nat.lt_trans hab (hb x hx)
          simp [Memory.write, Memory.unlisted, hab, hv, Memory.read_of_lt hlt]
        · simp [Memory.write, Memory.unlisted, hab, hv, hc]
      · simp [Memory.write, Memory.read, Memory.unlisted, hab, hv]
    · by_cases he : a = b
      · subst he
        by_cases hv : v = 0#32
        · by_cases hc : c = a
          · subst hc
            simp [Memory.write, Memory.unlisted, hv, Memory.read_of_lt hb]
          · simp [Memory.write, Memory.read, Memory.unlisted, hv, hc]
        · by_cases hc : c = a <;> simp [Memory.write, Memory.read, Memory.unlisted, hv, hc]
      · by_cases hcb : c = b
        · subst hcb
          simp [Memory.write, Memory.read, hab, he, Ne.symm he]
        · simp [Memory.write, Memory.read, hab, he, hcb, ih]

theorem Memory.wf_load {m : Memory} (h : m.wf) (base : Nat) (ws : List Word) : (m.load base ws).wf := by
  induction ws generalizing m base with
  | nil => exact h
  | cons w ws ih => exact ih (Memory.wf_write h base w) (base + 1)

theorem Memory.below_load {m : Memory} {n : Nat} (h : m.below n) {base : Nat} {ws : List Word}
    (hb : base + ws.length ≤ n) : (m.load base ws).below n := by
  induction ws generalizing m base with
  | nil => exact h
  | cons w ws ih =>
    have hlen : base + (ws.length + 1) ≤ n := by simpa using hb
    exact ih (Memory.below_write h (by omega) w) (by omega)

/-- A read after loading a list: the list's word inside it, the old word everywhere else. -/
theorem Memory.read_load {m : Memory} (h : m.wf) (base : Nat) (ws : List Word) (c : Nat) :
    (m.load base ws).read c =
      if base ≤ c ∧ c < base + ws.length then ws.getD (c - base) 0#32 else m.read c := by
  induction ws generalizing m base with
  | nil =>
    simp [Memory.load]
  | cons w ws ih =>
    rw [Memory.load, ih (Memory.wf_write h base w), Memory.read_write h]
    rcases Nat.lt_trichotomy c base with hlt | rfl | hgt
    · have h1 : ¬(base + 1 ≤ c) := by omega
      have h2 : ¬(base ≤ c) := by omega
      have h3 : c ≠ base := by omega
      simp [h1, h2, h3]
    · simp
    · have h1 : base + 1 ≤ c := by omega
      have h2 : base ≤ c := by omega
      have h3 : c ≠ base := by omega
      have h4 : c - base = (c - (base + 1)) + 1 := by omega
      have h5 : (c < base + 1 + ws.length) = (c < base + (ws.length + 1)) := by
        rw [Nat.add_assoc, Nat.add_comm 1]
      simp [h1, h2, h3, h4, h5]

@[simp] theorem Memory.slice_length (m : Memory) (base len : Nat) : (m.slice base len).length = len := by
  simp [Memory.slice]

theorem Memory.slice_getD (m : Memory) (base len i : Nat) :
    (m.slice base len).getD i 0#32 = if i < len then m.read (base + i) else 0#32 := by
  by_cases h : i < len <;> simp [Memory.slice, List.getD_eq_getElem?_getD, h]

/-- Two arrays in canonical form that read alike are the same data. -/
theorem Memory.ext_read {m k : Memory} (hm : m.wf) (hk : k.wf) (h : ∀ a, m.read a = k.read a) : m = k := by
  induction m generalizing k with
  | nil =>
    cases k with
    | nil => rfl
    | cons c k =>
      have := h c.1
      simp [Memory.read] at this
      exact absurd this.symm (hk.2 c (by simp))
  | cons c m ih =>
    cases k with
    | nil =>
      have := h c.1
      simp [Memory.read] at this
      exact absurd this (hm.2 c (by simp))
    | cons d k =>
      have hc := hm.2 c (by simp)
      have hd := hk.2 d (by simp)
      have hcm := Memory.head_lt hm
      have hdk := Memory.head_lt hk
      have key : c.1 = d.1 := by
        rcases Nat.lt_trichotomy c.1 d.1 with hlt | he | hgt
        · have hz : Memory.read (d :: k) c.1 = 0#32 := Memory.read_of_lt fun x hx => by
            rcases List.mem_cons.mp hx with rfl | hx
            · exact hlt
            · exact Nat.lt_trans hlt (hdk x hx)
          have h0 := (h c.1).trans hz
          simp [Memory.read] at h0
          exact absurd h0 hc
        · exact he
        · have hz : Memory.read (c :: m) d.1 = 0#32 := Memory.read_of_lt fun x hx => by
            rcases List.mem_cons.mp hx with rfl | hx
            · exact hgt
            · exact Nat.lt_trans hgt (hcm x hx)
          have h0 := (h d.1).symm.trans hz
          simp [Memory.read] at h0
          exact absurd h0 hd
      have hcd : c = d := by
        have h0 := h c.1
        simp only [Memory.read, key, if_true] at h0
        exact Prod.ext key h0
      subst hcd
      have htail : ∀ a, Memory.read m a = Memory.read k a := fun a => by
        by_cases ha : a = c.1
        · subst ha
          rw [Memory.read_of_lt hcm, Memory.read_of_lt hdk]
        · simpa [Memory.read, ha] using h a
      rw [ih (Memory.wf_tail hm) (Memory.wf_tail hk) htail]

/-! ### Integer helpers -/

/-- `a mod n` lies in `[0, n)`. -/
theorem wrap_lt (a : Int) {n : Nat} (h : 0 < n) : wrap a n < n := by
  have h1 := Int.emod_nonneg a (by omega : (n : Int) ≠ 0)
  have h2 := Int.emod_lt_of_pos a (by omega : (0 : Int) < n)
  unfold wrap
  omega

/-- `a mod n` of a natural number is the ordinary remainder. -/
@[simp] theorem wrap_natCast (a n : Nat) : wrap (a : Int) n = a % n := by
  unfold wrap
  rw [← Int.natCast_emod, Int.toNat_natCast]

theorem ceilDiv_pos {a b : Nat} (ha : 0 < a) (hb : 0 < b) : 0 < ceilDiv a b :=
  Nat.div_pos (by omega) hb

end Sys2Proof.Machine
end

