-- ==== Sys2Proof/Laws/State.lean ====
section
/-! SUPPORT. One lemma per field per update of State, true by `rfl`, and the fields of the reset state, so that no proof unfolds
a record update. -/

namespace Sys2Proof.Machine

@[simp] theorem setDl_limits (s : State) (r : Ring) : (s.setDl r).limits = s.limits := rfl
@[simp] theorem setDl_dl (s : State) (r : Ring) : (s.setDl r).dl = r := rfl
@[simp] theorem setDl_eng (s : State) (r : Ring) : (s.setDl r).eng = s.eng := rfl
@[simp] theorem setDl_inputs (s : State) (r : Ring) : (s.setDl r).inputs = s.inputs := rfl
@[simp] theorem setDl_responses (s : State) (r : Ring) : (s.setDl r).responses = s.responses := rfl

@[simp] theorem setEng_limits (s : State) (e : Option Engine) : (s.setEng e).limits = s.limits := rfl
@[simp] theorem setEng_dl (s : State) (e : Option Engine) : (s.setEng e).dl = s.dl := rfl
@[simp] theorem setEng_eng (s : State) (e : Option Engine) : (s.setEng e).eng = e := rfl
@[simp] theorem setEng_inputs (s : State) (e : Option Engine) : (s.setEng e).inputs = s.inputs := rfl
@[simp] theorem setEng_responses (s : State) (e : Option Engine) : (s.setEng e).responses = s.responses := rfl

@[simp] theorem setInputs_limits (s : State) (is : List HostInput) : (s.setInputs is).limits = s.limits := rfl
@[simp] theorem setInputs_dl (s : State) (is : List HostInput) : (s.setInputs is).dl = s.dl := rfl
@[simp] theorem setInputs_eng (s : State) (is : List HostInput) : (s.setInputs is).eng = s.eng := rfl
@[simp] theorem setInputs_inputs (s : State) (is : List HostInput) : (s.setInputs is).inputs = is := rfl
@[simp] theorem setInputs_responses (s : State) (is : List HostInput) : (s.setInputs is).responses = s.responses := rfl

@[simp] theorem pushResponse_limits (s : State) (r : Response) : (s.pushResponse r).limits = s.limits := rfl
@[simp] theorem pushResponse_dl (s : State) (r : Response) : (s.pushResponse r).dl = s.dl := rfl
@[simp] theorem pushResponse_eng (s : State) (r : Response) : (s.pushResponse r).eng = s.eng := rfl
@[simp] theorem pushResponse_inputs (s : State) (r : Response) : (s.pushResponse r).inputs = s.inputs := rfl
@[simp] theorem pushResponse_responses (s : State) (r : Response) :
    (s.pushResponse r).responses = s.responses ++ [r] := rfl

@[simp] theorem hardReset_limits (s : State) : (hardReset s).limits = s.limits := rfl
@[simp] theorem hardReset_dl (s : State) : (hardReset s).dl = Ring.fresh s.dl.n := rfl
@[simp] theorem hardReset_eng (s : State) : (hardReset s).eng = none := rfl
@[simp] theorem hardReset_inputs (s : State) : (hardReset s).inputs = s.inputs := rfl
@[simp] theorem hardReset_responses (s : State) : (hardReset s).responses = s.responses := rfl

@[simp] theorem resetWith_limits (n : Nat) (l : Limits) : (State.resetWith n l).limits = l := rfl
@[simp] theorem resetWith_dl (n : Nat) (l : Limits) : (State.resetWith n l).dl = Ring.fresh n := rfl
@[simp] theorem resetWith_eng (n : Nat) (l : Limits) : (State.resetWith n l).eng = none := rfl
@[simp] theorem resetWith_inputs (n : Nat) (l : Limits) : (State.resetWith n l).inputs = [] := rfl
@[simp] theorem resetWith_responses (n : Nat) (l : Limits) : (State.resetWith n l).responses = [] := rfl

@[simp] theorem fresh_n (n : Nat) : (Ring.fresh n).n = n := rfl
@[simp] theorem fresh_storage (n : Nat) : (Ring.fresh n).storage = [] := rfl
@[simp] theorem fresh_writeIdx (n : Nat) : (Ring.fresh n).writeIdx = 0 := rfl
@[simp] theorem fresh_readIdx (n : Nat) : (Ring.fresh n).readIdx = 0 := rfl

/-- The flag is set exactly when an engine is held (R14). -/
theorem initialized_iff (s : State) : s.initialized = true ↔ ∃ e, s.eng = some e := Option.isSome_iff_exists

theorem not_initialized_iff (s : State) : s.initialized = false ↔ s.eng = none := by
  cases h : s.eng <;> simp [State.initialized, h]

end Sys2Proof.Machine
end

