-- ==== Sys2Proof/Laws/Ops.lean ====
section
/-! SUPPORT. For each shared operation of the meanings, one lemma that says once everything it can do, so that a proof cites it
and does not unfold the operation. -/

namespace Sys2Proof.Machine

/-! ### Ending a command -/

@[simp] theorem statusWord_ok : Status.ok.word = 0#32 := by decide
@[simp] theorem statusWord_illegalCall : Status.illegalCall.word = 1#32 := by decide
@[simp] theorem statusWord_invalidArg : Status.invalidArg.word = 2#32 := by decide
@[simp] theorem statusWord_allocFail : Status.allocFail.word = 3#32 := by decide

/-- The four statuses have four status words (R211). -/
theorem statusWord_injective {a b : Status} (h : a.word = b.word) : a = b := by
  cases a <;> cases b <;> first | rfl | exact absurd h (by decide)

theorem respond_eq_next {payload : List Word} {s t : State} :
    respond payload s = .next t ↔ t = s.pushResponse ⟨0#32, payload⟩ := by
  simp [respond, eq_comm]

theorem raise_eq_next {st : Status} {s t : State} :
    raise st s = .next t ↔ t = s.pushResponse ⟨st.word, []⟩ := by
  simp [raise, eq_comm]

@[simp] theorem respond_ne_fault {payload : List Word} {s : State} {r : Fault} : respond payload s ≠ .fault r := by
  simp [respond]

@[simp] theorem raise_ne_fault {st : Status} {s : State} {r : Fault} : raise st s ≠ .fault r := by simp [raise]

@[simp] theorem respond_ne_refused {payload : List Word} {s : State} {r : Refusal} : respond payload s ≠ .refused r := by
  simp [respond]

@[simp] theorem raise_ne_refused {st : Status} {s : State} {r : Refusal} : raise st s ≠ .refused r := by simp [raise]

/-- A `DL` access: what the command does when the cursor is inside the storage, the fault otherwise. -/
theorem dlAccess_eq {s : State} {idx : Nat} {k : Host.Outcome State Fault Refusal} :
    (idx < s.dl.n ∧ dlAccess s idx k = k) ∨ (s.dl.n ≤ idx ∧ dlAccess s idx k = .fault .outsideArray) := by
  by_cases h : idx < s.dl.n
  · exact .inl ⟨h, by simp [dlAccess, h]⟩
  · exact .inr ⟨Nat.le_of_not_lt h, by simp [dlAccess, h]⟩

theorem dlAccess_eq_next {s t : State} {idx : Nat} {k : Host.Outcome State Fault Refusal} :
    dlAccess s idx k = .next t ↔ idx < s.dl.n ∧ k = .next t := by
  by_cases h : idx < s.dl.n <;> simp [dlAccess, h]

/-- `DL.GET` at an offset answers `INVALID_ARG` where `RB_get` fails, and the sample otherwise; it changes nothing else. -/
theorem dlGetAt_eq_next {offset : Word} {s t : State} :
    dlGetAt offset s = .next t ↔
      (s.dl.get offset = none ∧ t = s.pushResponse ⟨2#32, []⟩) ∨
      ∃ v, s.dl.get offset = some v ∧ 0 < s.dl.n ∧ t = s.pushResponse ⟨0#32, [v]⟩ := by
  cases h : s.dl.get offset <;> simp [dlGetAt, h, dlAccess_eq_next, respond_eq_next, raise_eq_next]

/-- A streaming command that completes keeps the convolver's new state and answers its output samples. -/
theorem finishStream_eq_next {s t : State} {r : Engine × List Word} :
    finishStream s r = .next t ↔ t = (s.setEng (some r.1)).pushResponse ⟨0#32, r.2⟩ :=
  respond_eq_next

/-! ### Hardware reset -/

/-- Hardware reset leaves a fresh `DL` ring of the same capacity and no engine; limits and channels stay (R240). -/
theorem hardReset_eq (s : State) : hardReset s = { s with dl := Ring.fresh s.dl.n, eng := none } := rfl

/-! ### The ring operations -/

theorem fresh_inv {n : Nat} (h1 : 1 ≤ n) (h2 : n < 2 ^ 31) : (Ring.fresh n).Inv :=
  ⟨h2, h1, h1, Memory.wf_nil, Memory.below_nil n⟩

/-- `RB_put` keeps the ring invariant (R12). -/
theorem Ring.put_inv {r : Ring} (h : r.Inv) (v : Word) : (r.put v).Inv :=
  ⟨h.1, h.2.1, h.2.2.1, Memory.wf_write h.2.2.2.1 _ _, Memory.below_write h.2.2.2.2 h.2.1 _⟩

/-- `RB_putAdvance` keeps the ring invariant (R12). -/
theorem Ring.putAdvance_inv {r : Ring} (h : r.Inv) (v : Word) : (r.putAdvance v).Inv :=
  ⟨h.1, Nat.mod_lt _ (Nat.zero_lt_of_lt h.2.1), h.2.2.1, Memory.wf_write h.2.2.2.1 _ _,
    Memory.below_write h.2.2.2.2 h.2.1 _⟩

/-- The cursor move of `RB_getAdvance` keeps the ring invariant (R12). -/
theorem Ring.advanceRead_inv {r : Ring} (h : r.Inv) : r.advanceRead.Inv :=
  ⟨h.1, h.2.1, Nat.mod_lt _ (Nat.zero_lt_of_lt h.2.1), h.2.2.2⟩

/-- `RB_setReadIdx` keeps the ring invariant (R12). -/
theorem Ring.setReadIdx_inv {r : Ring} (h : r.Inv) (i : Int) : (r.setReadIdx i).Inv :=
  ⟨h.1, h.2.1, wrap_lt i (Nat.zero_lt_of_lt h.2.1), h.2.2.2⟩

/-- `RB_setWriteIdx` keeps the ring invariant (R12). -/
theorem Ring.setWriteIdx_inv {r : Ring} (h : r.Inv) (i : Int) : (r.setWriteIdx i).Inv :=
  ⟨h.1, wrap_lt i (Nat.zero_lt_of_lt h.2.1), h.2.2.1, h.2.2.2⟩

/-- `RB_reset` keeps the ring invariant (R12). -/
theorem Ring.clear_inv {r : Ring} (h : r.Inv) : r.clear.Inv :=
  ⟨h.1, Nat.zero_lt_of_lt h.2.1, Nat.zero_lt_of_lt h.2.1, Memory.wf_nil, Memory.below_nil r.n⟩

/-! ### Streams -/

@[simp] theorem stream_nil {σ : Type} (f : σ → Word → σ × Word) (t : σ) : stream f t [] = (t, []) := rfl

theorem stream_cons {σ : Type} (f : σ → Word → σ × Word) (t : σ) (x : Word) (xs : List Word) :
    stream f t (x :: xs) = ((stream f (f t x).1 xs).1, (f t x).2 :: (stream f (f t x).1 xs).2) := rfl

/-- One output word per input word (R192). -/
@[simp] theorem stream_length {σ : Type} (f : σ → Word → σ × Word) (t : σ) (xs : List Word) :
    (stream f t xs).2.length = xs.length := by
  induction xs generalizing t with
  | nil => rfl
  | cons x xs ih => simp [stream_cons, ih]

/-- A property of the convolver that every sample keeps holds after any input. -/
theorem stream_invariant {σ : Type} {f : σ → Word → σ × Word} {P : σ → Prop} (h : ∀ t x, P t → P (f t x).1)
    {t : σ} (ht : P t) (xs : List Word) : P (stream f t xs).1 := by
  induction xs generalizing t with
  | nil => exact ht
  | cons x xs ih => exact ih (h t x ht)

/-! ### Transform and complex multiply: their shape -/

@[simp] theorem xfmForward_re_length (d : XfmDraw) (B : Nat) (x : List Word) : (xfmForward d B x).re.length = B + 1 := by
  simp [xfmForward]

@[simp] theorem xfmForward_im_length (d : XfmDraw) (B : Nat) (x : List Word) : (xfmForward d B x).im.length = B + 1 := by
  simp [xfmForward]

@[simp] theorem xfmInverse_length (d : XfmDraw) (B : Nat) (s : Spectrum) : (xfmInverse d B s).length = 2 * B := by
  simp [xfmInverse]

@[simp] theorem cmul_re_length (B : Nat) (x h : Spectrum) (s : Word) : (cmul B x h s).re.length = B + 1 := by
  simp [cmul]

@[simp] theorem cmul_im_length (B : Nat) (x h : Spectrum) (s : Word) : (cmul B x h s).im.length = B + 1 := by
  simp [cmul]

/-- The accumulation keeps the canonical form. -/
theorem accumulateInto_wf {m : Memory} (h : m.wf) (base B : Nat) (y : List Word) : (accumulateInto m base B y).wf := by
  unfold accumulateInto
  induction List.range B generalizing m with
  | nil => exact h
  | cons n ns ih => exact ih (Memory.wf_write h _ _)

/-! ### The step -/

/-- Everything one packet can do: the command of the row it selects, or `INVALID_ARG` when it selects none. -/
theorem runPacket_cases (p : Packet) (s : State) :
    (∃ i, decode p = .ok i ∧ runPacket p s = exec i s) ∨
    (∃ e, decode p = .error e ∧ runPacket p s = raise .invalidArg s) := by
  cases h : decode p with
  | ok i => exact .inl ⟨i, rfl, by simp [runPacket, h]⟩
  | error e => exact .inr ⟨e, rfl, by simp [runPacket, h]⟩

/-- Everything one step can do: wait, run the oldest packet, take a hardware reset, or refuse a reset inside a command. -/
theorem step_cases (s : State) :
    (s.inputs = [] ∧ step s = .next s) ∨
    (∃ p rest, s.inputs = .packet p :: rest ∧ step s = runPacket p (s.setInputs rest)) ∨
    (∃ rest, s.inputs = .hardReset :: rest ∧ step s = .next (hardReset (s.setInputs rest))) ∨
    (∃ p rest, s.inputs = .resetDuring p :: rest ∧ step s = .refused .resetDuringCommand) := by
  match h : s.inputs with
  | [] => exact .inl ⟨rfl, by simp [step, h]⟩
  | .packet p :: rest => exact .inr (.inl ⟨p, rest, rfl, by simp [step, h, runInput]⟩)
  | .hardReset :: rest => exact .inr (.inr (.inl ⟨rest, rfl, by simp [step, h, runInput]⟩))
  | .resetDuring p :: rest => exact .inr (.inr (.inr ⟨p, rest, rfl, by simp [step, h, runInput]⟩))

end Sys2Proof.Machine
end

