-- ==== Sys2Proof/Laws/PerInstr.lean ====
section
/-! SUPPORT. A statement about every command as syntax, made per constructor: the header a command is encoded with selects the
command's own row of the opcode map (`30_encoding.md` R63). -/

namespace Sys2Proof.Laws

/-- The row of a command (R63). -/
def rowOf : Instr → Opcode
  | .init _ _ => .init
  | .process _ _ => .process
  | .flush _ => .flush
  | .reset _ => .reset
  | .dlPut _ => .dlPut
  | .dlPutAdv _ => .dlPutAdv
  | .dlGet _ => .dlGet
  | .dlGetAdv _ => .dlGetAdv
  | .dlSetRd _ => .dlSetRd
  | .dlSetWr _ => .dlSetWr
  | .dlReset _ => .dlReset
  | .dlNum _ => .dlNum

/-- The encoded header has the opcode of the command's row: `H & mask = pattern` for it. -/
def HeaderSelectsRow.Statement (i : Instr) : Prop :=
  ∃ r ∈ opcodeRows, r.op = rowOf i ∧ r.selectedBy (encodeHeader i) = true

theorem initHeader_masked (mode : BitVec 8) : initHeader mode &&& 0xFFFFFF00#32 = 0x01000000#32 := by
  unfold initHeader
  ext i hi
  interval_cases i <;> simp

theorem processHeader_masked (count : BitVec 24) : processHeader count &&& 0xFF000000#32 = 0x02000000#32 := by
  unfold processHeader
  ext i hi
  interval_cases i <;> simp

theorem HeaderSelectsRow.init (mode : BitVec 8) (p : List Word) : HeaderSelectsRow.Statement (.init mode p) :=
  ⟨⟨.init, 0x01000000#32, 0xFFFFFF00#32⟩, by simp [opcodeRows], rfl, by
    simp [OpcodeRow.selectedBy, encodeHeader, initHeader_masked]⟩

theorem HeaderSelectsRow.process (count : BitVec 24) (p : List Word) : HeaderSelectsRow.Statement (.process count p) :=
  ⟨⟨.process, 0x02000000#32, 0xFF000000#32⟩, by simp [opcodeRows], rfl, by
    simp [OpcodeRow.selectedBy, encodeHeader, processHeader_masked]⟩

theorem HeaderSelectsRow.flush (p : List Word) : HeaderSelectsRow.Statement (.flush p) :=
  ⟨⟨.flush, 0x03000000#32, 0xFFFFFFFF#32⟩, by simp [opcodeRows], rfl, by
    simp only [OpcodeRow.selectedBy, encodeHeader]
    decide⟩

theorem HeaderSelectsRow.reset (p : List Word) : HeaderSelectsRow.Statement (.reset p) :=
  ⟨⟨.reset, 0x04000000#32, 0xFFFFFFFF#32⟩, by simp [opcodeRows], rfl, by
    simp only [OpcodeRow.selectedBy, encodeHeader]
    decide⟩

theorem HeaderSelectsRow.dlPut (p : List Word) : HeaderSelectsRow.Statement (.dlPut p) :=
  ⟨⟨.dlPut, 0x10000000#32, 0xFFFFFFFF#32⟩, by simp [opcodeRows], rfl, by
    simp only [OpcodeRow.selectedBy, encodeHeader]
    decide⟩

theorem HeaderSelectsRow.dlPutAdv (p : List Word) : HeaderSelectsRow.Statement (.dlPutAdv p) :=
  ⟨⟨.dlPutAdv, 0x11000000#32, 0xFFFFFFFF#32⟩, by simp [opcodeRows], rfl, by
    simp only [OpcodeRow.selectedBy, encodeHeader]
    decide⟩

theorem HeaderSelectsRow.dlGet (p : List Word) : HeaderSelectsRow.Statement (.dlGet p) :=
  ⟨⟨.dlGet, 0x12000000#32, 0xFFFFFFFF#32⟩, by simp [opcodeRows], rfl, by
    simp only [OpcodeRow.selectedBy, encodeHeader]
    decide⟩

theorem HeaderSelectsRow.dlGetAdv (p : List Word) : HeaderSelectsRow.Statement (.dlGetAdv p) :=
  ⟨⟨.dlGetAdv, 0x13000000#32, 0xFFFFFFFF#32⟩, by simp [opcodeRows], rfl, by
    simp only [OpcodeRow.selectedBy, encodeHeader]
    decide⟩

theorem HeaderSelectsRow.dlSetRd (p : List Word) : HeaderSelectsRow.Statement (.dlSetRd p) :=
  ⟨⟨.dlSetRd, 0x14000000#32, 0xFFFFFFFF#32⟩, by simp [opcodeRows], rfl, by
    simp only [OpcodeRow.selectedBy, encodeHeader]
    decide⟩

theorem HeaderSelectsRow.dlSetWr (p : List Word) : HeaderSelectsRow.Statement (.dlSetWr p) :=
  ⟨⟨.dlSetWr, 0x15000000#32, 0xFFFFFFFF#32⟩, by simp [opcodeRows], rfl, by
    simp only [OpcodeRow.selectedBy, encodeHeader]
    decide⟩

theorem HeaderSelectsRow.dlReset (p : List Word) : HeaderSelectsRow.Statement (.dlReset p) :=
  ⟨⟨.dlReset, 0x16000000#32, 0xFFFFFFFF#32⟩, by simp [opcodeRows], rfl, by
    simp only [OpcodeRow.selectedBy, encodeHeader]
    decide⟩

theorem HeaderSelectsRow.dlNum (p : List Word) : HeaderSelectsRow.Statement (.dlNum p) :=
  ⟨⟨.dlNum, 0x17000000#32, 0xFFFFFFFF#32⟩, by simp [opcodeRows], rfl, by
    simp only [OpcodeRow.selectedBy, encodeHeader]
    decide⟩

end Sys2Proof.Laws
end

