-- ==== Sys2Proof/Laws/RealTransform.lean ====
section
/-! SUPPORT. The transform in exact arithmetic: what R166 and R167 say of their sums beside the formulas (the exponential forms,
the bins that are zero or do not enter, the cases `T = 2` and `T = 4`), and how the contract of R169 follows from the
statements about the device's transform. -/

namespace Sys2Proof.Machine

/-! ### Angles -/

@[simp] theorem binAngle_zero_left (B n : ℕ) : binAngle B 0 n = 0 := by simp [binAngle]

@[simp] theorem binAngle_zero_right (B k : ℕ) : binAngle B k 0 = 0 := by simp [binAngle]

theorem binAngle_last {B : ℕ} (hB : 1 ≤ B) (n : ℕ) : binAngle B B n = n * Real.pi := by
  have : (B : ℝ) ≠ 0 := by positivity
  unfold binAngle
  field_simp

/-- The bins `k` and `T - k` turn in opposite directions. -/
theorem binAngle_reflect {B k : ℕ} (hB : 1 ≤ B) (hk : k ≤ 2 * B) (n : ℕ) :
    binAngle B (2 * B - k) n = n * (2 * Real.pi) - binAngle B k n := by
  have : (B : ℝ) ≠ 0 := by positivity
  unfold binAngle
  push_cast [Nat.cast_sub hk]
  field_simp

/-! ### The forward transform -/

@[simp] theorem realXfm_fwd_re (B : ℕ) (x : ℕ → ℝ) (k : ℕ) : (realXfm.fwd B x).re k = realFwdRe B x k := rfl
@[simp] theorem realXfm_fwd_im (B : ℕ) (x : ℕ → ℝ) (k : ℕ) : (realXfm.fwd B x).im k = realFwdIm B x k := rfl
@[simp] theorem realXfm_inv (B : ℕ) (s : RealSpectrum) (n : ℕ) : realXfm.inv B s n = realInv B s n := rfl

/-- R166: `im[0] = 0`. -/
@[simp] theorem realFwdIm_zero (B : ℕ) (x : ℕ → ℝ) : realFwdIm B x 0 = 0 := by simp [realFwdIm]

/-- R166: `im[B] = 0`. -/
theorem realFwdIm_last {B : ℕ} (hB : 1 ≤ B) (x : ℕ → ℝ) : realFwdIm B x B = 0 := by
  simp [realFwdIm, binAngle_last hB, Real.sin_nat_mul_pi]

/-- R166: `re[k] + i*im[k] = Σ x[n] * e^(-2*pi*i*k*n/T)`. -/
theorem realFwd_eq_exp (B : ℕ) (x : ℕ → ℝ) (k : ℕ) :
    (⟨realFwdRe B x k, realFwdIm B x k⟩ : ℂ) =
      ∑ n ∈ Finset.range (2 * B), (x n : ℂ) * Complex.exp (-(binAngle B k n : ℂ) * Complex.I) := by
  apply Complex.ext
  · simp [realFwdRe, Complex.exp_re, Complex.re_sum]
  · simp [realFwdIm, Complex.exp_im, Complex.im_sum]

/-! ### The inverse transform -/

/-- R167: the inverse reads the real parts of bins `0..B` and the imaginary parts of bins `1..B-1`; `im[0]` and `im[B]` do not
enter. -/
theorem realInv_congr {B : ℕ} {s t : RealSpectrum} (hre : ∀ k ≤ B, s.re k = t.re k)
    (him : ∀ k, 1 ≤ k → k < B → s.im k = t.im k) (n : ℕ) : realInv B s n = realInv B t n := by
  unfold realInv
  rw [hre 0 (Nat.zero_le B), hre B le_rfl]
  congr 2
  refine Finset.sum_congr rfl fun k hk => ?_
  obtain ⟨h1, h2⟩ := Finset.mem_Ico.mp hk
  rw [hre k h2.le, him k h1 h2]

/-- The real part of one term of the full sum of R167. -/
theorem bin_term_re (B : ℕ) (s : RealSpectrum) (k n : ℕ) (hk : k ≤ B) :
    (s.bin B k * Complex.exp ((binAngle B k n : ℂ) * Complex.I)).re =
      s.re k * Real.cos (binAngle B k n) - s.im k * Real.sin (binAngle B k n) := by
  simp [RealSpectrum.bin, hk, Complex.exp_re, Complex.exp_im]

/-- The term of bin `T - k` has the real part of the term of bin `k`: the two are conjugates. -/
theorem bin_term_reflect {B : ℕ} (s : RealSpectrum) {k : ℕ} (n : ℕ) (h1 : 1 ≤ k) (h2 : k < B) :
    (s.bin B (2 * B - k) * Complex.exp ((binAngle B (2 * B - k) n : ℂ) * Complex.I)).re =
      s.re k * Real.cos (binAngle B k n) - s.im k * Real.sin (binAngle B k n) := by
  have hge : ¬ 2 * B - k ≤ B := by omega
  have hback : 2 * B - (2 * B - k) = k := by omega
  rw [binAngle_reflect (by omega) (by omega)]
  simp only [RealSpectrum.bin, hge, if_false, hback, Complex.mul_re, Complex.exp_ofReal_mul_I_re,
    Complex.exp_ofReal_mul_I_im]
  rw [Real.cos_nat_mul_two_pi_sub, Real.sin_nat_mul_two_pi_sub]
  ring

/-- R167: the inverse is the real part of `Σ X[k] * e^(+2*pi*i*k*n/T)` over the `T` bins of the full spectrum. -/
theorem realInv_eq_exp {B : ℕ} (hB : 1 ≤ B) (s : RealSpectrum) (n : ℕ) :
    realInv B s n =
      (∑ k ∈ Finset.range (2 * B), s.bin B k * Complex.exp ((binAngle B k n : ℂ) * Complex.I)).re := by
  set f : ℕ → ℝ := fun k => (s.bin B k * Complex.exp ((binAngle B k n : ℂ) * Complex.I)).re with hf
  have hlow : ∀ k ∈ Finset.Ico 1 B, f k = s.re k * Real.cos (binAngle B k n) - s.im k * Real.sin (binAngle B k n) :=
    fun k hk => bin_term_re B s k n (Finset.mem_Ico.mp hk).2.le
  have hhigh : ∑ k ∈ Finset.Ico (B + 1) (2 * B), f k = ∑ k ∈ Finset.Ico 1 B, f k := by
    refine Finset.sum_nbij' (fun k => 2 * B - k) (fun k => 2 * B - k) ?_ ?_ ?_ ?_ ?_
    all_goals intro k hk; have := Finset.mem_Ico.mp hk
    · exact Finset.mem_Ico.mpr (by omega)
    · exact Finset.mem_Ico.mpr (by omega)
    · show 2 * B - (2 * B - k) = k; omega
    · show 2 * B - (2 * B - k) = k; omega
    · have hk' : 2 * B - (2 * B - k) = k := by omega
      have := bin_term_reflect (B := B) s (k := 2 * B - k) n (by omega) (by omega)
      rw [hk'] at this
      exact this.trans (bin_term_re B s (2 * B - k) n (by omega)).symm
  have hzero : f 0 = s.re 0 := by simpa [hf] using bin_term_re B s 0 n (Nat.zero_le B)
  have hlast : f B = (-1) ^ n * s.re B := by
    have := bin_term_re B s B n le_rfl
    rw [binAngle_last hB, Real.cos_nat_mul_pi, Real.sin_nat_mul_pi] at this
    simp only [hf]
    rw [binAngle_last hB, this]; ring
  have hsplit : ∑ k ∈ Finset.range (2 * B), f k =
      f 0 + ∑ k ∈ Finset.Ico 1 B, f k + (f B + ∑ k ∈ Finset.Ico (B + 1) (2 * B), f k) := by
    rw [Finset.range_eq_Ico, ← Finset.sum_Ico_consecutive f (Nat.zero_le B) (by omega : B ≤ 2 * B),
      Finset.sum_eq_sum_Ico_succ_bot (by omega : 0 < B), Finset.sum_eq_sum_Ico_succ_bot (by omega : B < 2 * B)]
  rw [Complex.re_sum]
  show realInv B s n = ∑ k ∈ Finset.range (2 * B), f k
  rw [hsplit, hhigh, hzero, hlast, Finset.sum_congr rfl hlow, realInv]
  ring

/-! ### The cases `T = 2` and `T = 4` -/

/-- The quarter turns of `T = 4`. -/
theorem binAngle_two (k n : ℕ) : binAngle 2 k n = (k * n : ℕ) * (Real.pi / 2) := by
  unfold binAngle; push_cast; ring

theorem binAngle_one (k n : ℕ) : binAngle 1 k n = (k * n : ℕ) * Real.pi := by
  unfold binAngle; push_cast; ring

theorem cos_three_quarter_turn : Real.cos (3 * (Real.pi / 2)) = 0 := by
  rw [show 3 * (Real.pi / 2) = Real.pi / 2 + Real.pi by ring, Real.cos_add_pi, Real.cos_pi_div_two, neg_zero]

theorem sin_three_quarter_turn : Real.sin (3 * (Real.pi / 2)) = -1 := by
  rw [show 3 * (Real.pi / 2) = Real.pi / 2 + Real.pi by ring, Real.sin_add_pi, Real.sin_pi_div_two]

theorem cos_half_turn : Real.cos (2 * (Real.pi / 2)) = -1 := by rw [mul_div_cancel₀ _ two_ne_zero, Real.cos_pi]

theorem sin_half_turn : Real.sin (2 * (Real.pi / 2)) = 0 := by rw [mul_div_cancel₀ _ two_ne_zero, Real.sin_pi]

theorem cos_full_turn_and_half : Real.cos (2 * 3 * (Real.pi / 2)) = -1 := by
  rw [show 2 * 3 * (Real.pi / 2) = Real.pi + 2 * Real.pi by ring, Real.cos_add_two_pi, Real.cos_pi]

theorem sin_full_turn_and_half : Real.sin (2 * 3 * (Real.pi / 2)) = 0 := by
  rw [show 2 * 3 * (Real.pi / 2) = Real.pi + 2 * Real.pi by ring, Real.sin_add_two_pi, Real.sin_pi]

theorem cos_full_turn : Real.cos (2 * 2 * (Real.pi / 2)) = 1 := by
  rw [show 2 * 2 * (Real.pi / 2) = 2 * Real.pi by ring, Real.cos_two_pi]

theorem sin_full_turn : Real.sin (2 * 2 * (Real.pi / 2)) = 0 := by
  rw [show 2 * 2 * (Real.pi / 2) = 2 * Real.pi by ring, Real.sin_two_pi]

/-- The integers of a list as real samples. -/
def intSamples (v : List Int) (n : ℕ) : ℝ := (v.getD n 0 : ℤ)

/-- R166 for `T = 2` and `T = 4`, real parts: the sums the device uses on the grid of `XP4` are those of R166. -/
theorem exactFwdRe_eq_real {B : ℕ} (hB : B = 1 ∨ B = 2) (v : List Int) {k : ℕ} (hk : k ≤ B) :
    (exactFwdRe B v k : ℝ) = realFwdRe B (intSamples v) k := by
  rcases hB with rfl | rfl <;> interval_cases k <;>
    simp [exactFwdRe, realFwdRe, intSamples, Finset.sum_range_succ, binAngle_one, binAngle_two, cos_half_turn,
      cos_three_quarter_turn, cos_full_turn, cos_full_turn_and_half] <;> ring

/-- R166 for `T = 2` and `T = 4`, imaginary parts. -/
theorem exactFwdIm_eq_real {B : ℕ} (hB : B = 1 ∨ B = 2) (v : List Int) {k : ℕ} (hk : k ≤ B) :
    (exactFwdIm B v k : ℝ) = realFwdIm B (intSamples v) k := by
  rcases hB with rfl | rfl <;> interval_cases k <;>
    simp [exactFwdIm, realFwdIm, intSamples, Finset.sum_range_succ, binAngle_one, binAngle_two, sin_half_turn,
      sin_three_quarter_turn, sin_full_turn, sin_full_turn_and_half]
  ring

/-- R167 for `T = 2` and `T = 4`. -/
theorem exactInv_eq_real {B : ℕ} (hB : B = 1 ∨ B = 2) (re im : List Int) {n : ℕ} (hn : n < 2 * B) :
    (exactInv B re im n : ℝ) = realInv B ⟨intSamples re, intSamples im⟩ n := by
  rcases hB with rfl | rfl <;> interval_cases n <;>
    simp [exactInv, realInv, intSamples, binAngle_one, binAngle_two, cos_half_turn, sin_half_turn,
      cos_three_quarter_turn, sin_three_quarter_turn] <;> ring

/-! ### The contract of R169 -/

/-- The device's transform, with the sums of R166 and R167 as its meaning, meets the whole contract of R169 once the two
statements about its words are proved: `XP2` holds by what the meaning is. -/
theorem deviceXfm_contract (hshape : Obligations.TransformShapeAndZeros) (hsmall : Obligations.SmallTransformsAreExact) :
    XfmContract deviceXfm realXfm where
  xp1 B x s := ⟨(hshape B x s).1, (hshape B x s).2.1, (hshape B x s).2.2.1⟩
  xp2 _ _ := ⟨fun _ _ _ => ⟨rfl, rfl⟩, fun _ _ _ => rfl⟩
  xp3 B x s := (hshape B x s).2.2.2
  xp4 := hsmall

end Sys2Proof.Machine
end

