-- ==== Sys2Proof/Tests/Slice0.lean ====
section
/-! SUPPORT. The model's own tests. Expected results are the spec's worked examples (`95_test_vectors.md`, named V-… and P1 to P5)
and words written out from the encoding tables of `30_encoding.md`; then one witness for the hypotheses of every
statement that has hypotheses. -/

namespace Sys2Proof.Tests

open Sys2Proof Sys2Proof.Machine

-- One theorem after another: a hundred small kernel evaluations at once take more threads than the check's memory allows.
set_option Elab.async false

/-! ### Decoding: one word of every row, written out from R63; V-ENC-1 to V-ENC-12 -/

/-- What a list of words decodes to. -/
def decoded (ws : List Word) : Option Instr := (decodeWords ws).toOption

/-- By which name a list of words is rejected. -/
def rejected (ws : List Word) : Option DecodeError :=
  match decodeWords ws with
  | .ok _ => none
  | .error e => some e

theorem test_decode_init : decoded [0x01000001#32, 3#32, 2#32] = some (.init 1#8 [3#32, 2#32]) := by decide +kernel
theorem test_decode_init_mode255 : decoded [0x010000FF#32] = some (.init 255#8 []) := by decide +kernel
theorem test_decode_process : decoded [0x02FFFFFE#32, 7#32] = some (.process 16777214#24 [7#32]) := by decide +kernel
theorem test_decode_flush : decoded [0x03000000#32] = some (.flush []) := by decide +kernel
theorem test_decode_reset : decoded [0x04000000#32] = some (.reset []) := by decide +kernel
theorem test_decode_dlPut : decoded [0x10000000#32, 7#32] = some (.dlPut [7#32]) := by decide +kernel
theorem test_decode_dlPutAdv : decoded [0x11000000#32, 7#32] = some (.dlPutAdv [7#32]) := by decide +kernel
theorem test_decode_dlGet : decoded [0x12000000#32] = some (.dlGet []) := by decide +kernel
theorem test_decode_dlGetAdv : decoded [0x13000000#32] = some (.dlGetAdv []) := by decide +kernel
theorem test_decode_dlSetRd : decoded [0x14000000#32, 7#32] = some (.dlSetRd [7#32]) := by decide +kernel
theorem test_decode_dlSetWr : decoded [0x15000000#32, 7#32] = some (.dlSetWr [7#32]) := by decide +kernel
theorem test_decode_dlReset : decoded [0x16000000#32] = some (.dlReset []) := by decide +kernel
theorem test_decode_dlNum : decoded [0x17000000#32] = some (.dlNum []) := by decide +kernel

theorem test_reject_reserved :
    [[0x01000100#32], [0x03000001#32], [0x12000001#32]].map rejected = List.replicate 3 (some .reservedBits) := by
  decide +kernel

theorem test_reject_unknown :
    [[0x00000000#32], [0x05000000#32], [0x0F000000#32], [0x18000000#32], [0xFF000000#32]].map rejected =
      List.replicate 5 (some .unknownOpcode) := by decide +kernel

theorem test_reject_empty : rejected [] = some .emptyPacket := by decide

theorem test_table_word_process : decodeTableWord 32 0x02000002 = some (.process 2#24 [0#32, 0#32]) := by decide +kernel
theorem test_table_word_init : decodeTableWord 32 0x01000000 = some (.init 0#8 [0#32, 0#32]) := by decide +kernel
theorem test_table_word_put : decodeTableWord 32 0x10000000 = some (.dlPut [0#32]) := by decide +kernel

/-! ### WellFormed: an ill-formed term for each check -/

theorem test_illFormed_init_short : (Instr.init 0#8 [3#32]).wellFormed = false := by decide
theorem test_illFormed_init_count : (Instr.init 0#8 [2#32, 1#32, 0#32]).wellFormed = false := by decide
theorem test_illFormed_process : (Instr.process 2#24 [0#32]).wellFormed = false := by decide
theorem test_illFormed_flush : (Instr.flush [0#32]).wellFormed = false := by decide
theorem test_illFormed_reset : (Instr.reset [0#32]).wellFormed = false := by decide
theorem test_illFormed_dlPut : (Instr.dlPut []).wellFormed = false := by decide
theorem test_illFormed_dlPutAdv : (Instr.dlPutAdv []).wellFormed = false := by decide
theorem test_illFormed_dlGet : (Instr.dlGet [0#32, 0#32]).wellFormed = false := by decide
theorem test_illFormed_dlGetAdv : (Instr.dlGetAdv [0#32]).wellFormed = false := by decide
theorem test_illFormed_dlSetRd : (Instr.dlSetRd []).wellFormed = false := by decide
theorem test_illFormed_dlSetWr : (Instr.dlSetWr []).wellFormed = false := by decide
theorem test_illFormed_dlReset : (Instr.dlReset [0#32]).wellFormed = false := by decide
theorem test_illFormed_dlNum : (Instr.dlNum [0#32]).wellFormed = false := by decide

/-! ### Binary32 (V-FP-1 to V-FP-11) and `CMUL` (V-CM-4) -/

theorem test_fadd_tie_to_even : fadd 0x4B800000#32 0x3F800000#32 = 0x4B800000#32 := by decide +kernel
theorem test_fmul_one_rounding : fmul 0x3DCCCCCD#32 0x3E99999A#32 = 0x3CF5C290#32 := by decide +kernel
theorem test_fdiv_one_sixth : fdiv 0x3F800000#32 0x40C00000#32 = 0x3E2AAAAB#32 := by decide +kernel
theorem test_fadd_opposite_zeros : fadd 0x00000000#32 0x80000000#32 = 0x00000000#32 := by decide +kernel
theorem test_fmul_zero_sign : fmul 0xBF800000#32 0x00000000#32 = 0x80000000#32 := by decide +kernel
theorem test_fmul_subnormal : fmul 0x00800000#32 0x3F000000#32 = 0x00400000#32 := by decide +kernel
theorem test_fmul_overflow : fmul 0x7F7FFFFF#32 0x40000000#32 = 0x7F800000#32 := by decide +kernel
theorem test_fsub_used_by_interpolation : fsub 0x3F800000#32 0x3E99999A#32 = 0x3F333333#32 := by decide +kernel

/-- V-FP-10: the invalid product is a NaN, whatever the draw. -/
theorem test_fmul_invalid_is_drawn : fmul 0x7F800000#32 0#32 = nanOf .mul 0x7F800000#32 0#32 := rfl

theorem test_cmul_bin :
    cmulBin 0x3DCCCCCD#32 0x3E4CCCCD#32 0x3E99999A#32 0x3DCCCCCD#32 0x3E2AAAAB#32 = (0x3ADA740E#32, 0x3C3F258C#32) := by
  decide +kernel

/-! ### DL commands (V-DL-…), on a ring of four words -/

/-- `[10, 20, 30, 0] / 3 / 0`, the state of the V-DL vectors. -/
def ring4 : Ring :=
  { n := 4, storage := [(0, 0x41200000#32), (1, 0x41A00000#32), (2, 0x41F00000#32)], writeIdx := 3, readIdx := 0 }

/-- A device with that ring, its engine uninitialised. -/
def dlState : State := { State.reset with dl := ring4 }

/-- The `DL` ring and the responses of the next state. -/
def dlAfter : Host.Outcome State Fault Refusal → Option (Ring × List Response)
  | .next t => some (t.dl, t.responses)
  | _ => none

/-- The responses of the next state. -/
def answered : Host.Outcome State Fault Refusal → Option (List Response)
  | .next t => some t.responses
  | _ => none

theorem test_dlPut : dlAfter (exec (.dlPut [0x40E00000#32]) State.reset) =
    some ({ n := 4, storage := [(0, 0x40E00000#32)], writeIdx := 0, readIdx := 0 }, [⟨0#32, []⟩]) := by decide +kernel

theorem test_dlPutAdv_wraps : dlAfter (exec (.dlPutAdv [0x42200000#32]) dlState) =
    some ({ ring4 with storage := ring4.storage ++ [(3, 0x42200000#32)], writeIdx := 0 }, [⟨0#32, []⟩]) := by decide +kernel

theorem test_dlGet_fractional : answered (exec (.dlGet [0x3FA00000#32]) dlState) = some [⟨0#32, [0x41B40000#32]⟩] := by
  decide +kernel

theorem test_dlGet_negative_rounds_to_one :
    answered (exec (.dlGet [0xB3000000#32]) dlState) = some [⟨2#32, []⟩] ∧
    answered (exec (.dlGet [0xB3000001#32]) dlState) = some [⟨0#32, [0x411FFFFF#32]⟩] := by decide +kernel

/-- V-DL-12: `(1-f)*a + f*b`, not `a + f*(b-a)`. -/
theorem test_interpolation_order :
    Ring.get { n := 2, storage := [(0, 0x3DCCCCCD#32), (1, 0x3E99999A#32)], writeIdx := 0, readIdx := 0 } 0x3E99999A#32 =
      some 0x3E23D70A#32 := by decide +kernel

theorem test_dlGetAdv : dlAfter (exec (.dlGetAdv []) dlState) =
    some ({ ring4 with readIdx := 1 }, [⟨0#32, [0x41200000#32]⟩]) := by decide +kernel

theorem test_dlSetRd_negative : dlAfter (exec (.dlSetRd [0xFFFFFFFF#32]) dlState) =
    some ({ ring4 with readIdx := 3 }, [⟨0#32, []⟩]) := by decide +kernel

theorem test_dlSetWr : dlAfter (exec (.dlSetWr [9#32]) dlState) =
    some ({ ring4 with writeIdx := 1 }, [⟨0#32, []⟩]) := by decide +kernel

theorem test_dlReset : dlAfter (exec (.dlReset []) dlState) =
    some ({ n := 4, storage := [], writeIdx := 0, readIdx := 0 }, [⟨0#32, []⟩]) := by decide +kernel

theorem test_dlNum : answered (exec (.dlNum []) dlState) = some [⟨0#32, [3#32]⟩] := by decide +kernel

/-! ### Engine commands (V-TD-…, V-FD-…, V-EN-…, P4) -/

/-- `INIT TD, 3, 1, [1, 2, 3]`, then the history `[1, 0, 0] / 2` (V-TD-1 after two samples). -/
def tdConv : TdState :=
  { ir := [(0, 0x3F800000#32), (1, 0x40000000#32), (2, 0x40400000#32)]
    hist := { n := 3, storage := [(0, 0x3F800000#32)], writeIdx := 2, readIdx := 0 } }

def tdState : State := { State.reset with eng := some { irLength := 3, blockLength := 1, conv := .td tdConv } }

/-- `INIT FD, 3, 2, [1, 2, 3]` after the first boundary of V-FD-1, at position `wi` of block 1. -/
def fdConv (wi : Nat) : FdState :=
  { p := 2, r := 2, scale := 0x3E800000#32
    hre := [(0, 0x40400000#32), (1, 0x3F800000#32), (2, 0xBF800000#32), (3, 0x40400000#32), (4, 0x40400000#32),
      (5, 0x40400000#32)]
    him := [(1, 0xC0000000#32)]
    staging := [(2, 0x3F800000#32), (3, 0x40000000#32), (4, 0x3F800000#32), (5, 0x40000000#32)]
    accum := [(0, 0x3F800000#32), (1, 0x40800000#32), (2, 0x40400000#32), (3, 0x40C00000#32)]
    writeBlock := 1, nextBlock := 0, readBlock := 0, writeIdx := wi }

def fdState (wi : Nat) : State :=
  { State.reset with eng := some { irLength := 3, blockLength := 2, conv := .fd (fdConv wi) } }

theorem test_process_td : answered (exec (.process 2#24 [0#32, 0x40000000#32]) tdState) =
    some [⟨0#32, [0x40400000#32, 0x40000000#32]⟩] := by decide +kernel

theorem test_flush_td : answered (exec (.flush []) tdState) = some [⟨0#32, [0x40400000#32, 0x00000000#32]⟩] := by
  decide +kernel

theorem test_reset_engine : answered (exec (.reset []) tdState) = some [⟨0#32, []⟩] ∧
    answered (exec (.reset []) State.reset) = some [⟨1#32, []⟩] := by decide +kernel

theorem test_init_capacity :
    answered (exec (.init 1#8 [3#32, 32#32, 0x3F800000#32, 0x40000000#32, 0x40400000#32]) State.reset) = some [⟨3#32, []⟩] ∧
    answered (exec (.init 1#8 [0xFFFFFFFF#32, 32#32]) State.reset) = some [⟨2#32, []⟩] := by decide +kernel

theorem test_init_twice : answered (exec (.init 0#8 [0#32, 1#32]) tdState) = some [⟨1#32, []⟩] := by decide +kernel

/-- A transform with every open bit zero: `XP1`, `XP3`, `XP4` hold of it. -/
def zeroDraw : XfmDraw := { fwdRe := fun _ _ _ => 0#32, fwdIm := fun _ _ _ => 0#32, inv := fun _ _ _ _ => 0#32 }

/-- V-FD-1: the outputs of `PROCESS [1, 2, 3, 4, 5]` after `INIT FD, 3, 2, [1, 2, 3]`. -/
theorem test_fd_stream :
    (fdProcess (xfmOf zeroDraw) 2 (fdConstruct (xfmOf zeroDraw) [0x3F800000#32, 0x40000000#32, 0x40400000#32] 3 2)
      [0x3F800000#32, 0x40000000#32, 0x40400000#32, 0x40800000#32, 0x40A00000#32]).2 =
      [0x00000000#32, 0x00000000#32, 0x3F800000#32, 0x40800000#32, 0x41200000#32] := by decide +kernel

/-- V-FD-4: with `blockLength = 1` every sample is a boundary; boundary a comes before boundary c. -/
theorem test_fd_block_of_one :
    (fdProcess (xfmOf zeroDraw) 1 (fdConstruct (xfmOf zeroDraw) [0x3F800000#32, 0x40000000#32, 0x40400000#32] 3 1)
      [0x3F800000#32, 0x3F800000#32, 0#32, 0#32, 0#32]).2 =
      [0x00000000#32, 0x3F800000#32, 0x40400000#32, 0x40A00000#32, 0x40400000#32] := by decide +kernel

/-- V-XF-2 and V-XF-6, whose only zeros have no specified sign. -/
theorem test_transform_exact :
    xfmForward zeroDraw 2 [0x3F800000#32, 0x40000000#32, 0x40400000#32, 0x40800000#32] =
      ⟨[0x41200000#32, 0xC0000000#32, 0xC0000000#32], [0#32, 0x40000000#32, 0#32]⟩ ∧
    xfmInverse zeroDraw 2 ⟨[0x41200000#32, 0xC0000000#32, 0xC0000000#32], [0#32, 0x40000000#32, 0#32]⟩ =
      [0x40800000#32, 0x41000000#32, 0x41400000#32, 0x41800000#32] := by decide +kernel

/-! ### The step -/

theorem test_step_consumes :
    answered (step { State.reset with inputs := [.packet ⟨0x05000000#32, []⟩] }) = some [⟨2#32, []⟩] := by decide +kernel

theorem test_fetch_word : answered (step (State.reset.withFetchWord 32 0x17000000)) = some [⟨0#32, [0#32]⟩] := by
  decide +kernel

/-! ### Witnesses: a state and operands that meet the hypotheses of each statement -/

/-- `State.reset` meets the invariant's parts that need no engine. -/
theorem limits_inv : State.reset.limits.Inv := by decide

theorem ring4_inv : ring4.Inv := by decide

/-- The same ring with its write cursor inside. -/
theorem ring4_inside_inv : ({ ring4 with writeIdx := 1 } : Ring).Inv ∧ 1 + 1 ≠ ring4.n := by decide

theorem dlState_inv : dlState.Inv := ⟨by decide, by decide, fun e h => by simp [dlState, State.reset, State.resetWith] at h⟩

theorem tdState_inv : tdState.Inv := by
  refine ⟨by decide, by decide, fun e h => ?_⟩
  obtain rfl : _ = e := Option.some.inj h
  exact ⟨by decide, by decide, by decide, by decide, (by decide : tdConv.Inv 3)⟩

/-- With the history cursor at the start of the ring, the other case of its wrap. -/
def tdStateAtZero : State :=
  { State.reset with eng := some { irLength := 3, blockLength := 1, conv := .td { tdConv with hist := { tdConv.hist with writeIdx := 0 } } } }

theorem tdStateAtZero_inv : tdStateAtZero.Inv := by
  refine ⟨by decide, by decide, fun e h => ?_⟩
  obtain rfl : _ = e := Option.some.inj h
  exact ⟨by decide, by decide, by decide, by decide,
    (by decide : ({ tdConv with hist := { tdConv.hist with writeIdx := 0 } } : TdState).Inv 3)⟩

theorem fdConv_inv : (fdConv 0).Inv 3 2 ∧ (fdConv 1).Inv 3 2 := by decide +kernel

theorem fdState_inv {wi : Nat} (h : (fdConv wi).Inv 3 2) : (fdState wi).Inv := by
  refine ⟨limits_inv, (by decide : State.reset.dl.Inv), fun e he => ?_⟩
  obtain rfl : _ = e := Option.some.inj he
  exact ⟨(by decide : 1 ≤ 3), (by decide : 3 ≤ 64), (by decide : 1 ≤ 2), (by decide : 2 < 2 ^ 31), (by decide : 2 ≤ 16),
    (by decide : 2 ≤ 8), h⟩

/-- `P = 1` before the first boundary (V-FD-3 right after `INIT`). -/
def fdFresh : FdState :=
  { p := 1, r := 2, scale := 0x3E800000#32, hre := [(0, 0x40400000#32)], him := [], staging := [], accum := [],
    writeBlock := 0, nextBlock := 1, readBlock := 0, writeIdx := 0 }

theorem witness_DecodeEncodeAgree : (Instr.init 255#8 [1#32, 0x7FFFFFFF#32, 5#32]).wellFormed = true ∧
    (Instr.process 0#24 []).wellFormed = true ∧ (Instr.dlGet []).wellFormed = true := by decide +kernel

theorem witness_EncodeDecodeAgree : decode ⟨0x02FFFFFF#32, []⟩ = .ok (.process 16777215#24 []) := by rfl

theorem witness_IllegalHeader_unknownOpcode :
    ({ State.reset with inputs := [.packet ⟨0x18000000#32, [1#32]⟩] } : State).inputs = .packet ⟨0x18000000#32, [1#32]⟩ :: [] ∧
    ¬(1 ≤ ((0x18000000#32).extractLsb' 24 8).toNat ∧ ((0x18000000#32).extractLsb' 24 8).toNat ≤ 4 ∨
      16 ≤ ((0x18000000#32).extractLsb' 24 8).toNat ∧ ((0x18000000#32).extractLsb' 24 8).toNat ≤ 23) := by decide

theorem witness_IllegalHeader_reservedInit :
    ((0x01000100#32).extractLsb' 24 8).toNat = 1 ∧ (0x01000100#32).extractLsb' 8 16 ≠ 0#16 := by decide

theorem witness_IllegalHeader_reservedImm24 :
    ((0x17000001#32).extractLsb' 24 8).toNat = 23 ∧ (0x17000001#32).extractLsb' 0 24 ≠ 0#24 := by decide

theorem witness_StepRunsDecodedPacket :
    (State.reset.withFetchWord 32 0x16000000).inputs = .packet ⟨0x16000000#32, []⟩ :: [] ∧
    decode ⟨0x16000000#32, []⟩ = .ok (.dlReset []) := ⟨by decide, rfl⟩

theorem witness_StepWaitsForTheHost : State.reset.inputs = [] := rfl

theorem witness_HardResetGivesFreshDevice :
    ({ tdState with inputs := [.hardReset] } : State).inputs = .hardReset :: [] := rfl

theorem witness_OnlyResetInsideCommandIsRefused :
    step { State.reset with inputs := [.resetDuring ⟨0x03000000#32, []⟩] } = .refused .resetDuringCommand := rfl

theorem witness_RingPutWritesAtCursor : ring4.Inv ∧ ring4.writeIdx = 3 := ⟨ring4_inv, rfl⟩

/-- Both cases of the wrap: the cursor at `N-1`, and inside. -/
theorem witness_RingPutAdvanceWraps : ring4.Inv ∧ ring4.writeIdx + 1 = ring4.n ∧ ({ ring4 with writeIdx := 1 } : Ring).Inv ∧
    1 + 1 ≠ ring4.n := ⟨ring4_inv, rfl, ring4_inside_inv.1, ring4_inside_inv.2⟩

theorem witness_RingCursorMoves : ring4.Inv ∧ ring4.readIdx + 1 ≠ ring4.n ∧ ({ ring4 with readIdx := 3 } : Ring).Inv ∧
    3 + 1 = ring4.n := ⟨ring4_inv, by decide, by decide, by decide⟩

theorem witness_FullRingLooksEmpty : ring4.Inv ∧ 1 ≤ 2 ∧ [1#32, 2#32].length = 2 := by decide

theorem witness_RingGetInterpolates_integer :
    1 ≤ ring4.n ∧ ring4.get 0xBF800000#32 = some 0#32 ∧ ring4.get 0x3F000000#32 = some 0x41700000#32 := by decide +kernel

theorem witness_DlPut : [7#32] = [7#32] ∧ dlState.dl.Inv ∧ ([] : List Word).length ≠ 1 := ⟨rfl, ring4_inv, by decide⟩

theorem witness_DlPutAdv : [7#32] = [7#32] ∧ dlState.dl.Inv ∧ [7#32, 8#32].length ≠ 1 := ⟨rfl, ring4_inv, by decide⟩

theorem witness_DlGetReads_fails : dlState.dl.Inv ∧ [0x80000001#32].length ≤ 1 ∧
    dlState.dl.get ([0x80000001#32].getD 0 0#32) = none := ⟨ring4_inv, by decide, by decide +kernel⟩

theorem witness_DlGetReads_answers : dlState.dl.Inv ∧ [0xB3000001#32].length ≤ 1 ∧ 1 < [0#32, 0#32].length ∧
    dlState.dl.get ([0xB3000001#32].getD 0 0#32) = some 0x411FFFFF#32 := ⟨ring4_inv, by decide, by decide, by decide +kernel⟩

/-- Both cursor limits: the greatest and the least i32 operand, and a packet with no operand. -/
theorem witness_DlSetCursor : dlState.dl.Inv ∧ [0x7FFFFFFF#32] = [0x7FFFFFFF#32] ∧ [0x80000000#32] = [0x80000000#32] ∧
    ([] : List Word).length ≠ 1 := ⟨ring4_inv, rfl, rfl, by decide⟩

theorem witness_DlNoOperand : dlState.dl.Inv ∧ [0#32] ≠ [] := ⟨ring4_inv, by decide⟩

theorem witness_InitBuildsTimeDomain : State.reset.limits.Inv ∧ State.reset.eng = none ∧ 1 ≤ [0x3F800000#32].length ∧
    [0x3F800000#32].length ≤ State.reset.limits.irMax ∧ 1 ≤ 2147483647 ∧ 2147483647 < 2 ^ 31 := by
  exact ⟨limits_inv, rfl, by decide, by decide, by decide, by decide⟩

theorem witness_InitBuildsFreqDomain : State.reset.limits.Inv ∧ State.reset.eng = none ∧
    (List.replicate 8 0x3F800000#32).length ≤ State.reset.limits.irMax ∧ 1 ≤ (List.replicate 8 0x3F800000#32).length ∧
    1 ≤ 1 ∧ 1 ≤ State.reset.limits.bMax ∧ ((List.replicate 8 0x3F800000#32).length + 1 - 1) / 1 ≤ State.reset.limits.pMax := by
  exact ⟨limits_inv, rfl, by decide, by decide, by decide, by decide, by decide⟩

theorem witness_ProcessTimeDomainSample_wraps : tdState.Inv ∧
    tdState.eng = some { irLength := 3, blockLength := 1, conv := .td tdConv } ∧ tdConv.hist.writeIdx + 1 = 3 :=
  ⟨tdState_inv, rfl, rfl⟩

theorem witness_ProcessTimeDomainSample_advances : tdStateAtZero.Inv ∧ (tdStateAtZero.eng.isSome = true) ∧ 0 + 1 ≠ 3 :=
  ⟨tdStateAtZero_inv, rfl, by decide⟩

theorem witness_ProcessFreqDomainInsideBlock : (fdState 0).Inv ∧
    (fdState 0).eng = some { irLength := 3, blockLength := 2, conv := .fd (fdConv 0) } ∧ (fdConv 0).writeIdx + 1 < 2 :=
  ⟨fdState_inv fdConv_inv.1, rfl, by decide⟩

theorem witness_ProcessFreqDomainBlockBoundary : (fdState 1).Inv ∧
    (fdState 1).eng = some { irLength := 3, blockLength := 2, conv := .fd (fdConv 1) } ∧ (fdConv 1).writeIdx + 1 = 2 ∧
    0 < (fdConv 1).p := ⟨fdState_inv fdConv_inv.2, rfl, rfl, by decide⟩

theorem witness_ProcessCompletes : tdState.Inv ∧ (fdState 1).Inv ∧ tdState.eng ≠ none ∧ (fdState 1).eng ≠ none ∧
    ([] : List Word).length < 2 ^ 24 ∧ [1#32].length < 2 ^ 24 :=
  ⟨tdState_inv, fdState_inv fdConv_inv.2, by decide, by simp [fdState], by decide, by decide⟩

theorem witness_FlushIsProcessOfZeros : tdState.Inv ∧ (fdState 1).Inv ∧
    tdState.eng = some { irLength := 3, blockLength := 1, conv := .td tdConv } ∧
    (fdState 1).eng = some { irLength := 3, blockLength := 2, conv := .fd (fdConv 1) } ∧ 3 - 1 < 2 ^ 24 ∧ 2 + 3 - 1 < 2 ^ 24 :=
  ⟨tdState_inv, fdState_inv fdConv_inv.2, rfl, rfl, by decide, by decide⟩

theorem witness_EngineResetReleases : State.reset.eng = none ∧ tdState.eng ≠ none ∧ [0#32] ≠ [] := ⟨rfl, by decide, by decide⟩

theorem witness_IllegalCallCauses : RespondsWith (exec (.flush []) State.reset) State.reset .illegalCall :=
  ⟨_, [], rfl, rfl⟩

theorem witness_InvalidArgCauses : RespondsWith (runPacket ⟨0x05000000#32, []⟩ State.reset) State.reset .invalidArg :=
  ⟨_, [], rfl, rfl⟩

theorem witness_AllocFailCauses :
    RespondsWith (exec (.init 1#8 [1#32, 17#32, 0#32]) State.reset) State.reset .allocFail := ⟨_, [], rfl, rfl⟩

theorem witness_FailedCommandChangesNothing :
    step { State.reset with inputs := [.packet ⟨0x05000000#32, []⟩] } = .next (State.reset.failed .invalidArg) := rfl

theorem witness_OkResponseLengths : exec (.dlNum []) State.reset =
    .next (State.reset.pushResponse ⟨0#32, [u32 State.reset.dl.valuesInBuffer]⟩) := rfl

theorem witness_DlAndEngineIndependent : engineCommand (.flush []) = true ∧ engineCommand (.dlNum []) = false := ⟨rfl, rfl⟩

theorem witness_ImpulseResponseFrozen : step tdState = .next tdState ∧
    tdState.eng = some { irLength := 3, blockLength := 1, conv := .td tdConv } := ⟨rfl, rfl⟩

theorem witness_OnlyInitAndResetToggleInitialized : ∃ t, exec (.reset []) tdState = .next t ∧
    RespondsWith (exec (.reset []) tdState) tdState .ok := ⟨_, rfl, _, [], rfl, rfl⟩

/-- Two cuttings of one input, one of them with an empty command. -/
theorem witness_BlockSizeInvariance : (fdState 1).Inv ∧ (fdState 1).initialized = true ∧
    (∀ x ∈ [[1#32, 2#32, 3#32], [], [4#32]], x.length < 2 ^ 24) ∧ (∀ x ∈ [[1#32, 2#32, 3#32, 4#32]], x.length < 2 ^ 24) ∧
    [[1#32, 2#32, 3#32], [], [4#32]].flatten = [[1#32, 2#32, 3#32, 4#32]].flatten :=
  ⟨fdState_inv fdConv_inv.2, rfl, by decide, by decide, rfl⟩

theorem witness_Streams : State.reset.limits.Inv ∧ State.reset.eng = none ∧ 1 ≤ [1#32, 2#32, 3#32].length ∧
    [1#32, 2#32, 3#32].length ≤ State.reset.limits.irMax ∧ 1 ≤ 2 ∧ 2 ≤ State.reset.limits.bMax ∧
    ([1#32, 2#32, 3#32].length + 2 - 1) / 2 ≤ State.reset.limits.pMax ∧ [5#32].length < 2 ^ 24 ∧ 2 < 2 ^ 31 :=
  ⟨limits_inv, rfl, by decide, by decide, by decide, by decide, by decide, by decide, by decide⟩

theorem witness_TimeDomainExactOnIntegers : 1 ≤ [(1 : Int), -2].length ∧ [(1 : Int), -2].length * (2 * 3) ≤ 2 ^ 24 ∧
    (∀ c ∈ [(1 : Int), -2], c.natAbs ≤ 2) ∧ ∀ x ∈ [(3 : Int), 0], x.natAbs ≤ 3 := by decide

theorem witness_FreqDomainExactOnSmallIntegers : 1 ≤ [(8 : Int), -8].length ∧ [(8 : Int), -8].length ≤ 2 ^ 18 ∧
    ((2 : Nat) = 1 ∨ (2 : Nat) = 2) ∧ (∀ c ∈ [(8 : Int), -8], c.natAbs ≤ 8) ∧ ∀ x ∈ [(-8 : Int), 0], x.natAbs ≤ 8 := by decide

theorem witness_FloatOps : isFiniteWord 0x7F7FFFFF#32 ∧ isFiniteWord 0x80000001#32 := by
  unfold isFiniteWord
  decide +kernel

theorem wordValue_one : wordValue 0x3F800000#32 = 1 := by
  have he : exponentField 0x3F800000#32 = 127 := by decide
  have hf : fractionField 0x3F800000#32 = 0 := by decide
  have hs : (0x3F800000#32).getLsbD 31 = false := by decide
  simp only [wordValue, he, hf, hs]
  norm_num

theorem witness_FloatOps_divisor : wordValue 0x3F800000#32 ≠ 0 := by simp [wordValue_one]

theorem wordValue_zero : wordValue 0#32 = 0 := by
  have he : exponentField 0#32 = 0 := by decide
  have hf : fractionField 0#32 = 0 := by decide
  simp [wordValue, he, hf]

theorem witness_ZeroResultSigns : isFiniteWord 0#32 ∧ wordValue 0#32 + wordValue 0#32 = 0 ∧ (0#32).getLsbD 31 = false ∧
    wordValue 0#32 * wordValue 0x3F800000#32 = 0 ∧ wordValue 0#32 = 0 ∧ wordValue 0x3F800000#32 ≠ 0 := by
  refine ⟨by unfold isFiniteWord; decide, ?_, by decide, ?_, wordValue_zero, witness_FloatOps_divisor⟩ <;> simp [wordValue_zero]

theorem witness_ScaleIsNearestReciprocal : 1 ≤ 2 ^ 23 ∧ 2 ^ 23 ≤ 2 ^ 23 := by norm_num

theorem onGrid_one : onGrid 0x3F800000#32 :=
  ⟨by unfold isFiniteWord; decide, 256, by decide, by rw [wordValue_one]; norm_num⟩

theorem witness_TransformShapeAndZeros : ∀ w ∈ [0#32, 0x80000000#32], isZeroBits w := by simp [isZeroBits]

/-- The last sample of the smallest transform and of one whose size is no power of two. -/
theorem witness_TransformRoundTripAndConvolution : (1 ≤ 1 ∧ 1 < 2 * 1) ∧ 1 ≤ 3 ∧ 5 < 2 * 3 := by decide

theorem witness_SmallTransformsAreExact_inverse : (⟨[0x3F800000#32, 0x3F800000#32], [0x3F800000#32, 0x3F800000#32]⟩ : Spectrum).re.length = 1 + 1 ∧
    ∀ w ∈ [0x3F800000#32, 0x3F800000#32], onGrid w :=
  ⟨by decide, fun w hw => by
    have : w = 0x3F800000#32 := by simpa using hw
    exact this ▸ onGrid_one⟩

theorem witness_SmallTransformsAreExact :
    ((1 : Nat) = 1 ∨ (1 : Nat) = 2) ∧ [0x3F800000#32, 0x3F800000#32].length = 2 * 1 ∧
    (∀ w ∈ [0x3F800000#32, 0x3F800000#32], onGrid w) :=
  ⟨by decide, by decide, fun w hw => by
    have : w = 0x3F800000#32 := by simpa using hw
    exact this ▸ onGrid_one⟩

theorem witness_ResetHasInvariant : 1 ≤ 1 ∧ 1 < 2 ^ 31 ∧ ({ irMax := 1, bMax := 2 ^ 23, pMax := 1 } : Limits).Inv := by decide

theorem witness_StepKeepsInvariant : (fdState 1).Inv ∧ step (fdState 1) = .next (fdState 1) :=
  ⟨fdState_inv fdConv_inv.2, rfl⟩

theorem witness_ReachableStatesAreSafe :
    Reachable 4 State.reset.limits (State.resetWith 4 State.reset.limits) ∧ State.reset.limits.Inv := ⟨.reset, limits_inv⟩

theorem witness_NoAccessFault : (fdState 1).Inv ∧ tdState.Inv := ⟨fdState_inv fdConv_inv.2, tdState_inv⟩

theorem witness_ScalarsFitRegisters : (fdState 1).Inv ∧
    (fdState 1).eng = some { irLength := 3, blockLength := 2, conv := .fd (fdConv 1) } := ⟨fdState_inv fdConv_inv.2, rfl⟩

theorem witness_FreqDomainCursorsSeparate_behind : (fdConv 1).Inv 3 2 ∧
    (fdConv 1).readBlock = wrap (((fdConv 1).writeBlock : Int) - 1) (fdConv 1).r := ⟨fdConv_inv.2, by decide⟩

theorem fdFresh_inv : fdFresh.Inv 2 2 := by decide +kernel

theorem witness_FreqDomainCursorsSeparate_one : fdFresh.beforeFirstBoundary ∧ fdFresh.p = 1 := by decide

/-- `P = 2` before the first boundary. -/
theorem witness_FreqDomainCursorsSeparate_two :
    ({ fdFresh with p := 2, readBlock := 1 } : FdState).beforeFirstBoundary ∧
    ({ fdFresh with p := 2, readBlock := 1 } : FdState).Inv 4 2 := by decide +kernel

end Sys2Proof.Tests
end

section
/-! SUPPORT and the statements of the encoding. The opcode map of R63 seen row by row: which header bits a selected row
fixes, that no header selects two rows, and so what `decode` answers. -/

namespace Sys2Proof.Encoding

open Sys2Proof Sys2Proof.Machine Sys2Proof.Laws

/-! ### The rows of the opcode map -/

theorem selectedBy_iff (r : OpcodeRow) (h : Word) : r.selectedBy h = true ↔ h &&& r.mask = r.pattern := by
  simp [OpcodeRow.selectedBy]

/-- Two rows whose patterns agree on the bits that both masks fix are the same row. -/
theorem rows_eq_of_patterns_agree : ∀ r ∈ opcodeRows, ∀ q ∈ opcodeRows,
    r.pattern &&& q.mask = q.pattern &&& r.mask → r = q := by decide

/-- The rows are disjoint (R63). -/
theorem row_unique {r q : OpcodeRow} {h : Word} (hr : r ∈ opcodeRows) (hq : q ∈ opcodeRows)
    (hrs : r.selectedBy h = true) (hqs : q.selectedBy h = true) : r = q := by
  rw [selectedBy_iff] at hrs hqs
  refine rows_eq_of_patterns_agree r hr q hq ?_
  rw [← hrs, ← hqs, BitVec.and_assoc, BitVec.and_assoc, BitVec.and_comm r.mask]

/-- The twelve rows have twelve names. -/
theorem row_eq_of_op_eq : ∀ r ∈ opcodeRows, ∀ q ∈ opcodeRows, r.op = q.op → r = q := by decide

/-- A header field that the mask of a selected row covers is that field of the row's pattern. -/
theorem field_of_selectedBy {r : OpcodeRow} {h : Word} (hs : r.selectedBy h = true) {start len : Nat}
    (hmask : r.mask.extractLsb' start len = BitVec.allOnes len) :
    h.extractLsb' start len = r.pattern.extractLsb' start len := by
  rw [← (selectedBy_iff r h).mp hs, BitVec.extractLsb'_and, hmask, BitVec.and_allOnes]

/-! ### Looking a header up -/

theorem find?_selects {h : Word} {r : OpcodeRow} (hfind : opcodeRows.find? (fun q => q.selectedBy h) = some r) :
    r.selectedBy h = true :=
  List.find?_some (p := fun q : OpcodeRow => q.selectedBy h) hfind

theorem lookupRow_eq_some_iff_exists {h : Word} {op : Opcode} :
    lookupRow h = some op ↔ ∃ r ∈ opcodeRows, r.selectedBy h = true ∧ r.op = op := by
  unfold lookupRow
  rw [Option.map_eq_some_iff]
  constructor
  · rintro ⟨r, hfind, hop⟩
    exact ⟨r, List.mem_of_find?_eq_some hfind, find?_selects hfind, hop⟩
  · rintro ⟨r, hr, hs, hop⟩
    cases hfind : opcodeRows.find? fun r => r.selectedBy h with
    | none => exact absurd hs (List.find?_eq_none.mp hfind r hr)
    | some q =>
      have hqr : q = r := row_unique (List.mem_of_find?_eq_some hfind) hr (find?_selects hfind) hs
      exact ⟨q, rfl, hqr ▸ hop⟩

/-- A header is looked up as a row exactly when `H & mask = match` for that row (R63). -/
theorem lookupRow_eq_some_iff {r : OpcodeRow} (hr : r ∈ opcodeRows) (h : Word) :
    lookupRow h = some r.op ↔ h &&& r.mask = r.pattern := by
  rw [lookupRow_eq_some_iff_exists, ← selectedBy_iff]
  constructor
  · rintro ⟨q, hq, hs, hop⟩
    exact row_eq_of_op_eq q hq r hr hop ▸ hs
  · exact fun hs => ⟨r, hr, hs, rfl⟩

theorem lookupRow_eq_none {h : Word} (hno : ∀ r ∈ opcodeRows, ¬ r.selectedBy h = true) : lookupRow h = none := by
  rw [Option.eq_none_iff_forall_ne_some]
  intro op hop
  obtain ⟨r, hr, hs, -⟩ := lookupRow_eq_some_iff_exists.mp hop
  exact hno r hr hs

/-! ### Decoding a packet -/

theorem rowOf_commandOf (op : Opcode) (h : Word) (payload : List Word) : rowOf (commandOf op h payload) = op := by
  cases op <;> rfl

/-- A packet decodes to the command that its row makes of the header and the payload (R65, R74). -/
theorem decode_eq_ok_iff (p : Packet) (i : Instr) :
    decode p = .ok i ↔ lookupRow p.header = some (rowOf i) ∧ commandOf (rowOf i) p.header p.payload = i := by
  unfold decode
  cases hrow : lookupRow p.header with
  | none => simp
  | some op =>
    simp only [Except.ok.injEq, Option.some.injEq]
    constructor
    · rintro rfl
      simp [rowOf_commandOf]
    · rintro ⟨rfl, hcmd⟩
      exact hcmd

theorem decode_eq_error_of_lookupRow {p : Packet} (hrow : lookupRow p.header = none) : ∃ e, decode p = .error e :=
  ⟨if opcodeDefined p.header then .reservedBits else .unknownOpcode, by simp only [decode, hrow]⟩

/-- A command without an immediate is decoded from one header word alone: its row's pattern. -/
theorem decode_eq_ok_iff_of_full_mask {r : OpcodeRow} (hr : r ∈ opcodeRows) (hmask : r.mask = BitVec.allOnes 32)
    {h : Word} {pl : List Word} {i : Instr} (hop : rowOf i = r.op) (hcmd : commandOf r.op h pl = i) :
    decode ⟨h, pl⟩ = .ok i ↔ h = r.pattern := by
  rw [decode_eq_ok_iff, hop, lookupRow_eq_some_iff hr, hmask, BitVec.and_allOnes]
  exact and_iff_left hcmd

theorem decode_eq_init_iff (h : Word) (pl : List Word) (mode : BitVec 8) :
    decode ⟨h, pl⟩ = .ok (.init mode pl) ↔ h &&& 0xFFFFFF00#32 = 0x01000000#32 ∧ mode = h.extractLsb' 0 8 := by
  have hrow := lookupRow_eq_some_iff (r := ⟨.init, 0x01000000#32, 0xFFFFFF00#32⟩) (by decide) h
  rw [decode_eq_ok_iff]
  exact and_congr hrow (by simp [rowOf, commandOf, modeField, eq_comm])

theorem decode_eq_process_iff (h : Word) (pl : List Word) (count : BitVec 24) :
    decode ⟨h, pl⟩ = .ok (.process count pl) ↔ h &&& 0xFF000000#32 = 0x02000000#32 ∧ count = h.extractLsb' 0 24 := by
  have hrow := lookupRow_eq_some_iff (r := ⟨.process, 0x02000000#32, 0xFF000000#32⟩) (by decide) h
  rw [decode_eq_ok_iff]
  exact and_congr hrow (by simp [rowOf, commandOf, imm24Field, eq_comm])

/-- Settles O3: `INIT` and `PROCESS` by their own row, the ten commands without an immediate by the lemma about full masks. -/
theorem headerSelectsItsRow : Obligations.HeaderSelectsItsRow := by
  intro h pl
  exact ⟨decode_eq_init_iff h pl, decode_eq_process_iff h pl,
    decode_eq_ok_iff_of_full_mask (r := ⟨.flush, 0x03000000#32, 0xFFFFFFFF#32⟩) (by decide) rfl rfl rfl,
    decode_eq_ok_iff_of_full_mask (r := ⟨.reset, 0x04000000#32, 0xFFFFFFFF#32⟩) (by decide) rfl rfl rfl,
    decode_eq_ok_iff_of_full_mask (r := ⟨.dlPut, 0x10000000#32, 0xFFFFFFFF#32⟩) (by decide) rfl rfl rfl,
    decode_eq_ok_iff_of_full_mask (r := ⟨.dlPutAdv, 0x11000000#32, 0xFFFFFFFF#32⟩) (by decide) rfl rfl rfl,
    decode_eq_ok_iff_of_full_mask (r := ⟨.dlGet, 0x12000000#32, 0xFFFFFFFF#32⟩) (by decide) rfl rfl rfl,
    decode_eq_ok_iff_of_full_mask (r := ⟨.dlGetAdv, 0x13000000#32, 0xFFFFFFFF#32⟩) (by decide) rfl rfl rfl,
    decode_eq_ok_iff_of_full_mask (r := ⟨.dlSetRd, 0x14000000#32, 0xFFFFFFFF#32⟩) (by decide) rfl rfl rfl,
    decode_eq_ok_iff_of_full_mask (r := ⟨.dlSetWr, 0x15000000#32, 0xFFFFFFFF#32⟩) (by decide) rfl rfl rfl,
    decode_eq_ok_iff_of_full_mask (r := ⟨.dlReset, 0x16000000#32, 0xFFFFFFFF#32⟩) (by decide) rfl rfl rfl,
    decode_eq_ok_iff_of_full_mask (r := ⟨.dlNum, 0x17000000#32, 0xFFFFFFFF#32⟩) (by decide) rfl rfl rfl⟩

/-! ### Illegal headers -/

/-- Every mask fixes the opcode field, and the opcodes of the map lie in the two ranges of R68. -/
theorem row_opcode : ∀ r ∈ opcodeRows, r.mask.extractLsb' 24 8 = BitVec.allOnes 8 ∧
    (1 ≤ (r.pattern.extractLsb' 24 8).toNat ∧ (r.pattern.extractLsb' 24 8).toNat ≤ 4 ∨
      16 ≤ (r.pattern.extractLsb' 24 8).toNat ∧ (r.pattern.extractLsb' 24 8).toNat ≤ 23) := by decide

/-- The row of `INIT` fixes the bits above its mode at zero (R67). -/
theorem row_reserved_init : ∀ r ∈ opcodeRows, (r.pattern.extractLsb' 24 8).toNat = 1 →
    r.mask.extractLsb' 8 16 = BitVec.allOnes 16 ∧ r.pattern.extractLsb' 8 16 = 0#16 := by decide

/-- A row without an immediate fixes all bits below the opcode at zero (R67). -/
theorem row_reserved_imm24 : ∀ r ∈ opcodeRows,
    (r.pattern.extractLsb' 24 8).toNat ≠ 1 → (r.pattern.extractLsb' 24 8).toNat ≠ 2 →
    r.mask.extractLsb' 0 24 = BitVec.allOnes 24 ∧ r.pattern.extractLsb' 0 24 = 0#24 := by decide

/-- What makes a header illegal: an opcode outside the map, or a non-zero reserved bit (R67, R68). -/
def IllegalHeader (h : Word) : Prop :=
  let opcode := (h.extractLsb' 24 8).toNat
  ¬(1 ≤ opcode ∧ opcode ≤ 4 ∨ 16 ≤ opcode ∧ opcode ≤ 23) ∨
  (opcode = 1 ∧ h.extractLsb' 8 16 ≠ 0#16) ∨
  (opcode ≠ 1 ∧ opcode ≠ 2 ∧ h.extractLsb' 0 24 ≠ 0#24)

theorem not_selectedBy_of_illegalHeader {h : Word} (hill : IllegalHeader h) {r : OpcodeRow} (hr : r ∈ opcodeRows) :
    ¬ r.selectedBy h = true := by
  intro hs
  obtain ⟨hmask, hrange⟩ := row_opcode r hr
  have hopcode : h.extractLsb' 24 8 = r.pattern.extractLsb' 24 8 := field_of_selectedBy hs hmask
  simp only [IllegalHeader, hopcode] at hill
  rcases hill with hout | ⟨h1, hres⟩ | ⟨h1, h2, hres⟩
  · exact hout hrange
  · obtain ⟨hmask, hzero⟩ := row_reserved_init r hr h1
    exact hres ((field_of_selectedBy hs hmask).trans hzero)
  · obtain ⟨hmask, hzero⟩ := row_reserved_imm24 r hr h1 h2
    exact hres ((field_of_selectedBy hs hmask).trans hzero)

theorem decode_error_of_illegalHeader {p : Packet} (hill : IllegalHeader p.header) : ∃ e, decode p = .error e :=
  decode_eq_error_of_lookupRow (lookupRow_eq_none fun _ hr => not_selectedBy_of_illegalHeader hill hr)

/-- A packet that does not decode is consumed and answered with `INVALID_ARG`, and that is all (R68, R74). -/
theorem step_of_decode_error {s : State} {p : Packet} {rest : List HostInput} {e : DecodeError}
    (hin : s.inputs = .packet p :: rest) (hdec : decode p = .error e) :
    step s = .next ((s.setInputs rest).pushResponse ⟨2#32, []⟩) := by
  simp only [step, hin, runInput, runPacket, hdec, raise, statusWord_invalidArg]

/-- Settles O4: no row selects an illegal header, so the packet does not decode. -/
theorem illegalHeaderChangesNothing : Obligations.IllegalHeaderChangesNothing := by
  intro s p rest hin hill
  obtain ⟨e, hdec⟩ := decode_error_of_illegalHeader hill
  exact step_of_decode_error hin hdec

end Sys2Proof.Encoding
end

section
/-! SUPPORT and the statements of the ring buffer and the `DL` commands. The reasoning rules of the ring operations (R90 to R97):
what each returns and what it leaves; then what each of the eight commands answers (R100 to R107). -/

namespace Sys2Proof.RingBuffer

open Sys2Proof Sys2Proof.Machine Sys2Proof.Encoding

/-! ### Remainders -/

/-- A cursor's successor modulo the capacity: one more, or 0 from the last index. -/
theorem succ_mod_eq_ite {i n : Nat} (h : i < n) : (i + 1) % n = if i + 1 = n then 0 else i + 1 := by
  split
  next hlast => rw [hlast, Nat.mod_self]
  next hinside => exact Nat.mod_eq_of_lt (by omega)

/-- `a mod n` is congruent to `a` modulo `n`. -/
theorem dvd_sub_wrap (a : Int) {n : Nat} (h : 0 < n) : (n : Int) ∣ a - wrap a n := by
  have hcast : (wrap a n : Int) = a % n := Int.toNat_of_nonneg (Int.emod_nonneg a (by omega))
  rw [hcast]
  exact Int.dvd_self_sub_of_emod_eq rfl

/-! ### The parts of the ring invariant (R11, R12) -/

theorem n_lt_of_inv {r : Ring} (h : r.Inv) : r.n < 2 ^ 31 := h.1

theorem writeIdx_lt_of_inv {r : Ring} (h : r.Inv) : r.writeIdx < r.n := h.2.1

theorem readIdx_lt_of_inv {r : Ring} (h : r.Inv) : r.readIdx < r.n := h.2.2.1

theorem storage_wf_of_inv {r : Ring} (h : r.Inv) : r.storage.wf := h.2.2.2.1

theorem n_pos_of_inv {r : Ring} (h : r.Inv) : 0 < r.n := Nat.zero_lt_of_lt (writeIdx_lt_of_inv h)

/-! ### Writing (R90, R91) -/

/-- Of two writes at one index the second alone remains. -/
theorem write_write {m : Memory} (h : m.wf) (a : Nat) (w v : Word) : (m.write a w).write a v = m.write a v := by
  refine Memory.ext_read (Memory.wf_write (Memory.wf_write h _ _) _ _) (Memory.wf_write h _ _) fun c => ?_
  rw [Memory.read_write (Memory.wf_write h _ _), Memory.read_write h, Memory.read_write h]
  split <;> rfl

@[simp] theorem put_n (r : Ring) (v : Word) : (r.put v).n = r.n := rfl
@[simp] theorem put_writeIdx (r : Ring) (v : Word) : (r.put v).writeIdx = r.writeIdx := rfl
@[simp] theorem put_readIdx (r : Ring) (v : Word) : (r.put v).readIdx = r.readIdx := rfl

theorem read_put {r : Ring} (h : r.Inv) (v : Word) (a : Nat) :
    (r.put v).storage.read a = if a = r.writeIdx then v else r.storage.read a :=
  Memory.read_write (storage_wf_of_inv h) r.writeIdx v a

theorem put_put {r : Ring} (h : r.Inv) (w v : Word) : (r.put w).put v = r.put v := by
  simp [Ring.put, write_write (storage_wf_of_inv h)]

@[simp] theorem putAdvance_n (r : Ring) (v : Word) : (r.putAdvance v).n = r.n := rfl
@[simp] theorem putAdvance_readIdx (r : Ring) (v : Word) : (r.putAdvance v).readIdx = r.readIdx := rfl
@[simp] theorem putAdvance_storage (r : Ring) (v : Word) : (r.putAdvance v).storage = (r.put v).storage := rfl
theorem putAdvance_writeIdx (r : Ring) (v : Word) : (r.putAdvance v).writeIdx = (r.writeIdx + 1) % r.n := rfl

/-- Settles O10: a write in a canonical storage, with its frame. -/
theorem ringPutWritesAtCursor : Obligations.RingPutWritesAtCursor := fun r v w h =>
  ⟨read_put h v, put_writeIdx r v, put_readIdx r v, put_n r v, put_put h w v⟩

theorem read_putAdvance {r : Ring} (h : r.Inv) (v : Word) (a : Nat) :
    (r.putAdvance v).storage.read a = if a = r.writeIdx then v else r.storage.read a := by
  rw [putAdvance_storage, read_put h]

theorem putAdvance_writeIdx_eq_ite {r : Ring} (h : r.Inv) (v : Word) :
    (r.putAdvance v).writeIdx = if r.writeIdx + 1 = r.n then 0 else r.writeIdx + 1 := by
  rw [putAdvance_writeIdx, succ_mod_eq_ite (writeIdx_lt_of_inv h)]

/-- Settles O11: the word goes where `RB_put` puts it, and the cursor's remainder is a wrap at the last index. -/
theorem ringPutAdvanceWraps : Obligations.RingPutAdvanceWraps := fun r v h =>
  ⟨read_putAdvance h v, putAdvance_writeIdx_eq_ite h v, putAdvance_readIdx r v, putAdvance_n r v⟩

/-! ### Cursor moves and the reset (R93 to R96) -/

theorem advanceRead_eq {r : Ring} (h : r.Inv) :
    r.advanceRead = { r with readIdx := if r.readIdx + 1 = r.n then 0 else r.readIdx + 1 } := by
  rw [Ring.advanceRead, succ_mod_eq_ite (readIdx_lt_of_inv h)]

theorem setReadIdx_eq {r : Ring} (h : r.Inv) (idx : Int) :
    ∃ k : Nat, k < r.n ∧ (r.n : Int) ∣ idx - k ∧ r.setReadIdx idx = { r with readIdx := k } := by
  have hpos : 0 < r.n := n_pos_of_inv h
  exact ⟨wrap idx r.n, wrap_lt idx hpos, dvd_sub_wrap idx hpos, rfl⟩

theorem setWriteIdx_eq {r : Ring} (h : r.Inv) (idx : Int) :
    ∃ k : Nat, k < r.n ∧ (r.n : Int) ∣ idx - k ∧ r.setWriteIdx idx = { r with writeIdx := k } := by
  have hpos : 0 < r.n := n_pos_of_inv h
  exact ⟨wrap idx r.n, wrap_lt idx hpos, dvd_sub_wrap idx hpos, rfl⟩

/-- Settles O12: the cursor moves are remainders modulo the capacity. -/
theorem ringCursorMoves : Obligations.RingCursorMoves := fun _ idx h =>
  ⟨rfl, advanceRead_eq h, setReadIdx_eq h idx, setWriteIdx_eq h idx⟩

@[simp] theorem clear_n (r : Ring) : r.clear.n = r.n := rfl
@[simp] theorem clear_storage (r : Ring) : r.clear.storage = [] := rfl
@[simp] theorem clear_writeIdx (r : Ring) : r.clear.writeIdx = 0 := rfl
@[simp] theorem clear_readIdx (r : Ring) : r.clear.readIdx = 0 := rfl

theorem read_clear (r : Ring) (a : Nat) : r.clear.storage.read a = 0#32 := by rw [clear_storage, Memory.read_nil]

/-- Settles O13: a cleared ring lists no word, so every index reads `+0.0`. -/
theorem ringResetZeroes : Obligations.RingResetZeroes := fun r =>
  ⟨read_clear r, clear_writeIdx r, clear_readIdx r, clear_n r⟩

/-! ### The count of values (R97) -/

theorem valuesInBuffer_lt {r : Ring} (h : 0 < r.n) : r.valuesInBuffer < r.n := wrap_lt _ h

theorem dvd_sub_valuesInBuffer {r : Ring} (h : 0 < r.n) :
    (r.n : Int) ∣ ((r.writeIdx : Int) - r.readIdx) - r.valuesInBuffer := by
  have hdvd : (r.n : Int) ∣ ((r.writeIdx : Int) - r.readIdx + r.n) - r.valuesInBuffer := dvd_sub_wrap _ h
  have hshift : ((r.writeIdx : Int) - r.readIdx) - r.valuesInBuffer =
      ((r.writeIdx : Int) - r.readIdx + r.n) - r.valuesInBuffer - r.n := by ring
  rw [hshift]
  exact Int.dvd_sub hdvd (Int.dvd_refl _)

/-- The count fits a word, so its word stands for the count itself. -/
theorem toNat_u32_valuesInBuffer {r : Ring} (h : r.Inv) : (u32 r.valuesInBuffer).toNat = r.valuesInBuffer := by
  have hlt : r.valuesInBuffer < r.n := valuesInBuffer_lt (n_pos_of_inv h)
  have hn : r.n < 2 ^ 31 := n_lt_of_inv h
  rw [u32, BitVec.toNat_ofNat, Nat.mod_eq_of_lt (by omega)]

/-- While the read cursor stands at 0 the count is the write cursor modulo the capacity. -/
theorem valuesInBuffer_of_readIdx_zero {r : Ring} (h : r.readIdx = 0) : r.valuesInBuffer = r.writeIdx % r.n := by
  have hcast : (r.writeIdx : Int) - r.readIdx + r.n = (r.writeIdx + r.n : Nat) := by simp [h]
  rw [Ring.valuesInBuffer, hcast, wrap_natCast, Nat.add_mod_right]

/-- A run of `RB_putAdvance` keeps the capacity and the read cursor, and moves the write cursor on by the number of words. -/
theorem foldl_putAdvance (vs : List Word) (r : Ring) :
    (vs.foldl Ring.putAdvance r).n = r.n ∧ (vs.foldl Ring.putAdvance r).readIdx = r.readIdx ∧
    (vs.foldl Ring.putAdvance r).writeIdx % r.n = (r.writeIdx + vs.length) % r.n := by
  induction vs generalizing r with
  | nil => exact ⟨rfl, rfl, rfl⟩
  | cons v vs ih =>
    obtain ⟨hn, hread, hwrite⟩ := ih (r.putAdvance v)
    refine ⟨hn, hread, hwrite.trans ?_⟩
    rw [putAdvance_n, putAdvance_writeIdx, Nat.mod_add_mod, List.length_cons, Nat.add_assoc, Nat.add_comm 1]

/-- As many words as the ring holds bring the write cursor back to where the count is 0. -/
theorem valuesInBuffer_full {n : Nat} {vs : List Word} (h : vs.length = n) :
    (vs.foldl Ring.putAdvance (Ring.fresh n)).valuesInBuffer = 0 := by
  obtain ⟨hn, hread, hwrite⟩ := foldl_putAdvance vs (Ring.fresh n)
  rw [valuesInBuffer_of_readIdx_zero hread, hn, hwrite]
  simp [h]

/-- Settles O14, by the induction over the words written. -/
theorem fullRingLooksEmpty : Obligations.FullRingLooksEmpty := by
  refine ⟨fun r h => ?_, fun n vs _ hlen => ⟨valuesInBuffer_full hlen, ?_⟩⟩
  · have hpos : 0 < r.n := n_pos_of_inv h
    exact ⟨valuesInBuffer_lt hpos, dvd_sub_valuesInBuffer hpos⟩
  · rw [valuesInBuffer_of_readIdx_zero (fresh_readIdx n), fresh_writeIdx, Nat.zero_mod]

/-! ### Reading at the default offset (R92) -/

/-- At the offset `+0.0` the fractional part is `+0.0`, so `RB_get` returns the word at the read cursor. -/
theorem get_zero {r : Ring} (h : r.Inv) : r.get 0#32 = some (r.storage.read r.readIdx) := by
  have hview : view 0#32 = .finite false 0 := by decide
  have hfloor : floorFinite false 0 = 0 := by decide
  have hfrac : fsub 0#32 (flInt 0) = 0#32 := by decide +kernel
  have hzero : (geZero 0#32 && ltOne 0#32) = true ∧ eqZero 0#32 = true := by decide
  simp [Ring.get, hview, hfloor, hfrac, hzero, Nat.mod_eq_of_lt (readIdx_lt_of_inv h)]

/-! ### The packets of the `DL` commands -/

/-- A row that fixes the whole header makes its command of every payload. -/
theorem decode_of_row {r : OpcodeRow} (hr : r ∈ opcodeRows) (hmask : r.mask = BitVec.allOnes 32) (pl : List Word) :
    decode ⟨r.pattern, pl⟩ = .ok (commandOf r.op r.pattern pl) :=
  (decode_eq_ok_iff_of_full_mask hr hmask (rowOf_commandOf _ _ _) rfl).2 rfl

/-- R69 for `DL`: a payload count that the command does not have is answered with `INVALID_ARG`, and nothing else changes. -/
theorem exec_of_illFormed (i : Instr) (hdl : engineCommand i = false) (hill : i.wellFormed = false) (s : State) :
    exec i s = .next (s.failed .invalidArg) := by
  cases i with
  | init | process | flush | reset => simp [engineCommand] at hdl
  | dlPut pl | dlPutAdv pl | dlSetRd pl | dlSetWr pl =>
    match pl, hill with
    | [], _ => rfl
    | _ :: _ :: _, _ => rfl
  | dlGet pl =>
    match pl, hill with
    | _ :: _ :: _, _ => rfl
  | dlGetAdv pl | dlReset pl | dlNum pl =>
    match pl, hill with
    | _ :: _, _ => rfl

/-! ### What a `DL` command with its payload answers -/

theorem responded_pushResponse_setDl (s : State) (r : Ring) :
    Responded s ((s.setDl r).pushResponse ⟨0#32, []⟩) .ok [] := by
  simp [Responded]

theorem exec_dlPut {s : State} (h : s.dl.Inv) (v : Word) :
    exec (.dlPut [v]) s = .next ((s.setDl (s.dl.put v)).pushResponse ⟨0#32, []⟩) :=
  dlAccess_eq_next.2 ⟨writeIdx_lt_of_inv h, respond_eq_next.2 rfl⟩

theorem exec_dlPutAdv {s : State} (h : s.dl.Inv) (v : Word) :
    exec (.dlPutAdv [v]) s = .next ((s.setDl (s.dl.putAdvance v)).pushResponse ⟨0#32, []⟩) :=
  dlAccess_eq_next.2 ⟨writeIdx_lt_of_inv h, respond_eq_next.2 rfl⟩

/-- A missing offset is `+0.0` (R102). -/
theorem exec_dlGet {pl : List Word} (h : pl.length ≤ 1) (s : State) :
    exec (.dlGet pl) s = dlGetAt (pl.getD 0 0#32) s := by
  match pl, h with
  | [], _ => rfl
  | [_], _ => rfl

theorem exec_dlGetAdv {s : State} (h : s.dl.Inv) :
    exec (.dlGetAdv []) s = .next ((s.setDl s.dl.advanceRead).pushResponse ⟨0#32, [s.dl.current]⟩) :=
  dlAccess_eq_next.2 ⟨readIdx_lt_of_inv h, respond_eq_next.2 rfl⟩

theorem exec_dlSetRd (idx : Word) (s : State) :
    exec (.dlSetRd [idx]) s = .next ((s.setDl (s.dl.setReadIdx idx.toInt)).pushResponse ⟨0#32, []⟩) :=
  respond_eq_next.2 rfl

theorem exec_dlSetWr (idx : Word) (s : State) :
    exec (.dlSetWr [idx]) s = .next ((s.setDl (s.dl.setWriteIdx idx.toInt)).pushResponse ⟨0#32, []⟩) :=
  respond_eq_next.2 rfl

theorem exec_dlReset (s : State) :
    exec (.dlReset []) s = .next ((s.setDl s.dl.clear).pushResponse ⟨0#32, []⟩) :=
  respond_eq_next.2 rfl

theorem exec_dlNum (s : State) :
    exec (.dlNum []) s = .next (s.pushResponse ⟨0#32, [u32 s.dl.valuesInBuffer]⟩) :=
  respond_eq_next.2 rfl

/-! ### The statements of the `DL` commands -/

/-- Settles O17: one word is `RB_put` on `DL`; any other count is ill-formed. -/
theorem dlPutStores : Obligations.DlPutStores := by
  intro s pl
  refine ⟨decode_of_row (r := ⟨.dlPut, 0x10000000#32, 0xFFFFFFFF#32⟩) (by decide) rfl pl,
    fun hlen => exec_of_illFormed (.dlPut pl) rfl (beq_false_of_ne hlen) s, ?_⟩
  rintro v rfl h
  exact ⟨_, exec_dlPut h v, responded_pushResponse_setDl _ _, rfl, put_n _ v, put_writeIdx _ v, put_readIdx _ v,
    read_put h v⟩

/-- Settles O18: one word is `RB_putAdvance` on `DL`; any other count is ill-formed. -/
theorem dlPutAdvStoresAndAdvances : Obligations.DlPutAdvStoresAndAdvances := by
  intro s pl
  refine ⟨decode_of_row (r := ⟨.dlPutAdv, 0x11000000#32, 0xFFFFFFFF#32⟩) (by decide) rfl pl,
    fun hlen => exec_of_illFormed (.dlPutAdv pl) rfl (beq_false_of_ne hlen) s, ?_⟩
  rintro v rfl h
  exact ⟨_, exec_dlPutAdv h v, responded_pushResponse_setDl _ _, rfl, putAdvance_n _ v, putAdvance_readIdx _ v,
    putAdvance_writeIdx_eq_ite h v, read_putAdvance h v⟩

/-- Settles O19: with at most one word `DL.GET` is `RB_get` at the offset, and the default offset reads the cursor's word. -/
theorem dlGetReads : Obligations.DlGetReads := by
  intro s pl h
  have hpos : 0 < s.dl.n := n_pos_of_inv h
  refine ⟨decode_of_row (r := ⟨.dlGet, 0x12000000#32, 0xFFFFFFFF#32⟩) (by decide) rfl pl, fun hlen => ?_,
    fun hlen hnone => ?_, fun v hlen hsome => ?_, ?_⟩
  · exact exec_of_illFormed (.dlGet pl) rfl (by simp only [Instr.wellFormed, Bool.or_eq_false_iff, beq_eq_false_iff_ne]; omega) s
  · rw [exec_dlGet hlen]
    exact dlGetAt_eq_next.2 (.inl ⟨hnone, rfl⟩)
  · rw [exec_dlGet hlen]
    exact dlGetAt_eq_next.2 (.inr ⟨v, hsome, hpos, rfl⟩)
  · exact dlGetAt_eq_next.2 (.inr ⟨_, get_zero h, hpos, rfl⟩)

/-- Settles O20: no payload is `RB_getAdvance` on `DL`. -/
theorem dlGetAdvReadsAndAdvances : Obligations.DlGetAdvReadsAndAdvances := by
  intro s pl h
  refine ⟨decode_of_row (r := ⟨.dlGetAdv, 0x13000000#32, 0xFFFFFFFF#32⟩) (by decide) rfl pl,
    fun hne => exec_of_illFormed (.dlGetAdv pl) rfl (by simpa [Instr.wellFormed] using hne) s, ?_⟩
  rw [exec_dlGetAdv h, advanceRead_eq h]
  rfl

/-- Settles O21: one word is `RB_setReadIdx` on `DL`, read as an `i32`. -/
theorem dlSetRdSetsReadCursor : Obligations.DlSetRdSetsReadCursor := by
  intro s pl h
  refine ⟨decode_of_row (r := ⟨.dlSetRd, 0x14000000#32, 0xFFFFFFFF#32⟩) (by decide) rfl pl,
    fun hlen => exec_of_illFormed (.dlSetRd pl) rfl (beq_false_of_ne hlen) s, ?_⟩
  rintro idx rfl
  obtain ⟨k, hlt, hdvd, hset⟩ := setReadIdx_eq h idx.toInt
  exact ⟨k, hlt, hdvd, by rw [exec_dlSetRd, hset]; rfl⟩

/-- Settles O22: one word is `RB_setWriteIdx` on `DL`, read as an `i32`. -/
theorem dlSetWrSetsWriteCursor : Obligations.DlSetWrSetsWriteCursor := by
  intro s pl h
  refine ⟨decode_of_row (r := ⟨.dlSetWr, 0x15000000#32, 0xFFFFFFFF#32⟩) (by decide) rfl pl,
    fun hlen => exec_of_illFormed (.dlSetWr pl) rfl (beq_false_of_ne hlen) s, ?_⟩
  rintro idx rfl
  obtain ⟨k, hlt, hdvd, hset⟩ := setWriteIdx_eq h idx.toInt
  exact ⟨k, hlt, hdvd, by rw [exec_dlSetWr, hset]; rfl⟩

/-- Settles O23: no payload is `RB_reset` on `DL`, and the engine is another field. -/
theorem dlResetZeroes : Obligations.DlResetZeroes := by
  intro s pl
  refine ⟨decode_of_row (r := ⟨.dlReset, 0x16000000#32, 0xFFFFFFFF#32⟩) (by decide) rfl pl,
    fun hne => exec_of_illFormed (.dlReset pl) rfl (by simpa [Instr.wellFormed] using hne) s, _, exec_dlReset s,
    responded_pushResponse_setDl _ _, rfl, clear_n s.dl, clear_writeIdx s.dl, clear_readIdx s.dl, read_clear s.dl⟩

/-- Settles O24: the response word is the count of R97. -/
theorem dlNumCounts : Obligations.DlNumCounts := by
  intro s pl h
  have hpos : 0 < s.dl.n := n_pos_of_inv h
  have hword := toNat_u32_valuesInBuffer h
  refine ⟨decode_of_row (r := ⟨.dlNum, 0x17000000#32, 0xFFFFFFFF#32⟩) (by decide) rfl pl,
    fun hne => exec_of_illFormed (.dlNum pl) rfl (by simpa [Instr.wellFormed] using hne) s,
    u32 s.dl.valuesInBuffer, ?_, ?_, exec_dlNum s⟩
  · rw [hword]
    exact valuesInBuffer_lt hpos
  · rw [hword]
    exact dvd_sub_valuesInBuffer hpos

end Sys2Proof.RingBuffer
end

section
/-! SUPPORT and the statements of the Time-Domain Convolver. What one sample does to it (R121), that under its invariant the
cursor addresses the history (R55), and so what `PROCESS` answers in TimeDomain mode (R122, R192). -/

namespace Sys2Proof.TimeDomain

open Sys2Proof Sys2Proof.Machine Sys2Proof.RingBuffer

/-! ### One sample (R121) -/

/-- The push stands before the sum: both results are made of the ring after `RB_putAdvance`. -/
theorem tdStep_eq (L : Nat) (td : TdState) (x : Word) :
    tdStep L td x = ({ td with hist := td.hist.putAdvance x }, firSum td.ir (td.hist.putAdvance x) L) := rfl

theorem inRange_of_inv {L : Nat} {td : TdState} (h : td.Inv L) : td.inRange L = true := by
  obtain ⟨hring, hn, -⟩ := h
  have hcursor : td.hist.writeIdx < td.hist.n := writeIdx_lt_of_inv hring
  simp [TdState.inRange, hn, hn ▸ hcursor]

/-! ### `PROCESS` in TimeDomain mode (R122, R192) -/

theorem tdInv_of_stateInv {s : State} {L B : Nat} {td : TdState} (h : s.Inv)
    (heng : s.eng = some { irLength := L, blockLength := B, conv := .td td }) : td.Inv L := by
  obtain ⟨-, -, hengines⟩ := h
  obtain ⟨-, -, -, -, hconv⟩ := hengines _ heng
  exact hconv

/-- `PROCESS` with the payload its header counts runs the convolver over it, whatever the mode, while the cursors are in range. -/
theorem exec_process {s : State} {e : Engine} {count : BitVec 24} {xs : List Word} (heng : s.eng = some e)
    (hlen : xs.length = countOf count) (hrange : e.inRange = true) :
    exec (.process count xs) s =
      .next ((s.setEng (some (e.process deviceXfm xs).1)).pushResponse ⟨0#32, (e.process deviceXfm xs).2⟩) := by
  have hexec : exec (.process count xs) s = finishStream s (e.process deviceXfm xs) := by
    simp [exec, execProcess, heng, hlen, hrange]
  exact hexec.trans (finishStream_eq_next.2 rfl)

theorem exec_process_td {s : State} {L B : Nat} {td : TdState} {count : BitVec 24} {xs : List Word} (h : s.Inv)
    (heng : s.eng = some { irLength := L, blockLength := B, conv := .td td }) (hlen : xs.length = countOf count) :
    exec (.process count xs) s =
      .next ((s.setEng (some { irLength := L, blockLength := B, conv := .td (tdProcess L td xs).1 })).pushResponse
        ⟨0#32, (tdProcess L td xs).2⟩) :=
  exec_process heng hlen (inRange_of_inv (tdInv_of_stateInv h heng))

/-- An input of one sample is one step. -/
theorem tdProcess_singleton (L : Nat) (td : TdState) (x : Word) :
    tdProcess L td [x] = ((tdStep L td x).1, [(tdStep L td x).2]) := by
  rw [tdProcess, stream_cons, stream_nil]

theorem responded_pushResponse_setEng (s : State) (e : Option Engine) (out : List Word) :
    Responded s ((s.setEng e).pushResponse ⟨0#32, out⟩) .ok out := by
  simp [Responded]

/-- Settles O27: the one step pushes by the rules of `RB_putAdvance` (O11), and its word is the FIR sum over the pushed ring. -/
theorem processTimeDomainSample : Obligations.ProcessTimeDomainSample := by
  intro s L B td x hinv heng
  obtain ⟨hring, hn, hread, -⟩ := tdInv_of_stateInv hinv heng
  have hexec := exec_process_td (count := 1#24) (xs := [x]) hinv heng rfl
  rw [tdProcess_singleton, tdStep_eq] at hexec
  have hwrap := putAdvance_writeIdx_eq_ite hring x
  rw [hn] at hwrap
  exact ⟨_, _, _, hexec, responded_pushResponse_setEng _ _ _, rfl, rfl, rfl, hn, hread, hwrap, read_putAdvance hring x, rfl⟩

end Sys2Proof.TimeDomain
end

section
/-! SUPPORT and the statements of the Frequency-Domain Convolver. What each step of one sample does to it (R134 to R140), that
under its invariant the cursors address the block ring (R55), and so what `PROCESS` answers in FreqDomain mode (R141, R192). -/

namespace Sys2Proof.FreqDomain

open Sys2Proof Sys2Proof.Machine
open Sys2Proof.TimeDomain (exec_process responded_pushResponse_setEng)

/-! ### Arrays held row by row (log 7) -/

/-- Position `i` of row `b` lies in row `c` only if the rows are the same. -/
theorem mem_row_iff {w b c i : Nat} (hi : i < w) : (c * w ≤ b * w + i ∧ b * w + i < c * w + w) ↔ b = c := by
  constructor
  · rintro ⟨hlow, hhigh⟩
    have hdiv : (b * w + i) / w = c := Nat.div_eq_of_lt_le hlow (by rwa [Nat.succ_mul])
    rwa [Nat.mul_comm, Nat.mul_add_div (by omega), Nat.div_eq_of_lt hi, Nat.add_zero] at hdiv
  · rintro rfl
    omega

/-- Two addresses are equal only at the same position of the same row. -/
theorem rowAddress_inj {w b c i k : Nat} (hi : i < w) (hk : k < w) : b * w + i = c * w + k ↔ b = c ∧ i = k := by
  constructor
  · intro h
    obtain rfl : b = c := (mem_row_iff hi).1 ⟨by omega, by omega⟩
    exact ⟨rfl, by omega⟩
  · rintro ⟨rfl, rfl⟩
    rfl

/-- A loop that rewrites the words at `base + n`, `n < len`, in index order, each from its own old value. -/
def updateRun (g : Nat → Word → Word) (base : Nat) (m : Memory) (len : Nat) : Memory :=
  (List.range len).foldl (fun m n => m.write (base + n) (g n (m.read (base + n)))) m

theorem updateRun_succ (g : Nat → Word → Word) (base : Nat) (m : Memory) (len : Nat) :
    updateRun g base m (len + 1) =
      (updateRun g base m len).write (base + len) (g len ((updateRun g base m len).read (base + len))) := by
  simp [updateRun, List.range_succ]

theorem wf_updateRun {m : Memory} (h : m.wf) (g : Nat → Word → Word) (base len : Nat) : (updateRun g base m len).wf := by
  induction len with
  | zero => exact h
  | succ len ih =>
    rw [updateRun_succ]
    exact Memory.wf_write ih _ _

/-- No word of the run is rewritten twice, so each is made of its value before the loop. -/
theorem read_updateRun {m : Memory} (h : m.wf) (g : Nat → Word → Word) (base len c : Nat) :
    (updateRun g base m len).read c = if base ≤ c ∧ c < base + len then g (c - base) (m.read c) else m.read c := by
  induction len generalizing c with
  | zero =>
    have hempty : ¬(base ≤ c ∧ c < base + 0) := by omega
    rw [if_neg hempty]
    rfl
  | succ len ih =>
    rw [updateRun_succ, Memory.read_write (wf_updateRun h g base len), ih, ih, ← Nat.add_assoc]
    rcases Nat.lt_trichotomy c (base + len) with hlt | rfl | hgt
    · simp [hlt.ne, hlt, Nat.lt_succ_of_lt hlt]
    · simp
    · simp [hgt.ne', hgt.not_gt, (Nat.succ_le_of_lt hgt).not_gt]

theorem accumulateInto_eq_updateRun (m : Memory) (base B : Nat) (y : List Word) :
    accumulateInto m base B y = updateRun (fun n v => fadd v (y.getD (B + n) 0#32)) base m B := rfl

/-- R173 word by word: one `fadd` into every word of the row, and no other word is touched. -/
theorem read_accumulateInto {m : Memory} (h : m.wf) (y : List Word) {b c B n : Nat} (hn : n < B) :
    (accumulateInto m (c * B) B y).read (b * B + n) =
      if b = c then fadd (m.read (b * B + n)) (y.getD (B + n) 0#32) else m.read (b * B + n) := by
  rw [accumulateInto_eq_updateRun, read_updateRun h]
  simp only [mem_row_iff hn]
  split
  next hrow => rw [hrow, Nat.add_sub_cancel_left]
  next => rfl

/-! ### The parts of the invariant (R17 to R21) -/

theorem fdInv_of_stateInv {s : State} {L B : Nat} {f : FdState} (h : s.Inv)
    (heng : s.eng = some { irLength := L, blockLength := B, conv := .fd f }) : f.Inv L B := by
  obtain ⟨-, -, hengines⟩ := h
  obtain ⟨-, -, -, -, hconv⟩ := hengines _ heng
  obtain ⟨-, -, hinv⟩ := hconv
  exact hinv

theorem staging_wf_of_inv {L B : Nat} {f : FdState} (h : f.Inv L B) : f.staging.wf := by
  obtain ⟨-, -, -, -, -, -, -, hwf, -⟩ := h
  exact hwf

theorem accum_wf_of_inv {L B : Nat} {f : FdState} (h : f.Inv L B) : f.accum.wf := by
  obtain ⟨-, -, -, -, -, -, -, -, -, hwf, -⟩ := h
  exact hwf

/-- The block ring has a block for every partition (R17). -/
theorem p_le_r_of_inv {L B : Nat} {f : FdState} (h : f.Inv L B) : f.p ≤ f.r := by
  obtain ⟨-, hr, -⟩ := h
  exact hr ▸ Nat.le_max_left _ _

theorem writeIdx_lt_of_inv {L B : Nat} {f : FdState} (h : f.Inv L B) : f.writeIdx < B := by
  obtain ⟨-, -, -, -, -, -, -, -, -, -, -, -, -, hcursor, -⟩ := h
  exact hcursor

/-- R55: each block cursor is a remainder modulo the ring's length. -/
theorem inRange_of_inv {L B : Nat} {f : FdState} (h : f.Inv L B) : f.inRange B = true := by
  obtain ⟨-, hr, -, -, -, -, -, -, -, -, -, hwrite, hnext, hcursor, hread⟩ := h
  have hpos : 0 < f.r := Nat.zero_lt_of_lt hwrite
  have hnextLt : f.nextBlock < f.r := hnext ▸ Nat.mod_lt _ hpos
  have hreadLt : f.readBlock < f.r := by
    rcases hread with hbehind | ⟨-, hfirst, -⟩
    · exact hbehind ▸ wrap_lt _ hpos
    · exact hfirst ▸ wrap_lt _ hpos
  simp [FdState.inRange, hwrite, hnextLt, hreadLt, hcursor]

/-! ### Staging and advance (R134 to R136) -/

/-- R134: the sample stands in the tail half of `writeBlock` and in the head half of `nextBlock`. -/
theorem read_stage {f : FdState} (h : f.staging.wf) {B : Nat} (hcursor : f.writeIdx < B) (x : Word) (b : Nat) {i : Nat}
    (hi : i < 2 * B) :
    (f.stage B x).staging.read (b * (2 * B) + i) =
      if (b = f.writeBlock ∧ i = f.writeIdx + B) ∨ (b = f.nextBlock ∧ i = f.writeIdx) then x
      else f.staging.read (b * (2 * B) + i) := by
  rw [FdState.stage, Memory.read_write (Memory.wf_write h _ _), Memory.read_write h]
  simp only [rowAddress_inj hi (show f.writeIdx < 2 * B by omega), rowAddress_inj hi (show f.writeIdx + B < 2 * B by omega)]
  by_cases htail : b = f.writeBlock ∧ i = f.writeIdx + B
  · simp [htail]
  · simp only [htail, if_false, false_or]

/-- The convolver with the sample staged and the position moved on, before the test for the boundary (R136). -/
def staged (B : Nat) (f : FdState) (x : Word) : FdState := { f.stage B x with writeIdx := f.writeIdx + 1 }

/-- R135: the word put out is the one at the position before the advance, which neither the staging nor a boundary changes. -/
theorem fdStep_eq (xf : Xfm) (B : Nat) (f : FdState) (x : Word) :
    fdStep xf B f x =
      (if f.writeIdx + 1 = B then (staged B f x).boundary xf B else staged B f x, f.emit B) := rfl

/-! ### The partition loop (R138, R139) -/

/-- The scaled product of the frame's spectrum and partition `j`, transformed back: `y` of R139. -/
def partitionResult (xf : Xfm) (spectrum : Spectrum) (B : Nat) (f : FdState) (j : Nat) : List Word :=
  xf.inv B (cmul B spectrum (f.partSpectrum B j) f.scale)

theorem addPartition_eq (xf : Xfm) (spectrum : Spectrum) (B : Nat) (f : FdState) (j : Nat) :
    f.addPartition xf spectrum B j =
      { f with accum := accumulateInto f.accum ((f.writeBlock + j) % f.r * B) B (partitionResult xf spectrum B f j) } := rfl

/-- The first `k` turns of the partition loop. -/
def partitionLoop (xf : Xfm) (spectrum : Spectrum) (B : Nat) (f : FdState) (k : Nat) : FdState :=
  (List.range k).foldl (FdState.addPartition xf spectrum B) f

theorem addPartitions_eq_partitionLoop (xf : Xfm) (spectrum : Spectrum) (B : Nat) (f : FdState) :
    f.addPartitions xf spectrum B = partitionLoop xf spectrum B f f.p := rfl

/-- Two partitions within one turn of the block ring have different targets. -/
theorem target_ne {w r i j : Nat} (hi : i < r) (hj : j < r) (hne : i ≠ j) : (w + i) % r ≠ (w + j) % r := fun heq =>
  hne ((Nat.ModEq.add_left_cancel' w heq).eq_of_lt_of_lt hi hj)

section PartitionLoop

variable (xf : Xfm) (spectrum : Spectrum) (B : Nat) (f : FdState)

theorem partitionLoop_succ (k : Nat) :
    partitionLoop xf spectrum B f (k + 1) = (partitionLoop xf spectrum B f k).addPartition xf spectrum B k := by
  simp [partitionLoop, List.range_succ]

/-- The loop writes the accumulator alone. -/
theorem partitionLoop_frame (k : Nat) :
    partitionLoop xf spectrum B f k = { f with accum := (partitionLoop xf spectrum B f k).accum } := by
  induction k with
  | zero => rfl
  | succ k ih =>
    rw [partitionLoop_succ, ih]
    rfl

/-- So every turn finds the cursors, the spectra and the scale that the loop began with. -/
theorem partitionLoop_succ_accum (k : Nat) :
    (partitionLoop xf spectrum B f (k + 1)).accum =
      accumulateInto (partitionLoop xf spectrum B f k).accum ((f.writeBlock + k) % f.r * B) B
        (partitionResult xf spectrum B f k) := by
  rw [partitionLoop_succ, partitionLoop_frame]
  rfl

variable {f} (h : f.accum.wf)
include h

theorem partitionLoop_accum_wf (k : Nat) : (partitionLoop xf spectrum B f k).accum.wf := by
  induction k with
  | zero => exact h
  | succ k ih =>
    rw [partitionLoop_succ_accum]
    exact accumulateInto_wf ih _ _ _

variable {B} {n : Nat} (hn : n < B)
include hn

theorem read_partitionLoop_succ (k b : Nat) :
    (partitionLoop xf spectrum B f (k + 1)).accum.read (b * B + n) =
      if b = (f.writeBlock + k) % f.r then
        fadd ((partitionLoop xf spectrum B f k).accum.read (b * B + n))
          ((partitionResult xf spectrum B f k).getD (B + n) 0#32)
      else (partitionLoop xf spectrum B f k).accum.read (b * B + n) := by
  rw [partitionLoop_succ_accum, read_accumulateInto (partitionLoop_accum_wf xf spectrum B h k) _ hn]

/-- A block that is no partition's target keeps its words. -/
theorem read_partitionLoop_of_no_target {k b : Nat} (hb : ∀ j < k, b ≠ (f.writeBlock + j) % f.r) :
    (partitionLoop xf spectrum B f k).accum.read (b * B + n) = f.accum.read (b * B + n) := by
  induction k with
  | zero => rfl
  | succ k ih =>
    rw [read_partitionLoop_succ xf spectrum h hn, if_neg (hb k k.lt_succ_self)]
    exact ih fun j hj => hb j (Nat.lt_succ_of_lt hj)

/-- Each of at most `R` partitions has a target of its own, which so receives exactly one `fadd` a word. -/
theorem read_partitionLoop_target {k j : Nat} (hk : k ≤ f.r) (hj : j < k) :
    (partitionLoop xf spectrum B f k).accum.read ((f.writeBlock + j) % f.r * B + n) =
      fadd (f.accum.read ((f.writeBlock + j) % f.r * B + n)) ((partitionResult xf spectrum B f j).getD (B + n) 0#32) := by
  induction k with
  | zero => exact absurd hj j.not_lt_zero
  | succ k ih =>
    rw [read_partitionLoop_succ xf spectrum h hn]
    rcases Nat.lt_succ_iff_lt_or_eq.1 hj with hlt | rfl
    · rw [if_neg (target_ne (by omega) (by omega) hlt.ne)]
      exact ih (Nat.le_of_succ_le hk) hlt
    · rw [if_pos rfl, read_partitionLoop_of_no_target xf spectrum h hn fun i hi =>
        target_ne (by omega) (by omega) hi.ne']

end PartitionLoop

/-! ### The block boundary (R136, R137, R140) -/

theorem clearDrained_accum_wf {f : FdState} (h : f.accum.wf) (B : Nat) : (f.clearDrained B).accum.wf :=
  Memory.wf_load h _ _

/-- R137: the words of `readBlock`, and no others, become `+0.0`. -/
theorem read_clearDrained {f : FdState} (h : f.accum.wf) {B n : Nat} (hn : n < B) (b : Nat) :
    (f.clearDrained B).accum.read (b * B + n) = if b = f.readBlock then 0#32 else f.accum.read (b * B + n) := by
  rw [FdState.clearDrained, Memory.read_load h, List.length_replicate]
  simp only [mem_row_iff hn]
  split
  next hrow => rw [hrow, Nat.add_sub_cancel_left, List.getD_replicate _ hn]
  next => rfl

theorem boundary_eq (xf : Xfm) (f : FdState) (B : Nat) :
    f.boundary xf B = (partitionLoop xf (f.frameSpectrum xf B) B (f.clearDrained B) f.p).rotate := rfl

/-- R140: beside the accumulator a boundary moves the cursors alone. -/
theorem boundary_frame (xf : Xfm) (f : FdState) (B : Nat) :
    f.boundary xf B =
      { f with accum := (f.boundary xf B).accum, readBlock := f.writeBlock, writeBlock := f.nextBlock,
               nextBlock := (f.nextBlock + 1) % f.r, writeIdx := 0 } := by
  rw [boundary_eq, partitionLoop_frame]
  rfl

theorem read_boundary_target (xf : Xfm) {f : FdState} {B j n : Nat} (h : f.accum.wf) (hp : f.p ≤ f.r) (hj : j < f.p)
    (hn : n < B) :
    (f.boundary xf B).accum.read ((f.writeBlock + j) % f.r * B + n) =
      fadd (if (f.writeBlock + j) % f.r = f.readBlock then 0#32 else f.accum.read ((f.writeBlock + j) % f.r * B + n))
        ((partitionResult xf (f.frameSpectrum xf B) B f j).getD (B + n) 0#32) := by
  rw [← read_clearDrained h hn]
  exact read_partitionLoop_target xf _ (clearDrained_accum_wf h B) hn hp hj

theorem read_boundary_of_no_target (xf : Xfm) {f : FdState} {B b n : Nat} (h : f.accum.wf)
    (hb : ∀ j < f.p, b ≠ (f.writeBlock + j) % f.r) (hn : n < B) :
    (f.boundary xf B).accum.read (b * B + n) = if b = f.readBlock then 0#32 else f.accum.read (b * B + n) := by
  rw [← read_clearDrained h hn]
  exact read_partitionLoop_of_no_target xf _ (clearDrained_accum_wf h B) hn hb

/-! ### `PROCESS` in FreqDomain mode (R141, R192) -/

theorem exec_process_fd {s : State} {L B : Nat} {f : FdState} {count : BitVec 24} {xs : List Word} (h : s.Inv)
    (heng : s.eng = some { irLength := L, blockLength := B, conv := .fd f }) (hlen : xs.length = countOf count) :
    exec (.process count xs) s =
      .next ((s.setEng (some { irLength := L, blockLength := B, conv := .fd (fdProcess deviceXfm B f xs).1 })).pushResponse
        ⟨0#32, (fdProcess deviceXfm B f xs).2⟩) :=
  exec_process heng hlen (inRange_of_inv (fdInv_of_stateInv h heng))

/-- An input of one sample is one step. -/
theorem fdProcess_singleton (xf : Xfm) (B : Nat) (f : FdState) (x : Word) :
    fdProcess xf B f [x] = ((fdStep xf B f x).1, [(fdStep xf B f x).2]) := by
  rw [fdProcess, stream_cons, stream_nil]

/-- Settles O28: away from the boundary the step stages the sample and moves the position on. -/
theorem processFreqDomainInsideBlock : Obligations.ProcessFreqDomainInsideBlock := by
  intro s L B f x hinv heng hinside
  have hfd : f.Inv L B := fdInv_of_stateInv hinv heng
  have hexec := exec_process_fd (count := 1#24) (xs := [x]) hinv heng rfl
  rw [fdProcess_singleton, fdStep_eq, if_neg hinside.ne] at hexec
  exact ⟨_, staged B f x, hexec, responded_pushResponse_setEng _ _ _, rfl, rfl, rfl,
    fun b i => read_stage (staging_wf_of_inv hfd) (writeIdx_lt_of_inv hfd) x b⟩

/-- Settles O29: the boundary's clearing, partition loop and rotation, of the convolver with the sample staged. -/
theorem processFreqDomainBlockBoundary : Obligations.ProcessFreqDomainBlockBoundary := by
  intro s L B f x hinv heng hlast
  have hfd : f.Inv L B := fdInv_of_stateInv hinv heng
  have hwf : (staged B f x).accum.wf := accum_wf_of_inv (f := f) hfd
  have hframe := boundary_frame deviceXfm (staged B f x) B
  have hstaging : ((staged B f x).boundary deviceXfm B).staging = (f.stage B x).staging := by rw [hframe]; rfl
  have hexec := exec_process_fd (count := 1#24) (xs := [x]) hinv heng rfl
  rw [fdProcess_singleton, fdStep_eq, if_pos hlast] at hexec
  refine ⟨_, (staged B f x).boundary deviceXfm B, hexec, responded_pushResponse_setEng _ _ _, rfl, rfl, ?_, ?_, ?_⟩
  · rw [hstaging]
    exact hframe
  · rw [hstaging]
    exact fun b i => read_stage (staging_wf_of_inv hfd) (writeIdx_lt_of_inv hfd) x b
  · rw [hstaging]
    exact ⟨fun j hj n hn => read_boundary_target deviceXfm hwf (p_le_r_of_inv (f := f) hfd) hj hn,
      fun b hb n hn => read_boundary_of_no_target deviceXfm hwf hb hn⟩

end Sys2Proof.FreqDomain
end

section
/-! SUPPORT and the statements of the multiply and of the transform in exact arithmetic. What a bin of `CMUL` holds (R171); then
R168: the turns `e^(2*pi*i*a/T)`, their sum over all bins, the round trip, and that the product of two spectra is the spectrum of
the circular convolution. -/

namespace Sys2Proof.SpectralTransform

open Sys2Proof Sys2Proof.Machine Sys2Proof.RingBuffer

/-! ### The complex multiply (R171) -/

section Multiply

variable {B k : Nat} (hk : k ≤ B) (x h : Spectrum) (s : Word)
include hk

/-- Bin `k` of an array made bin by bin. -/
theorem getD_map_range_succ (f : Nat → Word) : ((List.range (B + 1)).map f).getD k 0#32 = f k := by
  have hlt : k < ((List.range (B + 1)).map f).length := by simpa using Nat.lt_succ_of_le hk
  rw [List.getD_eq_getElem _ _ hlt, List.getElem_map, List.getElem_range]

theorem cmul_re_getD : (cmul B x h s).re.getD k 0#32 =
    (cmulBin (x.re.getD k 0#32) (x.im.getD k 0#32) (h.re.getD k 0#32) (h.im.getD k 0#32) s).1 :=
  getD_map_range_succ hk _

theorem cmul_im_getD : (cmul B x h s).im.getD k 0#32 =
    (cmulBin (x.re.getD k 0#32) (x.im.getD k 0#32) (h.re.getD k 0#32) (h.im.getD k 0#32) s).2 :=
  getD_map_range_succ hk _

end Multiply

/-- Settles O51: the lanes are independent, and a lane is `cmulBin`, whose two parts have the nesting of R171. -/
theorem complexMultiplyBins : Obligations.ComplexMultiplyBins := by
  intro B x h s
  exact ⟨cmul_re_length B x h s, cmul_im_length B x h s,
    fun k hk => ⟨cmul_re_getD hk x h s, cmul_im_getD hk x h s⟩⟩

/-! ### Indices modulo the transform's size -/

/-- Two indices below `T` are congruent modulo `T` only if they are equal. -/
theorem dvd_sub_iff_eq {m n T : ℕ} (hm : m < T) (hn : n < T) : (T : ℤ) ∣ n - m ↔ m = n := by
  rw [← Nat.modEq_iff_dvd]
  exact ⟨fun hmod => hmod.eq_of_lt_of_lt hm hn, fun heq => heq ▸ rfl⟩

theorem natCast_wrap (a : ℤ) {n : ℕ} (h : 0 < n) : (wrap a n : ℤ) = a % n :=
  Int.toNat_of_nonneg (Int.emod_nonneg a (by omega))

/-- A remainder taken before an addition modulo `n` does not change the sum. -/
theorem wrap_wrap_add (a b : ℤ) {n : ℕ} (h : 0 < n) : wrap (wrap a n + b) n = wrap (a + b) n := by
  rw [wrap, natCast_wrap a h, Int.emod_add_emod, wrap]

/-- A rotation of the indices below `n` permutes them, so a sum over them does not notice it. -/
theorem sum_wrap_sub {n : ℕ} (h : 0 < n) (b : ℤ) (f : ℕ → ℂ) :
    ∑ a ∈ Finset.range n, f (wrap (a - b) n) = ∑ a ∈ Finset.range n, f a := by
  refine Finset.sum_nbij' (fun a => wrap ((a : ℤ) - b) n) (fun a => wrap ((a : ℤ) + b) n) ?_ ?_ ?_ ?_ fun _ _ => rfl
  · exact fun a _ => Finset.mem_range.mpr (wrap_lt _ h)
  · exact fun a _ => Finset.mem_range.mpr (wrap_lt _ h)
  · intro a ha
    rw [wrap_wrap_add _ _ h, sub_add_cancel, wrap_natCast, Nat.mod_eq_of_lt (Finset.mem_range.mp ha)]
  · intro a ha
    rw [sub_eq_add_neg, wrap_wrap_add _ _ h, add_neg_cancel_right, wrap_natCast,
      Nat.mod_eq_of_lt (Finset.mem_range.mp ha)]

/-! ### Turns -/

/-- `e^(2*pi*i*a/T)` with `T = 2*B`: the unit circle walked `a` steps of `T`. -/
noncomputable def turn (B : ℕ) (a : ℤ) : ℂ := Complex.exp (2 * Real.pi * Complex.I / (2 * B : ℕ)) ^ a

theorem turn_add (B : ℕ) (a b : ℤ) : turn B (a + b) = turn B a * turn B b := zpow_add₀ (Complex.exp_ne_zero _) a b

theorem turn_nat_mul (B k : ℕ) (a : ℤ) : turn B (k * a) = turn B a ^ k := by
  rw [turn, turn, mul_comm (k : ℤ), zpow_mul, zpow_natCast]

/-- The exponentials of R167 are turns. -/
theorem exp_binAngle (B k n : ℕ) : Complex.exp ((binAngle B k n : ℂ) * Complex.I) = turn B (k * n) := by
  rw [turn, ← Complex.exp_int_mul, binAngle]
  congr 1
  push_cast
  ring

/-- The exponentials of R166 are turns the other way. -/
theorem exp_neg_binAngle (B k n : ℕ) : Complex.exp (-(binAngle B k n : ℂ) * Complex.I) = turn B (-(k * n)) := by
  rw [neg_mul, Complex.exp_neg, exp_binAngle, turn, turn, zpow_neg]

section

variable {B : ℕ} (hB : 1 ≤ B)
include hB

/-- The walk is back at 1 after every `T` steps and at no other time. -/
theorem turn_eq_one_iff (a : ℤ) : turn B a = 1 ↔ ((2 * B : ℕ) : ℤ) ∣ a :=
  (Complex.isPrimitiveRoot_exp (2 * B) (by omega)).zpow_eq_one_iff_dvd a

/-- Orthogonality of the bins: the turns of all `T` bins by `a` cancel, unless every one of them is 1. -/
theorem sum_turn (a : ℤ) :
    ∑ k ∈ Finset.range (2 * B), turn B (k * a) = if ((2 * B : ℕ) : ℤ) ∣ a then ((2 * B : ℕ) : ℂ) else 0 := by
  simp only [turn_nat_mul]
  split
  next hdvd => simp [(turn_eq_one_iff hB a).mpr hdvd]
  next hndvd =>
    have hne : turn B a ≠ 1 := fun hone => hndvd ((turn_eq_one_iff hB a).mp hone)
    have hround : turn B a ^ (2 * B) = 1 := by
      rw [← turn_nat_mul, turn_eq_one_iff hB]
      exact dvd_mul_right _ a
    rw [geom_sum_eq hne, hround, sub_self, zero_div]

/-- Only the remainder of the sample's index modulo `T` counts. -/
theorem turn_mul_wrap (k : ℕ) (a : ℤ) : turn B (-(k * wrap a (2 * B))) = turn B (-(k * a)) := by
  have hone : turn B (k * (a - wrap a (2 * B))) = 1 :=
    (turn_eq_one_iff hB _).mpr (dvd_mul_of_dvd_right (dvd_sub_wrap a (by omega)) _)
  calc turn B (-(k * wrap a (2 * B)))
      = turn B (-(k * a) + k * (a - wrap a (2 * B))) := by congr 1; ring
    _ = turn B (-(k * a)) := by rw [turn_add, hone, mul_one]

end

/-! ### The forward transform in turns (R166) -/

/-- The bin of the forward transform as one complex number. -/
noncomputable def fwdBin (B : ℕ) (x : ℕ → ℝ) (k : ℕ) : ℂ := ⟨realFwdRe B x k, realFwdIm B x k⟩

theorem fwdBin_eq_sum (B : ℕ) (x : ℕ → ℝ) (k : ℕ) :
    fwdBin B x k = ∑ m ∈ Finset.range (2 * B), (x m : ℂ) * turn B (-(k * m)) := by
  simp only [fwdBin, realFwd_eq_exp, exp_neg_binAngle]

section

variable {B : ℕ} (hB : 1 ≤ B)
include hB

theorem realFwdRe_reflect {k : ℕ} (hk : k ≤ 2 * B) (x : ℕ → ℝ) : realFwdRe B x (2 * B - k) = realFwdRe B x k := by
  simp only [realFwdRe, binAngle_reflect hB hk, Real.cos_nat_mul_two_pi_sub]

theorem realFwdIm_reflect {k : ℕ} (hk : k ≤ 2 * B) (x : ℕ → ℝ) : realFwdIm B x (2 * B - k) = -realFwdIm B x k := by
  simp only [realFwdIm, binAngle_reflect hB hk, Real.sin_nat_mul_two_pi_sub, mul_neg, Finset.sum_neg_distrib]

/-- The bins above `B` that the half spectrum leaves out are those of the sums of R166. -/
theorem bin_fwd {k : ℕ} (hk : k ≤ 2 * B) (x : ℕ → ℝ) : (realXfm.fwd B x).bin B k = fwdBin B x k := by
  unfold RealSpectrum.bin fwdBin
  split
  next => rfl
  next => simp only [realXfm_fwd_re, realXfm_fwd_im, realFwdRe_reflect hB hk, realFwdIm_reflect hB hk, neg_neg]

/-! ### The round trip (R168) -/

theorem sum_fwdBin_mul_turn (x : ℕ → ℝ) {n : ℕ} (hn : n < 2 * B) :
    ∑ k ∈ Finset.range (2 * B), fwdBin B x k * turn B (k * n) = ((2 * B : ℕ) : ℂ) * x n := by
  calc ∑ k ∈ Finset.range (2 * B), fwdBin B x k * turn B (k * n)
      = ∑ k ∈ Finset.range (2 * B), ∑ m ∈ Finset.range (2 * B), (x m : ℂ) * turn B (k * ((n : ℤ) - m)) := by
        refine Finset.sum_congr rfl fun k _ => ?_
        rw [fwdBin_eq_sum, Finset.sum_mul]
        refine Finset.sum_congr rfl fun m _ => ?_
        rw [mul_assoc, ← turn_add]
        congr 2
        ring
    _ = ∑ m ∈ Finset.range (2 * B), (x m : ℂ) * ∑ k ∈ Finset.range (2 * B), turn B (k * ((n : ℤ) - m)) := by
        rw [Finset.sum_comm]
        simp only [Finset.mul_sum]
    _ = ∑ m ∈ Finset.range (2 * B), if m = n then (x m : ℂ) * ((2 * B : ℕ) : ℂ) else 0 := by
        refine Finset.sum_congr rfl fun m hm => ?_
        simp only [sum_turn hB, dvd_sub_iff_eq (Finset.mem_range.mp hm) hn, mul_ite, mul_zero]
    _ = ((2 * B : ℕ) : ℂ) * x n := by
        rw [Finset.sum_ite_eq', if_pos (Finset.mem_range.mpr hn), mul_comm]

/-- The first sentence of R168. -/
theorem realInv_fwd (x : ℕ → ℝ) {n : ℕ} (hn : n < 2 * B) :
    realInv B (realXfm.fwd B x) n = ((2 * B : ℕ) : ℝ) * x n := by
  have hbins : ∀ k ∈ Finset.range (2 * B), (realXfm.fwd B x).bin B k * Complex.exp ((binAngle B k n : ℂ) * Complex.I) =
      fwdBin B x k * turn B (k * n) := fun k hk => by
    rw [bin_fwd hB (Finset.mem_range.mp hk).le, exp_binAngle]
  rw [realInv_eq_exp hB, Finset.sum_congr rfl hbins, sum_fwdBin_mul_turn hB x hn, ← Complex.ofReal_natCast,
    ← Complex.ofReal_mul, Complex.ofReal_re]

/-! ### The convolution theorem (R168) -/

/-- A block rotated by `m` samples has the same spectrum, turned by `m`. -/
theorem fwdBin_rotated (x : ℕ → ℝ) (k m : ℕ) :
    fwdBin B (fun n => x (wrap ((n : ℤ) - m) (2 * B))) k = turn B (-(k * m)) * fwdBin B x k := by
  have hterm : ∀ n ∈ Finset.range (2 * B), (x (wrap ((n : ℤ) - m) (2 * B)) : ℂ) * turn B (-(k * n)) =
      turn B (-(k * m)) * (x (wrap ((n : ℤ) - m) (2 * B)) * turn B (-(k * wrap ((n : ℤ) - m) (2 * B)))) := fun n _ => by
    have hturn : turn B (-(k * n)) = turn B (-(k * m)) * turn B (-(k * ((n : ℤ) - m))) := by
      rw [← turn_add]
      congr 1
      ring
    rw [turn_mul_wrap hB, hturn]
    ring
  rw [fwdBin_eq_sum, fwdBin_eq_sum, Finset.sum_congr rfl hterm, ← Finset.mul_sum,
    sum_wrap_sub (by omega) m fun l => (x l : ℂ) * turn B (-(k * l))]

/-- The spectrum of a circular convolution is the product of the spectra. -/
theorem fwdBin_circularConvolution (x h : ℕ → ℝ) (k : ℕ) :
    fwdBin B (circularConvolution B x h) k = fwdBin B x k * fwdBin B h k := by
  calc fwdBin B (circularConvolution B x h) k
      = ∑ m ∈ Finset.range (2 * B), (h m : ℂ) * fwdBin B (fun n => x (wrap ((n : ℤ) - m) (2 * B))) k := by
        simp only [fwdBin_eq_sum, circularConvolution, Complex.ofReal_sum, Complex.ofReal_mul, Finset.sum_mul,
          Finset.mul_sum, mul_assoc]
        exact Finset.sum_comm
    _ = ∑ m ∈ Finset.range (2 * B), fwdBin B x k * ((h m : ℂ) * turn B (-(k * m))) := by
        refine Finset.sum_congr rfl fun m _ => ?_
        rw [fwdBin_rotated hB]
        ring
    _ = fwdBin B x k * fwdBin B h k := by rw [← Finset.mul_sum, ← fwdBin_eq_sum]

/-- The second sentence of R168: the product is the spectrum of the circular convolution, whose round trip is the first sentence. -/
theorem realInv_mul_fwd (x h : ℕ → ℝ) {n : ℕ} (hn : n < 2 * B) :
    realInv B ((realXfm.fwd B x).mul (realXfm.fwd B h)) n = ((2 * B : ℕ) : ℝ) * circularConvolution B x h n := by
  rw [← realInv_fwd hB _ hn]
  refine realInv_congr (fun k _ => ?_) (fun k _ _ => ?_) n
  · exact (congrArg Complex.re (fwdBin_circularConvolution hB x h k)).symm
  · exact (congrArg Complex.im (fwdBin_circularConvolution hB x h k)).symm

end

/-- Settles O60: the first sentence of R168 by the orthogonality of the bins, the second by the convolution theorem. -/
theorem transformRoundTripAndConvolution : Obligations.TransformRoundTripAndConvolution := by
  intro B hB x h n hn
  exact ⟨realInv_fwd hB x hn, realInv_mul_fwd hB x h hn⟩

end Sys2Proof.SpectralTransform
end

section
/-! SUPPORT and the statement of the engine's `RESET`. What it answers in each of the three cases that R215 tests in order: on an
uninitialised engine, with a payload, and on an initialised engine without one (R194). -/

namespace Sys2Proof.EngineCommands

open Sys2Proof Sys2Proof.Machine Sys2Proof.RingBuffer

/-- A taken error is the state with the failed command's response and nothing else (R210, R216). -/
theorem raise_eq_failed (st : Status) (s : State) : raise st s = .next (s.failed st) := rfl

theorem initialized_of_eng_ne_none {s : State} (h : s.eng ≠ none) : s.initialized = true :=
  Option.isSome_iff_ne_none.2 h

/-- The engine state is tested first, so the payload plays no part (R212, R215). -/
theorem exec_reset_of_uninitialized {s : State} (h : s.eng = none) (pl : List Word) :
    exec (.reset pl) s = .next (s.failed .illegalCall) := by
  have hflag : s.initialized = false := (not_initialized_iff s).2 h
  rw [← raise_eq_failed]
  simp [exec, execReset, hflag]

/-- `RESET` has no operand (R69, R213). -/
theorem exec_reset_of_payload {s : State} (h : s.eng ≠ none) {pl : List Word} (hpl : pl ≠ []) :
    exec (.reset pl) s = .next (s.failed .invalidArg) := by
  rw [← raise_eq_failed]
  simp [exec, execReset, initialized_of_eng_ne_none h, hpl]

/-- The release itself (R15, R194). -/
theorem exec_reset_of_initialized {s : State} (h : s.eng ≠ none) :
    exec (.reset []) s = .next ((s.setEng none).pushResponse ⟨0#32, []⟩) := by
  have hexec : exec (.reset []) s = respond [] (s.setEng none) := by
    simp [exec, execReset, initialized_of_eng_ne_none h]
  exact hexec.trans (respond_eq_next.2 rfl)

/-- Settles O32: the row of `RESET` fixes the whole header, and the three answers stand in the order of R215. -/
theorem engineResetReleases : Obligations.EngineResetReleases := by
  intro s pl
  exact ⟨decode_of_row (r := ⟨.reset, 0x04000000#32, 0xFFFFFFFF#32⟩) (by decide) rfl pl,
    fun hnone => exec_reset_of_uninitialized hnone pl, fun heng => exec_reset_of_payload heng, exec_reset_of_initialized⟩

end Sys2Proof.EngineCommands
end

section
/-! SUPPORT and the statements of the status codes. The order of R215 stands once, in `Ruling`: which test decides the answer of
a command, and what the answer then is. `exec_ruling` ties it to `exec`; the lists of causes in R212 to R214 and the rule of
R210 are read off it. -/

namespace Sys2Proof.Exceptions

open Sys2Proof Sys2Proof.Machine Sys2Proof.RingBuffer Sys2Proof.EngineCommands

/-! ### The order of the tests (R215) -/

/-- `INIT` with both lengths asks for more than the build holds (R214); no other command asks for storage. -/
def asksBeyondCapacity : Instr → State → Prop
  | .init mode (irLength :: blockLength :: _), s =>
    beyondCapacity s.limits mode irLength.toNat blockLength.toNat
  | _, _ => False

/-- What a command that passes every test comes to: the access fault that R55 rules out, or one response with `OK`. -/
def Executed (s : State) (o : Host.Outcome State Fault Refusal) : Prop :=
  o = .fault .outsideArray ∨ ∃ t payload, o = .next t ∧ Responded s t .ok payload

/-- R215: the engine state is tested first, then the payload count and the operand values, then the capacities; the first
test that fails decides the answer, which is then that error and nothing else (R210). -/
inductive Ruling (i : Instr) (s : State) : Host.Outcome State Fault Refusal → Prop where
  | illegalCall (hstate : ¬engineStateOk i s) : Ruling i s (raise .illegalCall s)
  | invalidArg (hstate : engineStateOk i s) (hbad : i.wellFormed = false ∨ argumentsBad i s) :
      Ruling i s (raise .invalidArg s)
  | allocFail (hstate : engineStateOk i s) (hwf : i.wellFormed = true) (hgood : ¬argumentsBad i s)
      (hbeyond : asksBeyondCapacity i s) : Ruling i s (raise .allocFail s)
  | executed {o : Host.Outcome State Fault Refusal} (hstate : engineStateOk i s) (hwf : i.wellFormed = true)
      (hgood : ¬argumentsBad i s) (hfits : ¬asksBeyondCapacity i s) (hrun : Executed s o) : Ruling i s o

/-! ### Commands that pass the tests -/

theorem executed_respond {s t : State} (payload : List Word) (hresp : t.responses = s.responses)
    (hin : t.inputs = s.inputs) (hlim : t.limits = s.limits) : Executed s (respond payload t) :=
  .inr ⟨_, payload, rfl, congrArg (· ++ [_]) hresp, hin, hlim⟩

theorem executed_dlAccess {s : State} {k : Host.Outcome State Fault Refusal} (idx : Nat) (h : Executed s k) :
    Executed s (dlAccess s idx k) := by
  rcases dlAccess_eq (s := s) (idx := idx) (k := k) with ⟨-, hk⟩ | ⟨-, hfault⟩
  · rwa [hk]
  · exact .inl hfault

theorem executed_finishStream (s : State) (r : Engine × List Word) : Executed s (finishStream s r) :=
  executed_respond r.2 rfl rfl rfl

/-! ### The `DL` commands -/

/-- The default offset never fails, whatever the ring (R92, R102). -/
theorem get_zero_ne_none (r : Ring) : r.get 0#32 ≠ none := by
  have hview : view 0#32 = .finite false 0 := by decide
  have hfrac : fsub 0#32 (flInt (floorFinite false 0)) = 0#32 := by decide +kernel
  have hzero : (geZero 0#32 && ltOne 0#32) = true ∧ eqZero 0#32 = true := by decide
  simp [Ring.get, hview, hfrac, hzero]

/-- `DL.GET` at an offset where `RB_get` does not fail. -/
theorem executed_dlGetAt {s : State} {offset : Word} (h : s.dl.get offset ≠ none) : Executed s (dlGetAt offset s) := by
  obtain ⟨v, hv⟩ := Option.ne_none_iff_exists'.1 h
  have hrun : dlGetAt offset s = dlAccess s 0 (respond [v] s) := by simp [dlGetAt, hv]
  rw [hrun]
  exact executed_dlAccess 0 (executed_respond [v] rfl rfl rfl)

theorem engineStateOk_of_dl {i : Instr} (hdl : engineCommand i = false) (s : State) : engineStateOk i s := by
  cases i with
  | init | process | flush | reset => simp [engineCommand] at hdl
  | _ => trivial

/-- A `DL` command with its payload count and no bad operand is executed. -/
theorem executed_dl {i : Instr} {s : State} (hdl : engineCommand i = false) (hwf : i.wellFormed = true)
    (hgood : ¬argumentsBad i s) : Executed s (exec i s) := by
  cases i with
  | init | process | flush | reset => simp [engineCommand] at hdl
  | dlPut pl | dlPutAdv pl =>
    match pl, hwf with
    | [_], _ => exact executed_dlAccess _ (executed_respond _ rfl rfl rfl)
  | dlSetRd pl | dlSetWr pl =>
    match pl, hwf with
    | [_], _ => exact executed_respond _ rfl rfl rfl
  | dlGet pl =>
    match pl, hwf with
    | [], _ => exact executed_dlGetAt (get_zero_ne_none s.dl)
    | [_], _ => exact executed_dlGetAt hgood
  | dlGetAdv pl =>
    match pl, hwf with
    | [], _ => exact executed_dlAccess _ (executed_respond _ rfl rfl rfl)
  | dlReset pl | dlNum pl =>
    match pl, hwf with
    | [], _ => exact executed_respond _ rfl rfl rfl

/-- The one bad operand of a `DL` command is the offset of `DL.GET` (R102, R213). -/
theorem exec_dl_of_argumentsBad {i : Instr} {s : State} (hdl : engineCommand i = false) (hbad : argumentsBad i s) :
    exec i s = raise .invalidArg s := by
  cases i with
  | init | process | flush | reset => simp [engineCommand] at hdl
  | dlPut | dlPutAdv | dlSetRd | dlSetWr | dlGetAdv | dlReset | dlNum => exact hbad.elim
  | dlGet pl =>
    match pl, hbad with
    | [offset], hfail => exact dlGetAt_eq_next.2 (.inl ⟨hfail, rfl⟩)

theorem not_asksBeyondCapacity_dl {i : Instr} (hdl : engineCommand i = false) (s : State) : ¬asksBeyondCapacity i s := by
  cases i with
  | init | process | flush | reset => simp [engineCommand] at hdl
  | _ => exact id

theorem ruling_dl {i : Instr} (hdl : engineCommand i = false) (s : State) : Ruling i s (exec i s) := by
  have hstate := engineStateOk_of_dl hdl s
  cases hwf : i.wellFormed with
  | false => exact exec_of_illFormed i hdl hwf s ▸ .invalidArg hstate (.inl hwf)
  | true =>
    by_cases hbad : argumentsBad i s
    · exact exec_dl_of_argumentsBad hdl hbad ▸ .invalidArg hstate (.inr hbad)
    · exact .executed hstate hwf hbad (not_asksBeyondCapacity_dl hdl s) (executed_dl hdl hwf hbad)

/-! ### `PROCESS`, `FLUSH` and `RESET` -/

/-- What `PROCESS` and `FLUSH` share on an initialised engine: the payload count, then the convolver's run (R192, R193). -/
theorem ruling_streaming {i : Instr} {s : State} {pl : List Word} {due : Nat} (e : Engine) (r : Engine × List Word)
    (hstate : engineStateOk i s) (hwf : i.wellFormed = (pl.length == due)) (hgood : ¬argumentsBad i s)
    (hfits : ¬asksBeyondCapacity i s) :
    Ruling i s (if pl.length ≠ due then raise .invalidArg s
      else if e.inRange then finishStream s r else .fault .outsideArray) := by
  by_cases hlen : pl.length = due
  · rw [if_neg (not_not.2 hlen)]
    refine .executed hstate (hwf.trans (beq_iff_eq.2 hlen)) hgood hfits ?_
    split
    next => exact executed_finishStream s r
    next => exact .inl rfl
  · rw [if_pos hlen]
    exact .invalidArg hstate (.inl (hwf.trans (beq_false_of_ne hlen)))

theorem ruling_process (count : BitVec 24) (pl : List Word) (s : State) :
    Ruling (.process count pl) s (exec (.process count pl) s) := by
  cases heng : s.eng with
  | none =>
    simp only [exec, execProcess, heng]
    exact .illegalCall (not_not.2 heng)
  | some e =>
    simp only [exec, execProcess, heng]
    exact ruling_streaming e _ (Option.ne_none_iff_exists'.2 ⟨e, heng⟩) rfl id id

theorem ruling_flush (pl : List Word) (s : State) : Ruling (.flush pl) s (exec (.flush pl) s) := by
  cases heng : s.eng with
  | none =>
    simp only [exec, execFlush, heng]
    exact .illegalCall (not_not.2 heng)
  | some e =>
    simp only [exec, execFlush, heng]
    exact ruling_streaming e _ (Option.ne_none_iff_exists'.2 ⟨e, heng⟩) rfl id id

theorem ruling_reset (pl : List Word) (s : State) : Ruling (.reset pl) s (exec (.reset pl) s) := by
  by_cases hnone : s.eng = none
  · exact exec_reset_of_uninitialized hnone pl ▸ .illegalCall (not_not.2 hnone)
  · by_cases hpl : pl = []
    · subst hpl
      exact exec_reset_of_initialized hnone ▸ .executed hnone rfl id id (executed_respond [] rfl rfl rfl)
    · exact exec_reset_of_payload hnone hpl ▸ .invalidArg hnone (.inl (by simpa [Instr.wellFormed] using hpl))

/-! ### `INIT` -/

/-- A positive i32 operand is the unsigned value of its word (R65). -/
theorem toNat_i32 {w : Word} (h : 0 < i32 w) : (i32 w).toNat = w.toNat := by
  rw [i32, BitVec.toInt_eq_toNat_cond] at h ⊢
  split at h <;> omega

/-- The modes of R66, and the values that are none. -/
theorem modeOf_cases (mode : BitVec 8) :
    (modeOf mode = none ∧ 2 ≤ mode.toNat) ∨
    ∃ m, modeOf mode = some m ∧ mode.toNat < 2 ∧ (m = .freqDomain ↔ mode = 1#8) := by
  by_cases h0 : mode = 0#8
  · exact .inr ⟨.timeDomain, by simp [modeOf, h0], by simp [h0], by simp [h0]⟩
  · by_cases h1 : mode = 1#8
    · exact .inr ⟨.freqDomain, by simp [modeOf, h1], by simp [h1], by simp [h1]⟩
    · exact .inl ⟨by simp [modeOf, h0, h1], by bv_omega⟩

/-- The tests of `INIT` on an uninitialised engine, once its two lengths are there (R191): their signs, the mode, the count of
coefficients, the capacities. -/
theorem ruling_init_of_lengths (mode : BitVec 8) (irLength blockLength : Word) (ir : List Word) {s : State}
    (hstate : s.eng = none) :
    Ruling (.init mode (irLength :: blockLength :: ir)) s (exec (.init mode (irLength :: blockLength :: ir)) s) := by
  have hflag : s.initialized = false := (not_initialized_iff s).2 hstate
  simp only [exec, execInit, hflag, Bool.false_eq_true, if_false]
  by_cases hneg : i32 irLength ≤ 0 ∨ i32 blockLength ≤ 0
  · rw [if_pos hneg]
    exact .invalidArg hstate (.inr (or_assoc.1 (.inl hneg)))
  rw [if_neg hneg]
  obtain ⟨hL, hB⟩ : 0 < i32 irLength ∧ 0 < i32 blockLength := by omega
  rcases modeOf_cases mode with ⟨hmode, hbad⟩ | ⟨m, hmode, hknown, hfreq⟩
  · simp only [hmode]
    exact .invalidArg hstate (.inr (.inr (.inr hbad)))
  have hgood : ¬argumentsBad (.init mode (irLength :: blockLength :: ir)) s := by
    rintro (hir | hblock | hbad)
    · exact hneg (.inl hir)
    · exact hneg (.inr hblock)
    · exact absurd hbad (Nat.not_le.2 hknown)
  have hwf : (Instr.init mode (irLength :: blockLength :: ir)).wellFormed = ((ir.length : Int) == i32 irLength) :=
    if_pos ⟨hL, hB⟩
  simp only [hmode, hfreq, toNat_i32 hL, toNat_i32 hB]
  split_ifs with hlen hir hfd
  · exact .invalidArg hstate (.inl (hwf.trans (beq_false_of_ne hlen)))
  · exact .allocFail hstate (hwf.trans (beq_iff_eq.2 (not_not.1 hlen))) hgood (.inl hir)
  · exact .allocFail hstate (hwf.trans (beq_iff_eq.2 (not_not.1 hlen))) hgood (.inr hfd)
  · exact .executed hstate (hwf.trans (beq_iff_eq.2 (not_not.1 hlen))) hgood (not_or.2 ⟨hir, hfd⟩)
      (executed_respond [] rfl rfl rfl)

theorem ruling_init (mode : BitVec 8) (pl : List Word) (s : State) : Ruling (.init mode pl) s (exec (.init mode pl) s) := by
  by_cases hstate : s.eng = none
  · match pl with
    | irLength :: blockLength :: ir => exact ruling_init_of_lengths mode irLength blockLength ir hstate
    | [] | [_] =>
      have hflag : s.initialized = false := (not_initialized_iff s).2 hstate
      simp only [exec, execInit, hflag]
      exact .invalidArg hstate (.inl rfl)
  · have hexec : exec (.init mode pl) s = raise .illegalCall s := by
      simp [exec, execInit, initialized_of_eng_ne_none hstate]
    exact hexec ▸ .illegalCall hstate

/-- Every command is answered by the first of the tests of R215 that it fails. -/
theorem exec_ruling (i : Instr) (s : State) : Ruling i s (exec i s) := by
  cases i with
  | init mode pl => exact ruling_init mode pl s
  | process count pl => exact ruling_process count pl s
  | flush pl => exact ruling_flush pl s
  | reset pl => exact ruling_reset pl s
  | _ => exact ruling_dl rfl s

/-! ### The status of an outcome -/

theorem respondsWith_raise {st st' : Status} {s : State} : RespondsWith (raise st s) s st' ↔ st' = st := by
  constructor
  · rintro ⟨t, payload, hnext, hresp⟩
    obtain rfl := raise_eq_next.1 hnext
    obtain ⟨hword, -⟩ : st.word = st'.word ∧ [] = payload := by simpa using hresp
    exact (statusWord_injective hword).symm
  · rintro rfl
    exact ⟨_, [], rfl, rfl⟩

/-- An executed command answers no error. -/
theorem ok_of_executed {o : Host.Outcome State Fault Refusal} {s : State} {st : Status} (hrun : Executed s o)
    (h : RespondsWith o s st) : st = .ok := by
  obtain ⟨t, payload, hnext, hresp⟩ := h
  rcases hrun with hfault | ⟨t', payload', hnext', hok, -⟩
  · simp [hfault] at hnext
  · obtain rfl : t' = t := by simpa [hnext'] using hnext
    obtain ⟨hword, -⟩ : Status.ok.word = st.word ∧ payload' = payload := by simpa [hok] using hresp
    exact (statusWord_injective hword).symm

section Ruling
variable {i : Instr} {s : State} {o : Host.Outcome State Fault Refusal}

/-- An error is answered by `raise`, so it leaves no other trace (R210). -/
theorem Ruling.eq_raise (h : Ruling i s o) {st : Status} (hne : st ≠ .ok) (hresp : RespondsWith o s st) :
    o = raise st s := by
  cases h with
  | illegalCall | invalidArg | allocFail => rw [respondsWith_raise.1 hresp]
  | executed _ _ _ _ hrun => exact absurd (ok_of_executed hrun hresp) hne

theorem Ruling.respondsWith_illegalCall_iff (h : Ruling i s o) :
    RespondsWith o s .illegalCall ↔ ¬engineStateOk i s := by
  cases h with
  | illegalCall hstate => simp [respondsWith_raise, hstate]
  | invalidArg hstate | allocFail hstate => simp [respondsWith_raise, hstate]
  | executed hstate _ _ _ hrun => simpa [hstate] using fun hresp => nomatch ok_of_executed hrun hresp

theorem Ruling.respondsWith_invalidArg_iff (h : Ruling i s o) :
    RespondsWith o s .invalidArg ↔ engineStateOk i s ∧ (i.wellFormed = false ∨ argumentsBad i s) := by
  cases h with
  | illegalCall hstate => simp [respondsWith_raise, hstate]
  | invalidArg hstate hbad => simp [respondsWith_raise, hstate, hbad]
  | allocFail _ hwf hgood => simp [respondsWith_raise, hwf, hgood]
  | executed _ hwf hgood _ hrun => simpa [hwf, hgood] using fun hresp => nomatch ok_of_executed hrun hresp

theorem Ruling.respondsWith_allocFail_iff (h : Ruling i s o) :
    RespondsWith o s .allocFail ↔
      engineStateOk i s ∧ i.wellFormed = true ∧ ¬argumentsBad i s ∧ asksBeyondCapacity i s := by
  cases h with
  | illegalCall hstate => simp [respondsWith_raise, hstate]
  | invalidArg _ hbad =>
    rcases hbad with hwf | hbad
    · simp [respondsWith_raise, hwf]
    · simp [respondsWith_raise, hbad]
  | allocFail hstate hwf hgood hbeyond => simp [respondsWith_raise, hstate, hwf, hgood, hbeyond]
  | executed _ _ _ hfits hrun => simpa [hfits] using fun hresp => nomatch ok_of_executed hrun hresp

end Ruling

/-! ### The statements of the status codes -/

/-- The two lists of R212 are the engine states that R190 does not allow. -/
theorem not_engineStateOk_iff (i : Instr) (s : State) :
    ¬engineStateOk i s ↔
      ((∃ mode pl, i = .init mode pl) ∧ s.eng ≠ none) ∨
      ((∃ count pl, i = .process count pl) ∨ (∃ pl, i = .flush pl) ∨ (∃ pl, i = .reset pl)) ∧ s.eng = none := by
  cases i <;> simp [engineStateOk]

/-- Settles O33: the engine state is the first test of R215, so its failures are all there is. -/
theorem illegalCallCauses : Obligations.IllegalCallCauses := by
  intro i s
  have h := exec_ruling i s
  exact ⟨h.respondsWith_illegalCall_iff.trans (not_engineStateOk_iff i s), h.eq_raise (by decide)⟩

/-- Settles O34: a header that selects no row is answered before any command; a command answers by its ruling. -/
theorem invalidArgCauses : Obligations.InvalidArgCauses := by
  intro p s
  rcases runPacket_cases p s with ⟨i, hdec, hrun⟩ | ⟨e, hdec, hrun⟩
  · have h := exec_ruling i s
    rw [hrun]
    exact ⟨by simpa [hdec] using h.respondsWith_invalidArg_iff, h.eq_raise (by decide)⟩
  · rw [hrun]
    exact ⟨by simp [respondsWith_raise, hdec], fun _ => rfl⟩

theorem asksBeyondCapacity_iff (i : Instr) (s : State) :
    asksBeyondCapacity i s ↔ ∃ mode irLength blockLength ir, i = .init mode (irLength :: blockLength :: ir) ∧
      beyondCapacity s.limits mode irLength.toNat blockLength.toNat := by
  constructor
  · intro h
    match i, h with
    | .init mode (irLength :: blockLength :: ir), h => exact ⟨mode, irLength, blockLength, ir, rfl, h⟩
  · rintro ⟨mode, irLength, blockLength, ir, rfl, h⟩
    exact h

/-- Settles O35: the capacities are the last test of R215, and only `INIT` has one. -/
theorem allocFailCauses : Obligations.AllocFailCauses := by
  intro i s
  have h := exec_ruling i s
  refine ⟨h.respondsWith_allocFail_iff.trans ?_, h.eq_raise (by decide)⟩
  rw [asksBeyondCapacity_iff]
  constructor
  · rintro ⟨hstate, hwf, hgood, mode, irLength, blockLength, ir, rfl, hbeyond⟩
    exact ⟨mode, irLength, blockLength, ir, rfl, hstate, hwf, hgood, hbeyond⟩
  · rintro ⟨mode, irLength, blockLength, ir, rfl, hstate, hwf, hgood, hbeyond⟩
    exact ⟨hstate, hwf, hgood, mode, irLength, blockLength, ir, rfl, hbeyond⟩

/-- A completed answer: `OK` with whatever the command did, or an error that is the status word alone (R210). -/
def Answered (s t : State) : Prop :=
  (∃ payload, Responded s t .ok payload) ∨ ∃ st, t = s.failed st

theorem Ruling.answered {i : Instr} {s t : State} (h : Ruling i s (.next t)) : Answered s t := by
  generalize ho : Host.Outcome.next t = o at h
  cases h with
  | illegalCall | invalidArg | allocFail => exact .inr ⟨_, raise_eq_next.1 ho.symm⟩
  | executed _ _ _ _ hrun =>
    rcases hrun with hfault | ⟨t', payload, hnext, hok⟩
    · simp [← ho] at hfault
    · obtain rfl : t = t' := by simpa [← ho] using hnext
      exact .inl ⟨payload, hok⟩

theorem runPacket_answered {p : Packet} {s t : State} (hnext : runPacket p s = .next t) : Answered s t := by
  rcases runPacket_cases p s with ⟨i, -, hrun⟩ | ⟨e, -, hrun⟩
  · exact Ruling.answered (hnext ▸ hrun ▸ exec_ruling i s)
  · exact .inr ⟨_, raise_eq_next.1 (hrun ▸ hnext)⟩

/-- The four codes of R211. -/
theorem statusWord_cases (st : Status) : st.word = 0#32 ∨ st.word = 1#32 ∨ st.word = 2#32 ∨ st.word = 3#32 := by
  cases st <;> simp

/-- Settles O36: the packet is consumed, and both kinds of answer are one response. -/
theorem failedCommandChangesNothing : Obligations.FailedCommandChangesNothing := by
  intro s t p rest hin hstep
  have hrun : runPacket p (s.setInputs rest) = .next t := by simpa [step, hin, runInput] using hstep
  rcases runPacket_answered hrun with ⟨payload, hresp, hinputs, hlimits⟩ | ⟨st, rfl⟩
  · exact ⟨_, hresp, hinputs, hlimits, statusWord_cases .ok, fun hne => absurd statusWord_ok hne⟩
  · exact ⟨_, rfl, rfl, rfl, statusWord_cases st, fun _ => ⟨rfl, rfl, rfl⟩⟩

end Sys2Proof.Exceptions
end

section
/-! SUPPORT and the statements of resets and hazards. No command is refused, so the reset inside a command is the one refused
input (R241). A run of `PROCESS` commands is one convolver run over the concatenated input (R251): a stream may be cut
anywhere, and the cursors stay in range from one command to the next (R55). -/

namespace Sys2Proof.ResetAndHazards

open Sys2Proof Sys2Proof.Machine Sys2Proof.Encoding Sys2Proof.Exceptions

/-! ### What is refused (R241) -/

theorem ne_refused_of_ruling {i : Instr} {s : State} {o : Host.Outcome State Fault Refusal} (h : Ruling i s o)
    (r : Refusal) : o ≠ .refused r := by
  cases h with
  | illegalCall | invalidArg | allocFail => exact raise_ne_refused
  | executed _ _ _ _ hrun =>
    rcases hrun with rfl | ⟨t, payload, rfl, -⟩ <;> exact nofun

/-- Every packet has an outcome, whether or not its header selects a row (R74). -/
theorem runPacket_ne_refused (p : Packet) (s : State) (r : Refusal) : runPacket p s ≠ .refused r := by
  rcases runPacket_cases p s with ⟨i, -, hrun⟩ | ⟨e, -, hrun⟩
  · rw [hrun]
    exact ne_refused_of_ruling (exec_ruling i s) r
  · rw [hrun]
    exact raise_ne_refused

/-- Settles O9: of the four things a step can do, only the reset inside a command refuses. -/
theorem onlyResetInsideCommandIsRefused : Obligations.OnlyResetInsideCommandIsRefused := by
  intro s r
  rcases step_cases s with ⟨hin, hstep⟩ | ⟨p, rest, hin, hstep⟩ | ⟨rest, hin, hstep⟩ | ⟨p, rest, hin, hstep⟩
  · simp [hstep, hin]
  · simp [hstep, hin, runPacket_ne_refused]
  · simp [hstep, hin]
  · simp [hstep, hin, eq_comm]

/-! ### Cutting a stream (R122, R141) -/

/-- The left fold over a concatenation goes on where the first part left the convolver. -/
theorem stream_append {σ : Type} (f : σ → Word → σ × Word) (t : σ) (xs ys : List Word) :
    stream f t (xs ++ ys) =
      ((stream f (stream f t xs).1 ys).1, (stream f t xs).2 ++ (stream f (stream f t xs).1 ys).2) := by
  induction xs generalizing t with
  | nil => rfl
  | cons x xs ih => simp only [List.cons_append, stream_cons, ih]

section Engine
variable (xf : Xfm) (e : Engine)

theorem process_nil : e.process xf [] = (e, []) := by
  obtain ⟨L, B, conv⟩ := e
  cases conv with
  | td => rfl
  | fd => rfl

theorem process_append (xs ys : List Word) :
    e.process xf (xs ++ ys) =
      (((e.process xf xs).1.process xf ys).1, (e.process xf xs).2 ++ ((e.process xf xs).1.process xf ys).2) := by
  obtain ⟨L, B, conv⟩ := e
  cases conv with
  | td t => simp only [Engine.process, Engine.withTd, tdProcess, stream_append]
  | fd f => simp only [Engine.process, Engine.withFd, fdProcess, stream_append]

/-- One output word per input word (R192). -/
theorem length_process (xs : List Word) : (e.process xf xs).2.length = xs.length := by
  obtain ⟨L, B, conv⟩ := e
  cases conv with
  | td t => exact stream_length (tdStep L) t xs
  | fd f => exact stream_length (fdStep xf B) f xs

end Engine

/-! ### The cursors stay in range (R55) -/

theorem td_inRange_iff {L : Nat} {t : TdState} : t.inRange L = true ↔ t.hist.n = L ∧ t.hist.writeIdx < L := by
  simp [TdState.inRange]

theorem fd_inRange_iff {B : Nat} {f : FdState} :
    f.inRange B = true ↔ f.writeBlock < f.r ∧ f.nextBlock < f.r ∧ f.readBlock < f.r ∧ f.writeIdx < B := by
  simp [FdState.inRange, and_assoc]

/-- The history cursor moves on modulo the history's length (R91). -/
theorem tdStep_inRange {L : Nat} {t : TdState} (x : Word) (h : t.inRange L = true) :
    (tdStep L t x).1.inRange L = true := by
  obtain ⟨hn, hcursor⟩ := td_inRange_iff.1 h
  refine td_inRange_iff.2 ⟨hn, ?_⟩
  calc (t.hist.writeIdx + 1) % t.hist.n < t.hist.n := Nat.mod_lt _ (by omega)
    _ = L := hn

/-- A boundary gives each block cursor another cursor's block or a remainder, and the position restarts (R140). -/
theorem boundary_inRange (xf : Xfm) {B : Nat} {f : FdState} (hB : 0 < B) (hwrite : f.writeBlock < f.r)
    (hnext : f.nextBlock < f.r) : (f.boundary xf B).inRange B = true := by
  rw [FreqDomain.boundary_frame]
  exact fd_inRange_iff.2 ⟨hnext, Nat.mod_lt _ (Nat.zero_lt_of_lt hwrite), hwrite, hB⟩

/-- A position that leaves the block makes a boundary (R136). -/
theorem fdStep_inRange (xf : Xfm) {B : Nat} {f : FdState} (x : Word) (h : f.inRange B = true) :
    (fdStep xf B f x).1.inRange B = true := by
  obtain ⟨hwrite, hnext, hread, hcursor⟩ := fd_inRange_iff.1 h
  rw [FreqDomain.fdStep_eq]
  split
  next => exact boundary_inRange xf (Nat.zero_lt_of_lt hcursor) hwrite hnext
  next hinside => exact fd_inRange_iff.2 ⟨hwrite, hnext, hread, Nat.lt_of_le_of_ne hcursor hinside⟩

/-- A command leaves the engine ready for the next one. -/
theorem process_inRange (xf : Xfm) {e : Engine} (h : e.inRange = true) (xs : List Word) :
    (e.process xf xs).1.inRange = true := by
  obtain ⟨L, B, conv⟩ := e
  cases conv with
  | td t => exact stream_invariant (P := fun t : TdState => t.inRange L = true) (fun _ => tdStep_inRange) h xs
  | fd f => exact stream_invariant (P := fun f : FdState => f.inRange B = true) (fun _ => fdStep_inRange xf) h xs

theorem inRange_of_stateInv {s : State} {e : Engine} (h : s.Inv) (heng : s.eng = some e) : e.inRange = true := by
  obtain ⟨L, B, conv⟩ := e
  cases conv with
  | td t => exact TimeDomain.inRange_of_inv (TimeDomain.tdInv_of_stateInv h heng)
  | fd f => exact FreqDomain.inRange_of_inv (FreqDomain.fdInv_of_stateInv h heng)

/-! ### One `PROCESS` packet (R192) -/

theorem imm24_processHeader (count : BitVec 24) : (processHeader count).extractLsb' 0 24 = count := by
  unfold processHeader
  ext i hi
  interval_cases i <;> simp

theorem decode_processPacket (xs : List Word) :
    decode (processPacket xs) = .ok (.process (BitVec.ofNat 24 xs.length) xs) :=
  (decode_eq_process_iff _ _ _).2 ⟨Laws.processHeader_masked _, (imm24_processHeader _).symm⟩

theorem countOf_length {xs : List Word} (h : xs.length < 2 ^ 24) : countOf (BitVec.ofNat 24 xs.length) = xs.length := by
  rw [countOf, BitVec.toNat_ofNat, Nat.mod_eq_of_lt h]

/-- The answer `OK` with these output samples (R192). -/
def okResponse (out : List Word) : Response := ⟨0#32, out⟩

theorem payloads_okResponse (outs : List (List Word)) : (outs.map okResponse).map (fun r => r.payload) = outs := by
  simp [okResponse, Function.comp_def]

theorem payload_lengths (outs : List (List Word)) :
    (outs.map okResponse).map (fun r => r.payload.length) = outs.map List.length := by
  simp [okResponse, Function.comp_def]

/-- `s` once `PROCESS` commands have been answered with these output packets: this engine, nothing left on the command channel,
one `OK` response per command. -/
def streamed (s : State) (e : Engine) (outs : List (List Word)) : State :=
  { s with eng := some e, inputs := [], responses := s.responses ++ outs.map okResponse }

theorem step_processPacket {s : State} {e : Engine} (heng : s.eng = some e) (hrange : e.inRange = true)
    {xs : List Word} (hlen : xs.length < 2 ^ 24) (ps : List Packet) :
    step (s.withPackets (processPacket xs :: ps)) =
      .next ((streamed s (e.process deviceXfm xs).1 [(e.process deviceXfm xs).2]).withPackets ps) := by
  have hstep : step (s.withPackets (processPacket xs :: ps)) = runPacket (processPacket xs) (s.withPackets ps) := rfl
  have hdecoded : runPacket (processPacket xs) (s.withPackets ps) =
      exec (.process (BitVec.ofNat 24 xs.length) xs) (s.withPackets ps) := by
    simp only [runPacket, decode_processPacket]
  rw [hstep, hdecoded, TimeDomain.exec_process (s := s.withPackets ps) heng (countOf_length hlen).symm hrange]
  rfl

/-! ### A run of `PROCESS` packets (R251) -/

theorem run_succ_of_step {M : Host.Core} {s t : M.State} (hstep : M.step s = .next t) (k : Nat) :
    M.run (k + 1) s = M.run k t := by
  rw [Host.Core.run, hstep]

theorem core_run_succ {s t : State} (hstep : step s = .next t) (k : Nat) : core.run (k + 1) s = core.run k t :=
  run_succ_of_step (M := core) (s := s) (t := t) hstep k

/-- The commands of a list of chunks leave the engine, and between them put out the words, of one run over the whole input. -/
theorem run_processPackets (c : List (List Word)) {s : State} {e : Engine} (heng : s.eng = some e)
    (hrange : e.inRange = true) (hlen : ∀ x ∈ c, x.length < 2 ^ 24) :
    ∃ outs, core.run c.length (s.withPackets (c.map processPacket)) =
        .next (streamed s (e.process deviceXfm c.flatten).1 outs) ∧
      outs.map List.length = c.map List.length ∧ outs.flatten = (e.process deviceXfm c.flatten).2 := by
  induction c generalizing s e with
  | nil =>
    refine ⟨[], ?_, rfl, ?_⟩
    · simp [Host.Core.run, streamed, State.withPackets, State.setInputs, process_nil, heng]
    · rw [List.flatten_nil, process_nil]
  | cons xs c ih =>
    obtain ⟨hxs, hc⟩ := List.forall_mem_cons.1 hlen
    have hstep := step_processPacket heng hrange hxs (c.map processPacket)
    obtain ⟨outs, hrun, hlens, hflat⟩ :=
      ih (s := streamed s (e.process deviceXfm xs).1 [(e.process deviceXfm xs).2]) rfl (process_inRange _ hrange xs) hc
    refine ⟨(e.process deviceXfm xs).2 :: outs, ?_, ?_, ?_⟩
    · refine ((core_run_succ hstep c.length).trans hrun).trans ?_
      rw [List.flatten_cons, process_append]
      simp [streamed]
    · rw [List.map_cons, List.map_cons, length_process, hlens]
    · rw [List.flatten_cons, List.flatten_cons, process_append, hflat]

/-- Settles O41: both runs are the one run over the input that the two lists of chunks share. -/
theorem blockSizeInvariance : Obligations.BlockSizeInvariance := by
  intro s c d hinv hinit hc hd hcd
  obtain ⟨e, heng⟩ := (initialized_iff s).1 hinit
  have hrange := inRange_of_stateInv hinv heng
  obtain ⟨outc, hrunc, hlenc, hflatc⟩ := run_processPackets c heng hrange hc
  obtain ⟨outd, hrund, hlend, hflatd⟩ := run_processPackets d heng hrange hd
  refine ⟨_, _, _, _, hrunc, hrund, ?_, rfl, rfl, rfl, rfl, rfl, (payload_lengths outc).trans hlenc, rfl,
    (payload_lengths outd).trans hlend, ?_, ?_⟩
  · rw [hcd]
    rfl
  · simp [okResponse, or_imp, forall_and]
  · rw [payloads_okResponse, payloads_okResponse, hflatc, hflatd, hcd]

end Sys2Proof.ResetAndHazards
end

section
/-! SUPPORT and the statements that `encode` and `decode` undo each other (R61 to R70), and the two statements of the step that
need the decoder alone (R60, R74). Both directions go through the one row that a header selects. -/

namespace Sys2Proof.PacketRoundTrip

open Sys2Proof Sys2Proof.Machine Sys2Proof.Laws Sys2Proof.Encoding

/-! ### The row of an encoded command -/

/-- The header a command is encoded with selects the command's own row. -/
theorem headerSelectsRow (i : Instr) : HeaderSelectsRow.Statement i := by
  cases i with
  | init mode p => exact HeaderSelectsRow.init mode p
  | process count p => exact HeaderSelectsRow.process count p
  | flush p => exact HeaderSelectsRow.flush p
  | reset p => exact HeaderSelectsRow.reset p
  | dlPut p => exact HeaderSelectsRow.dlPut p
  | dlPutAdv p => exact HeaderSelectsRow.dlPutAdv p
  | dlGet p => exact HeaderSelectsRow.dlGet p
  | dlGetAdv p => exact HeaderSelectsRow.dlGetAdv p
  | dlSetRd p => exact HeaderSelectsRow.dlSetRd p
  | dlSetWr p => exact HeaderSelectsRow.dlSetWr p
  | dlReset p => exact HeaderSelectsRow.dlReset p
  | dlNum p => exact HeaderSelectsRow.dlNum p

theorem lookupRow_encodeHeader (i : Instr) : lookupRow (encodeHeader i) = some (rowOf i) := by
  obtain ⟨r, hr, hop, hs⟩ := headerSelectsRow i
  exact lookupRow_eq_some_iff_exists.2 ⟨r, hr, hs, hop⟩

/-! ### The immediates (R65) -/

theorem modeField_initHeader (mode : BitVec 8) : modeField (initHeader mode) = mode := by
  unfold modeField initHeader
  ext i hi
  interval_cases i <;> simp

theorem imm24Field_processHeader (count : BitVec 24) : imm24Field (processHeader count) = count :=
  ResetAndHazards.imm24_processHeader count

/-- The header and the payload of an encoded command hold all of it. -/
theorem commandOf_encode (i : Instr) : commandOf (rowOf i) (encodeHeader i) i.payload = i := by
  cases i with
  | init mode p => exact congrArg (Instr.init · p) (modeField_initHeader mode)
  | process count p => exact congrArg (Instr.process · p) (imm24Field_processHeader count)
  | _ => rfl

/-- Settles O1: the encoded header selects the command's row, and the row makes the command of it. -/
theorem decodeEncodeAgree : Obligations.DecodeEncodeAgree := by
  intro i _
  have hdec : decode (encode i) = .ok i := (decode_eq_ok_iff _ _).2 ⟨lookupRow_encodeHeader i, commandOf_encode i⟩
  exact ⟨hdec, hdec⟩

/-! ### A header that selects a row is the header of that row's command -/

/-- A word is put together again from the bits of a mask and the others. -/
theorem or_and_of_mask {h mask rest pattern : Word} (hs : h &&& mask = pattern) (hall : mask ||| rest = BitVec.allOnes 32) :
    pattern ||| (h &&& rest) = h := by
  rw [← hs, ← BitVec.and_or_distrib_left, hall, BitVec.and_allOnes]

theorem initHeader_modeField {h : Word} (hs : h &&& 0xFFFFFF00#32 = 0x01000000#32) : initHeader (modeField h) = h := by
  have hlow : (modeField h).setWidth 32 = h &&& 0x000000FF#32 := by
    unfold modeField
    ext i hi
    interval_cases i <;> simp
  rw [initHeader, hlow, or_and_of_mask hs (by decide)]

theorem processHeader_imm24Field {h : Word} (hs : h &&& 0xFF000000#32 = 0x02000000#32) :
    processHeader (imm24Field h) = h := by
  have hlow : (imm24Field h).setWidth 32 = h &&& 0x00FFFFFF#32 := by
    unfold imm24Field
    ext i hi
    interval_cases i <;> simp
  rw [processHeader, hlow, or_and_of_mask hs (by decide)]

/-- No bit of a header is dropped: it is either fixed by the row's mask or kept in the immediate (R61, R67). -/
theorem encodeHeader_commandOf : ∀ r ∈ opcodeRows, ∀ (h : Word) (pl : List Word), h &&& r.mask = r.pattern →
    encodeHeader (commandOf r.op h pl) = h := by
  intro r hr h pl hs
  simp only [opcodeRows, List.mem_cons, List.not_mem_nil, or_false] at hr
  rcases hr with rfl | rfl | hfull
  · exact initHeader_modeField hs
  · exact processHeader_imm24Field hs
  · rcases hfull with rfl | rfl | rfl | rfl | rfl | rfl | rfl | rfl | rfl | rfl <;>
      exact hs.symm.trans (BitVec.and_allOnes (x := h))

theorem payload_commandOf (op : Opcode) (h : Word) (pl : List Word) : (commandOf op h pl).payload = pl := by
  cases op <;> rfl

/-- Settles O2: the decoded command is made of the selected row, which fixes or keeps every bit. -/
theorem encodeDecodeAgree : Obligations.EncodeDecodeAgree := by
  rintro ⟨h, pl⟩ i hdec
  obtain ⟨hrow, hcmd⟩ := (decode_eq_ok_iff _ _).1 hdec
  obtain ⟨r, hr, hs, hop⟩ := lookupRow_eq_some_iff_exists.1 hrow
  rw [← hcmd, ← hop, encode, payload_commandOf, encodeHeader_commandOf r hr h pl ((selectedBy_iff r h).1 hs)]

/-! ### Sample words and the step -/

/-- Settles O5: each of the nine lists is closed, and the decoder is evaluated on it. -/
theorem sampleWordsDecode : Obligations.SampleWordsDecode :=
  ⟨rfl, rfl, rfl, rfl, rfl, rfl, rfl, rfl, rfl⟩

/-- Settles O6: of the four things a step can do, the input picks the packet, and the decoder its command. -/
theorem stepRunsDecodedPacket : Obligations.StepRunsDecodedPacket := by
  intro s p rest i hin hdec
  simp only [step, hin, runInput, runPacket, hdec]
  rfl

/-- Settles O7: waiting is the first case of the step. -/
theorem stepWaitsForTheHost : Obligations.StepWaitsForTheHost := by
  intro s hin
  simp only [step, hin]

end Sys2Proof.PacketRoundTrip
end

section
/-! SUPPORT and statements of the commands as a whole. `Completed` says once what every command that answers `OK` leaves behind;
`exec_next_cases` ties it to `exec`. The lengths of the responses (R64), the flag (R25), what stays fixed between `INIT` and the
release (R249), and that `DL` and the engine are apart (R29) are read off it. -/

namespace Sys2Proof.CommandEffects

open Sys2Proof Sys2Proof.Machine Sys2Proof.RingBuffer Sys2Proof.EngineCommands Sys2Proof.Exceptions
open Sys2Proof.TimeDomain (exec_process responded_pushResponse_setEng)
open Sys2Proof.ResetAndHazards (process_nil length_process inRange_of_stateInv countOf_length)

/-! ### `FLUSH` as `PROCESS` of zeros (R123, R142, R193) -/

/-- The number of output words of `FLUSH` (R64). -/
def flushLength (e : Engine) : Nat :=
  match e.mode with
  | .timeDomain => e.irLength - 1
  | .freqDomain => e.blockLength + e.irLength - 1

theorem flush_eq_process (xf : Xfm) (e : Engine) :
    e.flush xf = e.process xf (List.replicate (flushLength e) 0#32) := by
  obtain ⟨L, B, conv⟩ := e
  cases conv with
  | td t => rfl
  | fd f => rfl

theorem length_flush (xf : Xfm) (e : Engine) : (e.flush xf).2.length = flushLength e := by
  rw [flush_eq_process, length_process, List.length_replicate]

/-- `FLUSH` without a payload runs the convolver over its tail while the cursors are in range. -/
theorem exec_flush {s : State} {e : Engine} (heng : s.eng = some e) (hrange : e.inRange = true) :
    exec (.flush []) s =
      .next ((s.setEng (some (e.flush deviceXfm).1)).pushResponse ⟨0#32, (e.flush deviceXfm).2⟩) := by
  have hexec : exec (.flush []) s = finishStream s (e.flush deviceXfm) := by
    simp [exec, execFlush, heng, hrange]
  exact hexec.trans (finishStream_eq_next.2 rfl)

/-! ### What a streaming command leaves alone (R249) -/

/-- The lengths, the mode and everything made of the impulse response are the same. -/
def SameImpulseResponse (e e' : Engine) : Prop :=
  e'.irLength = e.irLength ∧ e'.blockLength = e.blockLength ∧
    match e.conv, e'.conv with
    | .td a, .td b => b.ir = a.ir ∧ b.hist.n = a.hist.n ∧ b.hist.readIdx = a.hist.readIdx
    | .fd a, .fd b => b.p = a.p ∧ b.r = a.r ∧ b.scale = a.scale ∧ b.hre = a.hre ∧ b.him = a.him
    | _, _ => False

theorem sameImpulseResponse_refl (e : Engine) : SameImpulseResponse e e := by
  obtain ⟨L, B, conv⟩ := e
  cases conv with
  | td t => exact ⟨rfl, rfl, rfl, rfl, rfl⟩
  | fd f => exact ⟨rfl, rfl, rfl, rfl, rfl, rfl, rfl⟩

theorem mode_of_sameImpulseResponse {e e' : Engine} (h : SameImpulseResponse e e') : e'.mode = e.mode := by
  obtain ⟨L, B, conv⟩ := e
  obtain ⟨L', B', conv'⟩ := e'
  obtain ⟨-, -, h⟩ := h
  cases conv <;> cases conv' <;> first | rfl | exact h.elim

/-- A sample is pushed into the history; the coefficients are only read (R121). -/
theorem tdProcess_frame (L : Nat) (t : TdState) (xs : List Word) :
    (tdProcess L t xs).1.ir = t.ir ∧ (tdProcess L t xs).1.hist.n = t.hist.n ∧
      (tdProcess L t xs).1.hist.readIdx = t.hist.readIdx :=
  stream_invariant (P := fun b : TdState => b.ir = t.ir ∧ b.hist.n = t.hist.n ∧ b.hist.readIdx = t.hist.readIdx)
    (fun _ _ h => h) ⟨rfl, rfl, rfl⟩ xs

/-- A sample and a boundary change the staging, the accumulators and the cursors alone (R134 to R140). -/
theorem fdStep_frame (xf : Xfm) (B : Nat) (f : FdState) (x : Word) :
    (fdStep xf B f x).1.p = f.p ∧ (fdStep xf B f x).1.r = f.r ∧ (fdStep xf B f x).1.scale = f.scale ∧
      (fdStep xf B f x).1.hre = f.hre ∧ (fdStep xf B f x).1.him = f.him := by
  rw [FreqDomain.fdStep_eq]
  split
  next =>
    rw [FreqDomain.boundary_frame]
    exact ⟨rfl, rfl, rfl, rfl, rfl⟩
  next => exact ⟨rfl, rfl, rfl, rfl, rfl⟩

theorem fdProcess_frame (xf : Xfm) (B : Nat) (f : FdState) (xs : List Word) :
    (fdProcess xf B f xs).1.p = f.p ∧ (fdProcess xf B f xs).1.r = f.r ∧ (fdProcess xf B f xs).1.scale = f.scale ∧
      (fdProcess xf B f xs).1.hre = f.hre ∧ (fdProcess xf B f xs).1.him = f.him := by
  refine stream_invariant (P := fun b : FdState =>
    b.p = f.p ∧ b.r = f.r ∧ b.scale = f.scale ∧ b.hre = f.hre ∧ b.him = f.him) (fun b x h => ?_)
    ⟨rfl, rfl, rfl, rfl, rfl⟩ xs
  obtain ⟨hp, hr, hscale, hre, him⟩ := h
  obtain ⟨kp, kr, kscale, kre, kim⟩ := fdStep_frame xf B b x
  exact ⟨kp.trans hp, kr.trans hr, kscale.trans hscale, kre.trans hre, kim.trans him⟩

theorem process_sameImpulseResponse (xf : Xfm) (e : Engine) (xs : List Word) :
    SameImpulseResponse e (e.process xf xs).1 := by
  obtain ⟨L, B, conv⟩ := e
  cases conv with
  | td t => exact ⟨rfl, rfl, tdProcess_frame L t xs⟩
  | fd f => exact ⟨rfl, rfl, fdProcess_frame xf B f xs⟩

/-! ### Everything a completed command leaves behind -/

/-- An impulse response and a block length that pass every test of `INIT` in this mode (R191, R214). -/
structure Fits (l : Limits) (m : Mode) (L B : Nat) : Prop where
  length_pos : 1 ≤ L
  length_le : L ≤ l.irMax
  block_pos : 1 ≤ B
  block_lt : B < 2 ^ 31
  block_le : m = .freqDomain → B ≤ l.bMax
  partitions_le : m = .freqDomain → ceilDiv L B ≤ l.pMax

/-- The state after a command that answered `OK`, command by command. -/
inductive Completed (s : State) : Instr → State → Prop
  | init {mode : BitVec 8} {m : Mode} {irLength blockLength : Word} {ir : List Word} (heng : s.eng = none)
      (hmode : modeOf mode = some m) (hfits : Fits s.limits m ir.length blockLength.toNat) :
      Completed s (.init mode (irLength :: blockLength :: ir))
        ((s.setEng (some (engineConstruct deviceXfm m ir.length blockLength.toNat ir))).pushResponse ⟨0#32, []⟩)
  | process {e : Engine} {count : BitVec 24} {xs : List Word} (heng : s.eng = some e) (hlen : xs.length = countOf count) :
      Completed s (.process count xs)
        ((s.setEng (some (e.process deviceXfm xs).1)).pushResponse ⟨0#32, (e.process deviceXfm xs).2⟩)
  | flush {e : Engine} (heng : s.eng = some e) :
      Completed s (.flush [])
        ((s.setEng (some (e.flush deviceXfm).1)).pushResponse ⟨0#32, (e.flush deviceXfm).2⟩)
  | reset (heng : s.eng ≠ none) : Completed s (.reset []) ((s.setEng none).pushResponse ⟨0#32, []⟩)
  | dlPut (v : Word) : Completed s (.dlPut [v]) ((s.setDl (s.dl.put v)).pushResponse ⟨0#32, []⟩)
  | dlPutAdv (v : Word) : Completed s (.dlPutAdv [v]) ((s.setDl (s.dl.putAdvance v)).pushResponse ⟨0#32, []⟩)
  | dlGet (pl : List Word) (v : Word) : Completed s (.dlGet pl) (s.pushResponse ⟨0#32, [v]⟩)
  | dlGetAdv : Completed s (.dlGetAdv []) ((s.setDl s.dl.advanceRead).pushResponse ⟨0#32, [s.dl.current]⟩)
  | dlSetRd (idx : Word) :
      Completed s (.dlSetRd [idx]) ((s.setDl (s.dl.setReadIdx idx.toInt)).pushResponse ⟨0#32, []⟩)
  | dlSetWr (idx : Word) :
      Completed s (.dlSetWr [idx]) ((s.setDl (s.dl.setWriteIdx idx.toInt)).pushResponse ⟨0#32, []⟩)
  | dlReset : Completed s (.dlReset []) ((s.setDl s.dl.clear).pushResponse ⟨0#32, []⟩)
  | dlNum : Completed s (.dlNum []) (s.pushResponse ⟨0#32, [u32 s.dl.valuesInBuffer]⟩)

/-- A next state is a failed command's, or the completed command's. -/
def Answer (i : Instr) (s t : State) : Prop := (∃ st, st ≠ .ok ∧ t = s.failed st) ∨ Completed s i t

theorem answer_of_raise {i : Instr} {s t : State} {st : Status} (hne : st ≠ .ok) (h : raise st s = .next t) :
    Answer i s t :=
  .inl ⟨st, hne, raise_eq_next.1 h⟩

/-- A `DL` command with a wrong payload count fails; with the right one it completes. -/
theorem answer_dl {i : Instr} {s t : State} (hdl : engineCommand i = false) (h : exec i s = .next t) : Answer i s t := by
  cases hwf : i.wellFormed with
  | false => exact answer_of_raise (by decide) ((exec_of_illFormed i hdl hwf s).symm.trans h)
  | true =>
    cases i with
    | init | process | flush | reset => simp [engineCommand] at hdl
    | dlPut pl =>
      match pl, hwf with
      | [v], _ => obtain ⟨-, hk⟩ := dlAccess_eq_next.1 h; exact respond_eq_next.1 hk ▸ .inr (.dlPut v)
    | dlPutAdv pl =>
      match pl, hwf with
      | [v], _ => obtain ⟨-, hk⟩ := dlAccess_eq_next.1 h; exact respond_eq_next.1 hk ▸ .inr (.dlPutAdv v)
    | dlGet pl =>
      have hget : exec (.dlGet pl) s = dlGetAt (pl.getD 0 0#32) s := by
        match pl, hwf with
        | [], _ => rfl
        | [_], _ => rfl
      rcases dlGetAt_eq_next.1 (hget.symm.trans h) with ⟨-, rfl⟩ | ⟨v, -, -, rfl⟩
      · exact .inl ⟨.invalidArg, by decide, rfl⟩
      · exact .inr (.dlGet pl v)
    | dlGetAdv pl =>
      match pl, hwf with
      | [], _ => obtain ⟨-, hk⟩ := dlAccess_eq_next.1 h; exact respond_eq_next.1 hk ▸ .inr .dlGetAdv
    | dlSetRd pl =>
      match pl, hwf with
      | [idx], _ => exact respond_eq_next.1 h ▸ .inr (.dlSetRd idx)
    | dlSetWr pl =>
      match pl, hwf with
      | [idx], _ => exact respond_eq_next.1 h ▸ .inr (.dlSetWr idx)
    | dlReset pl =>
      match pl, hwf with
      | [], _ => exact respond_eq_next.1 h ▸ .inr .dlReset
    | dlNum pl =>
      match pl, hwf with
      | [], _ => exact respond_eq_next.1 h ▸ .inr .dlNum

theorem answer_process {count : BitVec 24} {pl : List Word} {s t : State} (h : exec (.process count pl) s = .next t) :
    Answer (.process count pl) s t := by
  cases heng : s.eng with
  | none => simp only [exec, execProcess, heng] at h; exact answer_of_raise (by decide) h
  | some e =>
    simp only [exec, execProcess, heng] at h
    split_ifs at h with hlen hrange
    · exact answer_of_raise (by decide) h
    · exact finishStream_eq_next.1 h ▸ .inr (.process heng (not_not.1 hlen))

theorem answer_flush {pl : List Word} {s t : State} (h : exec (.flush pl) s = .next t) : Answer (.flush pl) s t := by
  cases heng : s.eng with
  | none => simp only [exec, execFlush, heng] at h; exact answer_of_raise (by decide) h
  | some e =>
    simp only [exec, execFlush, heng] at h
    split_ifs at h with hlen hrange
    · exact answer_of_raise (by decide) h
    · obtain rfl : pl = [] := List.length_eq_zero_iff.1 (not_not.1 hlen)
      exact finishStream_eq_next.1 h ▸ .inr (.flush heng)

theorem answer_reset {pl : List Word} {s t : State} (h : exec (.reset pl) s = .next t) : Answer (.reset pl) s t := by
  by_cases hnone : s.eng = none
  · exact answer_of_raise (st := .illegalCall) (by decide) ((exec_reset_of_uninitialized hnone pl).symm.trans h)
  · by_cases hpl : pl = []
    · subst hpl
      have ht := (exec_reset_of_initialized hnone).symm.trans h
      injection ht with ht
      exact ht ▸ .inr (.reset hnone)
    · exact answer_of_raise (st := .invalidArg) (by decide) ((exec_reset_of_payload hnone hpl).symm.trans h)

theorem toNat_i32_lt {w : Word} (h : 0 < i32 w) : w.toNat < 2 ^ 31 := by
  rw [i32, BitVec.toInt_eq_toNat_cond] at h
  split at h <;> omega

/-- `INIT` in the order of its tests (R191): state, lengths, mode, count, capacities. -/
theorem answer_init {mode : BitVec 8} {pl : List Word} {s t : State} (h : exec (.init mode pl) s = .next t) :
    Answer (.init mode pl) s t := by
  simp only [exec, execInit] at h
  split at h
  next => exact answer_of_raise (by decide) h
  next hflag =>
    have heng : s.eng = none := (not_initialized_iff s).1 (Bool.eq_false_iff.2 hflag)
    match pl, h with
    | [], h | [_], h => exact answer_of_raise (st := .invalidArg) (by decide) h
    | irLength :: blockLength :: ir, h =>
      simp only at h
      by_cases hneg : i32 irLength ≤ 0 ∨ i32 blockLength ≤ 0
      · rw [if_pos hneg] at h
        exact answer_of_raise (by decide) h
      rw [if_neg hneg] at h
      obtain ⟨hL, hB⟩ : 0 < i32 irLength ∧ 0 < i32 blockLength := by omega
      split at h
      next => exact answer_of_raise (by decide) h
      next m hmode =>
        split_ifs at h with hlen hir hfd
        · exact answer_of_raise (by decide) h
        · exact answer_of_raise (by decide) h
        · exact answer_of_raise (by decide) h
        have hlen' : (i32 irLength).toNat = ir.length := by omega
        rw [hlen', toNat_i32 hB] at h
        rw [hlen'] at hir
        rw [hlen', toNat_i32 hB] at hfd
        have hpos := toNat_i32 hB
        refine respond_eq_next.1 h ▸ .inr (.init heng hmode ⟨?_, ?_, ?_, toNat_i32_lt hB, ?_, ?_⟩)
        · omega
        · omega
        · omega
        · exact fun hm => Nat.not_lt.1 fun hlt => hfd ⟨hm, .inl hlt⟩
        · exact fun hm => Nat.not_lt.1 fun hlt => hfd ⟨hm, .inr hlt⟩

/-- The one inversion of `exec`: a failed command leaves the state alone, a completed one is in the list above. -/
theorem exec_next_cases {i : Instr} {s t : State} (h : exec i s = .next t) : Answer i s t := by
  cases i with
  | init => exact answer_init h
  | process => exact answer_process h
  | flush => exact answer_flush h
  | reset => exact answer_reset h
  | _ => exact answer_dl rfl h

/-- The one inversion of `step`: it waits, answers a packet, or takes a hardware reset. -/
theorem step_next_cases {s t : State} (h : step s = .next t) :
    t = s ∨ (∃ i rest, Answer i (s.setInputs rest) t) ∨ (∃ rest, t = hardReset (s.setInputs rest)) := by
  rcases step_cases s with ⟨-, hstep⟩ | ⟨p, rest, -, hstep⟩ | ⟨rest, -, hstep⟩ | ⟨p, rest, -, hstep⟩
  · rw [hstep] at h
    injection h with h
    exact .inl h.symm
  · rw [hstep] at h
    rcases runPacket_cases p (s.setInputs rest) with ⟨i, -, hrun⟩ | ⟨e, -, hrun⟩
    · exact .inr (.inl ⟨i, rest, exec_next_cases (hrun ▸ h)⟩)
    · exact .inr (.inl ⟨.dlNum [], rest, answer_of_raise (by decide) (hrun ▸ h)⟩)
  · rw [hstep] at h
    injection h with h
    exact .inr (.inr ⟨rest, h.symm⟩)
  · rw [hstep] at h
    exact absurd h nofun

/-! ### The payload of a response (R64) -/

theorem payload_of_ok {t : State} {rs : List Response} {out payload : List Word} (ht : t.responses = rs ++ [⟨0#32, out⟩])
    (h : t.responses = rs ++ [⟨0#32, payload⟩]) : out = payload := by
  simpa using ht.symm.trans h

/-- A failed command does not answer `OK`. -/
theorem ne_ok_of_failed {s : State} {st : Status} (hne : st ≠ .ok) {payload : List Word} :
    (s.failed st).responses ≠ s.responses ++ [⟨0#32, payload⟩] := by
  intro h
  obtain ⟨hword, -⟩ : st.word = 0#32 ∧ [] = payload := by simpa [State.failed] using h
  exact hne (statusWord_injective (hword.trans statusWord_ok.symm))

/-- Settles O37: the response of each completed command, and for the streams one word per sample. -/
theorem okResponseLengths : Obligations.OkResponseLengths := by
  intro i s t payload hexec hresp
  rcases exec_next_cases hexec with ⟨st, hne, rfl⟩ | hdone
  · exact absurd hresp (ne_ok_of_failed hne)
  · cases hdone with
    | process heng hlen =>
      obtain rfl := payload_of_ok rfl hresp
      exact (length_process _ _ _).trans hlen
    | flush heng =>
      obtain rfl := payload_of_ok rfl hresp
      rw [heng]
      exact length_flush _ _
    | dlGet | dlGetAdv | dlNum =>
      obtain rfl := payload_of_ok rfl hresp
      rfl
    | init | reset | dlPut | dlPutAdv | dlSetRd | dlSetWr | dlReset =>
      obtain rfl := payload_of_ok rfl hresp
      cases s.eng <;> rfl

/-! ### The flag (R25) -/

theorem respondsWith_ok_of_completed {i : Instr} {s t : State} (h : Completed s i t) (hexec : exec i s = .next t) :
    RespondsWith (exec i s) s .ok := by
  cases h <;> exact ⟨_, _, hexec, rfl⟩

theorem not_respondsWith_ok_of_failed {i : Instr} {s : State} {st : Status} (hne : st ≠ .ok)
    (hexec : exec i s = .next (s.failed st)) : ¬RespondsWith (exec i s) s .ok := by
  rintro ⟨t, payload, hnext, hresp⟩
  obtain rfl : s.failed st = t := by simpa [hexec] using hnext
  exact ne_ok_of_failed hne hresp

/-- Settles O40: of the completed commands `INIT` makes an engine, `RESET` releases it, and the others have or keep one. -/
theorem onlyInitAndResetToggleInitialized : Obligations.OnlyInitAndResetToggleInitialized := by
  intro i s t hexec
  rcases exec_next_cases hexec with ⟨st, hne, rfl⟩ | hdone
  · have hno := not_respondsWith_ok_of_failed hne hexec
    exact ⟨⟨fun hchange => absurd rfl hchange, fun h => absurd h.2 hno⟩, fun _ hok => absurd hok hno,
      fun _ hok => absurd hok hno⟩
  · have hok := respondsWith_ok_of_completed hdone hexec
    cases hdone with
    | init heng | reset heng => simp [State.initialized, heng, hok]
    | process heng | flush heng => simp [State.initialized, heng]
    | _ => simp [State.initialized]

/-! ### What stays fixed (R249) -/

/-- What O39 says of two states. -/
def Frozen (s t : State) : Prop :=
  t.limits = s.limits ∧ t.dl.n = s.dl.n ∧ ∀ e e', s.eng = some e → t.eng = some e' → SameImpulseResponse e e'

theorem frozen_of_engine_eq {s t : State} (hlimits : t.limits = s.limits) (hn : t.dl.n = s.dl.n) (heng : t.eng = s.eng) :
    Frozen s t := by
  refine ⟨hlimits, hn, fun e e' he he' => ?_⟩
  obtain rfl : e = e' := Option.some.inj (he.symm.trans (heng.symm.trans he'))
  exact sameImpulseResponse_refl e

theorem frozen_of_streamed {s t : State} {e : Engine} (heng : s.eng = some e) {xs : List Word}
    (hlimits : t.limits = s.limits) (hn : t.dl.n = s.dl.n) (ht : t.eng = some (e.process deviceXfm xs).1) :
    Frozen s t := by
  refine ⟨hlimits, hn, fun a b ha hb => ?_⟩
  obtain rfl : e = a := Option.some.inj (heng.symm.trans ha)
  obtain rfl := Option.some.inj (ht.symm.trans hb)
  exact process_sameImpulseResponse deviceXfm e xs

theorem frozen_of_answer {i : Instr} {s t : State} (h : Answer i s t) : Frozen s t := by
  rcases h with ⟨st, -, rfl⟩ | hdone
  · exact frozen_of_engine_eq rfl rfl rfl
  · cases hdone with
    | init heng => exact ⟨rfl, rfl, fun e e' he => by simp [heng] at he⟩
    | process heng => exact frozen_of_streamed heng rfl rfl rfl
    | flush heng => exact frozen_of_streamed heng rfl rfl (by rw [pushResponse_eng, setEng_eng, flush_eq_process])
    | reset => exact ⟨rfl, rfl, fun e e' _ he' => by simp at he'⟩
    | _ => exact frozen_of_engine_eq rfl rfl rfl

/-- Settles O39: a stream leaves what `INIT` made, and only `INIT` and the resets change which engine there is. -/
theorem impulseResponseFrozen : Obligations.ImpulseResponseFrozen := by
  intro s t hstep
  rcases step_next_cases hstep with rfl | ⟨i, rest, hanswer⟩ | ⟨rest, rfl⟩
  · exact frozen_of_engine_eq rfl rfl rfl
  · exact frozen_of_answer (s := s.setInputs rest) hanswer
  · exact ⟨rfl, rfl, fun e e' _ he' => by simp at he'⟩

/-! ### `DL` and the engine apart (R29) -/

@[simp] theorem mapNext_raise_setDl (d : Ring) (st : Status) (s : State) :
    mapNext (fun t => t.setDl d) (raise st s) = raise st (s.setDl d) := rfl

@[simp] theorem mapNext_respond_setDl (d : Ring) (payload : List Word) (s : State) :
    mapNext (fun t => t.setDl d) (respond payload s) = respond payload (s.setDl d) := rfl

@[simp] theorem mapNext_raise_setEng (e : Option Engine) (st : Status) (s : State) :
    mapNext (fun t => t.setEng e) (raise st s) = raise st (s.setEng e) := rfl

@[simp] theorem mapNext_respond_setEng (e : Option Engine) (payload : List Word) (s : State) :
    mapNext (fun t => t.setEng e) (respond payload s) = respond payload (s.setEng e) := rfl

theorem setEng_setDl (s : State) (e : Option Engine) (d : Ring) : (s.setDl d).setEng e = (s.setEng e).setDl d := rfl

theorem setDl_initialized (s : State) (d : Ring) : (s.setDl d).initialized = s.initialized := rfl

theorem mapNext_dlAccess_setEng (e : Option Engine) (s : State) (idx : Nat) (k : Host.Outcome State Fault Refusal) :
    mapNext (fun t => t.setEng e) (dlAccess s idx k) = dlAccess (s.setEng e) idx (mapNext (fun t => t.setEng e) k) := by
  rcases dlAccess_eq (s := s) (idx := idx) (k := k) with ⟨hlt, hk⟩ | ⟨hge, hk⟩
  · rw [hk, dlAccess, if_pos (show idx < (s.setEng e).dl.n from hlt)]
  · rw [hk, dlAccess, if_neg (show ¬idx < (s.setEng e).dl.n from Nat.not_lt.2 hge)]
    rfl

theorem mapNext_ite (g : State → State) (c : Prop) [Decidable c] (a b : Host.Outcome State Fault Refusal) :
    mapNext g (if c then a else b) = if c then mapNext g a else mapNext g b := apply_ite (mapNext g) c a b

/-- `INIT` looks at the flag, its operands and the build parameters. -/
theorem execInit_setDl (mode : BitVec 8) (pl : List Word) (s : State) (d : Ring) :
    execInit mode pl (s.setDl d) = mapNext (fun t => t.setDl d) (execInit mode pl s) := by
  cases hflag : s.initialized with
  | true => simp only [execInit, setDl_initialized, hflag, if_true, mapNext_raise_setDl]
  | false =>
    simp only [execInit, setDl_initialized, hflag, Bool.false_eq_true, if_false]
    match pl with
    | [] | [_] => rfl
    | irLength :: blockLength :: ir =>
      simp only
      by_cases hneg : i32 irLength ≤ 0 ∨ i32 blockLength ≤ 0
      · simp only [if_pos hneg, mapNext_raise_setDl]
      · simp only [if_neg hneg]
        cases modeOf mode with
        | none => rfl
        | some m => simp only [mapNext_ite]; rfl

/-- `PROCESS` and `FLUSH` look at the engine. -/
theorem stream_setDl (s : State) (d : Ring) (r : Engine × List Word) (wrongCount : Prop) [Decidable wrongCount]
    (inRange : Bool) :
    (if wrongCount then raise .invalidArg (s.setDl d)
      else if inRange then finishStream (s.setDl d) r else .fault .outsideArray) =
      mapNext (fun t => t.setDl d)
        (if wrongCount then raise .invalidArg s else if inRange then finishStream s r else .fault .outsideArray) := by
  split_ifs <;> rfl

theorem exec_setDl {i : Instr} (heng : engineCommand i = true) (s : State) (d : Ring) :
    exec i (s.setDl d) = mapNext (fun t => t.setDl d) (exec i s) := by
  cases i with
  | init mode pl => exact execInit_setDl mode pl s d
  | process count pl =>
    simp only [exec, execProcess, setDl_eng]
    cases s.eng with
    | none => rfl
    | some e => exact stream_setDl s d _ _ _
  | flush pl =>
    simp only [exec, execFlush, setDl_eng]
    cases s.eng with
    | none => rfl
    | some e => exact stream_setDl s d _ _ _
  | reset pl =>
    cases hflag : s.initialized with
    | true =>
      simp only [exec, execReset, setDl_initialized, hflag, if_true]
      split_ifs <;> rfl
    | false => simp only [exec, execReset, setDl_initialized, hflag, Bool.false_eq_true, if_false, mapNext_raise_setDl]
  | _ => simp [engineCommand] at heng

theorem dlGetAt_setEng (offset : Word) (s : State) (e : Option Engine) :
    dlGetAt offset (s.setEng e) = mapNext (fun t => t.setEng e) (dlGetAt offset s) := by
  simp only [dlGetAt, setEng_dl]
  cases s.dl.get offset with
  | none => rfl
  | some v => exact (mapNext_dlAccess_setEng e s 0 (respond [v] s)).symm

theorem exec_setEng {i : Instr} (hdl : engineCommand i = false) (s : State) (e : Option Engine) :
    exec i (s.setEng e) = mapNext (fun t => t.setEng e) (exec i s) := by
  cases i with
  | init | process | flush | reset => simp [engineCommand] at hdl
  | dlPut pl =>
    match pl with
    | [] | _ :: _ :: _ => rfl
    | [v] => exact (mapNext_dlAccess_setEng e s _ (respond [] (s.setDl (s.dl.put v)))).symm
  | dlPutAdv pl =>
    match pl with
    | [] | _ :: _ :: _ => rfl
    | [v] => exact (mapNext_dlAccess_setEng e s _ (respond [] (s.setDl (s.dl.putAdvance v)))).symm
  | dlGet pl =>
    match pl with
    | [] => exact dlGetAt_setEng 0#32 s e
    | [offset] => exact dlGetAt_setEng offset s e
    | _ :: _ :: _ => rfl
  | dlGetAdv pl =>
    match pl with
    | [] => exact (mapNext_dlAccess_setEng e s _ (respond [s.dl.current] (s.setDl s.dl.advanceRead))).symm
    | _ :: _ => rfl
  | dlSetRd pl | dlSetWr pl =>
    match pl with
    | [] | _ :: _ :: _ => rfl
    | [idx] => rfl
  | dlReset pl | dlNum pl =>
    match pl with
    | [] | _ :: _ => rfl

/-- Settles O38: an engine command looks at the engine, the flag and the build parameters, a `DL` command at the ring. -/
theorem dlAndEngineIndependent : Obligations.DlAndEngineIndependent :=
  ⟨fun _ s d heng => exec_setDl heng s d, fun _ s e hdl => exec_setEng hdl s e⟩

/-! ### `PROCESS` and `FLUSH` complete (R55, R192, R193) -/

/-- Settles O30: under the invariant the cursors are in range, so the run completes; its frame is that of the stream. -/
theorem processCompletes : Obligations.ProcessCompletes := by
  intro s e xs hinv heng hlen
  have hexec := exec_process heng (countOf_length hlen).symm (inRange_of_stateInv hinv heng)
  have hsame := process_sameImpulseResponse deviceXfm e xs
  have ⟨hL, hB, _⟩ := hsame
  refine ⟨_, _, _, hexec, responded_pushResponse_setEng _ _ _, length_process _ _ _, rfl, rfl, hL, hB,
    mode_of_sameImpulseResponse hsame, ?_⟩
  rintro rfl
  rw [process_nil]

/-- Settles O31: the tail is the run over zeros, whether or not one `PROCESS` can count them. -/
theorem flushIsProcessOfZeros : Obligations.FlushIsProcessOfZeros := by
  intro s e hinv heng
  have hrange := inRange_of_stateInv hinv heng
  have hexec := exec_flush heng hrange
  refine ⟨⟨_, _, hexec, responded_pushResponse_setEng _ _ _, length_flush _ _, rfl, Option.some_ne_none _, fun hzero => ?_⟩,
    fun hlt => ?_⟩
  · have hnone : flushLength e = 0 := hzero
    rw [pushResponse_eng, setEng_eng, flush_eq_process, hnone, List.replicate_zero, process_nil, heng]
  · have hfits : flushLength e < 2 ^ 24 := hlt
    have hcount : (List.replicate (flushLength e) 0#32).length = countOf (BitVec.ofNat 24 (flushLength e)) := by
      rw [List.length_replicate, countOf, BitVec.toNat_ofNat, Nat.mod_eq_of_lt hfits]
    exact hexec.trans (flush_eq_process deviceXfm e ▸ (exec_process heng hcount hrange).symm)

end Sys2Proof.CommandEffects
end

section
/-! SUPPORT and statements of the invariant. Construction and every sample keep the convolver's own invariant (R12, R16 to R21), so
every step keeps the device's; from that no access fault (R55), and the bounds of the cursors (R21) and of the scalars (R23).
Also what `INIT` builds (R120, R130 to R133). -/

namespace Sys2Proof.DeviceInvariant

open Sys2Proof Sys2Proof.Machine Sys2Proof.RingBuffer Sys2Proof.FreqDomain Sys2Proof.CommandEffects Sys2Proof.Exceptions
open Sys2Proof.TimeDomain (responded_pushResponse_setEng)
open Sys2Proof.ResetAndHazards (inRange_of_stateInv)

/-! ### Arrays inside their ranges -/

/-- A position of a row of the array is inside the array. -/
theorem rowAddress_lt {w b r i : Nat} (hb : b < r) (hi : i < w) : b * w + i < r * w :=
  calc b * w + i < b * w + w := Nat.add_lt_add_left hi _
    _ = (b + 1) * w := (Nat.succ_mul b w).symm
    _ ≤ r * w := Nat.mul_le_mul_right w hb

/-- A whole row of the array is inside the array. -/
theorem row_end_le {w b r : Nat} (hb : b < r) : b * w + w ≤ r * w :=
  (Nat.succ_mul b w).symm.le.trans (Nat.mul_le_mul_right w hb)

theorem below_updateRun {m : Memory} {size : Nat} (h : m.below size) (g : Nat → Word → Word) {base len : Nat}
    (hend : base + len ≤ size) : (updateRun g base m len).below size := by
  induction len with
  | zero => exact h
  | succ len ih =>
    rw [updateRun_succ]
    exact Memory.below_write (ih (by omega)) (by omega) _

theorem below_accumulateInto {m : Memory} {size : Nat} (h : m.below size) (y : List Word) {base B : Nat}
    (hend : base + B ≤ size) : (accumulateInto m base B y).below size := by
  rw [accumulateInto_eq_updateRun]
  exact below_updateRun h _ hend

/-! ### The block boundary -/

theorem partitionLoop_accum_below (xf : Xfm) (spectrum : Spectrum) (B : Nat) {f : FdState} (hr : 0 < f.r)
    (h : f.accum.below (f.r * B)) (k : Nat) : (partitionLoop xf spectrum B f k).accum.below (f.r * B) := by
  induction k with
  | zero => exact h
  | succ k ih =>
    rw [partitionLoop_succ_accum]
    exact below_accumulateInto ih _ (row_end_le (Nat.mod_lt _ hr))

theorem boundary_accum_wf (xf : Xfm) (B : Nat) {f : FdState} (h : f.accum.wf) : (f.boundary xf B).accum.wf := by
  rw [boundary_eq]
  exact partitionLoop_accum_wf xf _ B (clearDrained_accum_wf h B) f.p

theorem boundary_accum_below (xf : Xfm) (B : Nat) {f : FdState} (hread : f.readBlock < f.r)
    (h : f.accum.below (f.r * B)) : (f.boundary xf B).accum.below (f.r * B) := by
  have hcleared : (f.clearDrained B).accum.below (f.r * B) :=
    Memory.below_load h (by rw [List.length_replicate]; exact row_end_le hread)
  rw [boundary_eq]
  exact partitionLoop_accum_below (f := f.clearDrained B) xf _ B (Nat.zero_lt_of_lt hread) hcleared f.p

/-! ### The cursors of the block ring (R21) -/

theorem two_le_r_of_inv {L B : Nat} {f : FdState} (h : f.Inv L B) : 2 ≤ f.r := by
  obtain ⟨-, hr, -⟩ := h
  exact hr ▸ Nat.le_max_right _ _

/-- The block before the next block is the block itself. -/
theorem wrap_succ_mod_sub_one {b r : Nat} (hb : b < r) : wrap ((((b + 1) % r : Nat) : Int) - 1) r = b := by
  rw [succ_mod_eq_ite hb]
  split
  next hlast =>
    have hsum : ((0 : Nat) : Int) - 1 = (b : Int) - r := by omega
    rw [hsum, wrap, Int.sub_emod_right, ← Int.natCast_emod, Int.toNat_natCast, Nat.mod_eq_of_lt hb]
  next =>
    have hsum : ((b + 1 : Nat) : Int) - 1 = (b : Nat) := by omega
    rw [hsum, wrap_natCast, Nat.mod_eq_of_lt hb]

/-- The block before `b` is `b - 1`, and the last block before block 0. -/
theorem wrap_sub_one {b r : Nat} (hb : b < r) : wrap ((b : Int) - 1) r = if b = 0 then r - 1 else b - 1 := by
  split
  next hzero =>
    have hsum : (b : Int) - 1 = ((r - 1 : Nat) : Int) - r := by omega
    rw [hsum, wrap, Int.sub_emod_right, ← Int.natCast_emod, Int.toNat_natCast, Nat.mod_eq_of_lt (by omega)]
  next hpos =>
    have hsum : (b : Int) - 1 = ((b - 1 : Nat) : Int) := by omega
    rw [hsum, wrap_natCast, Nat.mod_eq_of_lt (by omega)]

/-- R133: `readBlock` starts `P - 1` blocks behind block 0 in a ring of `max P 2` blocks. -/
theorem wrap_first_readBlock {p : Nat} (hp : 1 ≤ p) :
    wrap (0 - ((p : Int) - 1)) (max p 2) = if 2 ≤ p then 1 else 0 := by
  split
  next htwo =>
    have hsum : 0 - ((p : Int) - 1) = ((1 : Nat) : Int) - p := by omega
    rw [Nat.max_eq_left htwo, hsum, wrap, Int.sub_emod_right, ← Int.natCast_emod, Int.toNat_natCast,
      Nat.mod_eq_of_lt htwo]
  next hone =>
    obtain rfl : p = 1 := by omega
    rfl

/-! ### One sample keeps the convolver's invariant -/

theorem staged_staging_wf {L B : Nat} {f : FdState} (h : f.Inv L B) (x : Word) : (staged B f x).staging.wf :=
  Memory.wf_write (Memory.wf_write (staging_wf_of_inv h) _ _) _ _

theorem staged_staging_below {L B : Nat} {f : FdState} (h : f.Inv L B) (x : Word) :
    (staged B f x).staging.below (f.r * (2 * B)) := by
  obtain ⟨-, -, -, -, -, -, -, -, hbelow, -, -, hwrite, hnext, hcursor, -⟩ := h
  have hnextLt : f.nextBlock < f.r := hnext ▸ Nat.mod_lt _ (Nat.zero_lt_of_lt hwrite)
  exact Memory.below_write (Memory.below_write hbelow (rowAddress_lt hwrite (by omega)) _)
    (rowAddress_lt hnextLt (by omega)) _

/-- Inside a block the staging and the position change; at a boundary the accumulators and the cursors too. -/
theorem fdStep_inv (xf : Xfm) {L B : Nat} {f : FdState} (h : f.Inv L B) (x : Word) : (fdStep xf B f x).1.Inv L B := by
  have hwf := staged_staging_wf h x
  have hbelow := staged_staging_below h x
  have hrange := ResetAndHazards.fd_inRange_iff.1 (inRange_of_inv h)
  obtain ⟨hp, hr, hscale, hre, hreBelow, him, himBelow, -, -, hacc, haccBelow, hwrite, hnext, hcursor, hread⟩ := h
  obtain ⟨-, hnextLt, hreadLt, -⟩ := hrange
  rw [fdStep_eq]
  split
  next hlast =>
    have haccWf := boundary_accum_wf xf B (f := staged B f x) hacc
    have haccIn := boundary_accum_below xf B (f := staged B f x) hreadLt haccBelow
    have hbehind : f.writeBlock = wrap ((f.nextBlock : Int) - 1) f.r := hnext ▸ (wrap_succ_mod_sub_one hwrite).symm
    rw [boundary_frame]
    exact ⟨hp, hr, hscale, hre, hreBelow, him, himBelow, hwf, hbelow, haccWf, haccIn, hnextLt, rfl,
      Nat.zero_lt_of_lt hcursor, .inl hbehind⟩
  next hinside =>
    exact ⟨hp, hr, hscale, hre, hreBelow, him, himBelow, hwf, hbelow, hacc, haccBelow, hwrite, hnext,
      Nat.lt_of_le_of_ne hcursor hinside, hread⟩

theorem tdStep_inv {L : Nat} {t : TdState} (h : t.Inv L) (x : Word) : (tdStep L t x).1.Inv L := by
  obtain ⟨hring, hn, hread, hir⟩ := h
  exact ⟨Ring.putAdvance_inv hring x, hn, hread, hir⟩

theorem process_inv (xf : Xfm) {l : Limits} {e : Engine} (h : e.Inv l) (xs : List Word) : (e.process xf xs).1.Inv l := by
  obtain ⟨L, B, conv⟩ := e
  obtain ⟨hL, hLmax, hB, hBmax, hconv⟩ := h
  cases conv with
  | td t =>
    exact ⟨hL, hLmax, hB, hBmax, stream_invariant (P := fun t : TdState => t.Inv L) (fun _ x ht => tdStep_inv ht x) hconv xs⟩
  | fd f =>
    obtain ⟨hblock, hparts, hfd⟩ := hconv
    obtain ⟨hp, -⟩ := fdProcess_frame xf B f xs
    exact ⟨hL, hLmax, hB, hBmax, hblock, hp.trans_le hparts,
      stream_invariant (P := fun f : FdState => f.Inv L B) (fun _ x hf => fdStep_inv xf hf x) hfd xs⟩

/-! ### What `INIT` builds -/

/-- R120: the coefficients bit for bit. -/
theorem read_load_nil (ws : List Word) (k : Nat) : (Memory.load [] 0 ws).read k = ws.getD k 0#32 := by
  rw [Memory.read_load Memory.wf_nil]
  by_cases hk : k < ws.length
  · simp [hk]
  · simp [hk]

theorem tdConstruct_inv {L : Nat} {ir : List Word} (hlen : ir.length = L) (hpos : 1 ≤ L) (hlt : L < 2 ^ 31) :
    (tdConstruct ir L).Inv L :=
  ⟨Ring.clear_inv (fresh_inv hpos hlt), rfl, rfl, Memory.wf_load Memory.wf_nil 0 ir,
    Memory.below_load (Memory.below_nil L) (by omega)⟩

section Spectra

variable (xf : Xfm) (ir : List Word) (L B : Nat)

/-- The spectrum of partition `p` as `FD_construct` computes it (R131). -/
def irSpectrum (p : Nat) : Spectrum := xf.fwd B (irSegment ir L B p)

theorem partitionSpectra_succ (P : Nat) :
    partitionSpectra xf ir L B (P + 1) =
      ((partitionSpectra xf ir L B P).1.load (P * (B + 1)) (irSpectrum xf ir L B P).re,
        (partitionSpectra xf ir L B P).2.load (P * (B + 1)) (irSpectrum xf ir L B P).im) := by
  simp [partitionSpectra, irSpectrum, List.range_succ]

theorem partitionSpectra_wf (P : Nat) :
    (partitionSpectra xf ir L B P).1.wf ∧ (partitionSpectra xf ir L B P).2.wf := by
  induction P with
  | zero => exact ⟨Memory.wf_nil, Memory.wf_nil⟩
  | succ P ih =>
    rw [partitionSpectra_succ]
    exact ⟨Memory.wf_load ih.1 _ _, Memory.wf_load ih.2 _ _⟩

variable (hshape : ∀ x, (xf.fwd B x).re.length = B + 1 ∧ (xf.fwd B x).im.length = B + 1)
include hshape

theorem partitionSpectra_below {P size : Nat} (hP : P ≤ size) :
    (partitionSpectra xf ir L B P).1.below (size * (B + 1)) ∧ (partitionSpectra xf ir L B P).2.below (size * (B + 1)) := by
  induction P with
  | zero => exact ⟨Memory.below_nil _, Memory.below_nil _⟩
  | succ P ih =>
    obtain ⟨hre, him⟩ := ih (Nat.le_of_succ_le hP)
    obtain ⟨hreLen, himLen⟩ := hshape (irSegment ir L B P)
    rw [partitionSpectra_succ]
    exact ⟨Memory.below_load hre (hreLen ▸ row_end_le hP), Memory.below_load him (himLen ▸ row_end_le hP)⟩

/-- R131: row `p` of the cached spectra is the spectrum of partition `p`. -/
theorem read_partitionSpectra {P p k : Nat} (hp : p < P) (hk : k ≤ B) :
    (partitionSpectra xf ir L B P).1.read (p * (B + 1) + k) = (irSpectrum xf ir L B p).re.getD k 0#32 ∧
    (partitionSpectra xf ir L B P).2.read (p * (B + 1) + k) = (irSpectrum xf ir L B p).im.getD k 0#32 := by
  induction P with
  | zero => omega
  | succ P ih =>
    obtain ⟨hreWf, himWf⟩ := partitionSpectra_wf xf ir L B P
    have hlen : (irSpectrum xf ir L B P).re.length = B + 1 ∧ (irSpectrum xf ir L B P).im.length = B + 1 := hshape _
    rw [partitionSpectra_succ, Memory.read_load hreWf, Memory.read_load himWf, hlen.1, hlen.2]
    simp only [mem_row_iff (Nat.lt_succ_of_le hk)]
    split
    next hrow =>
      subst hrow
      rw [Nat.add_sub_cancel_left]
      exact ⟨rfl, rfl⟩
    next hrow => exact ih (by omega)

end Spectra

theorem deviceXfm_shape (B : Nat) (x : List Word) :
    (deviceXfm.fwd B x).re.length = B + 1 ∧ (deviceXfm.fwd B x).im.length = B + 1 :=
  ⟨xfmForward_re_length _ B x, xfmForward_im_length _ B x⟩

/-- R133: freshly built, the convolver is before its first boundary. -/
theorem fdConstruct_inv {L B : Nat} (ir : List Word) (hB : 1 ≤ B) : (fdConstruct deviceXfm ir L B).Inv L B := by
  obtain ⟨hreWf, himWf⟩ := partitionSpectra_wf deviceXfm ir L B (ceilDiv L B)
  obtain ⟨hre, him⟩ := partitionSpectra_below deviceXfm ir L B (deviceXfm_shape B) (le_refl (ceilDiv L B))
  have hring : 1 < max (ceilDiv L B) 2 := Nat.lt_of_lt_of_le Nat.one_lt_two (Nat.le_max_right _ _)
  exact ⟨rfl, rfl, rfl, hreWf, hre, himWf, him, Memory.wf_nil, Memory.below_nil _, Memory.wf_nil, Memory.below_nil _,
    Nat.zero_lt_of_lt hring, (Nat.mod_eq_of_lt hring).symm, hB, .inr ⟨rfl, rfl, rfl⟩⟩

theorem engineConstruct_inv {l : Limits} {m : Mode} {B : Nat} {ir : List Word} (hl : l.Inv) (hfits : Fits l m ir.length B) :
    (engineConstruct deviceXfm m ir.length B ir).Inv l := by
  obtain ⟨-, hirMax, -⟩ := hl
  obtain ⟨hL, hLmax, hB, hBmax, hblock, hparts⟩ := hfits
  cases m with
  | timeDomain => exact ⟨hL, hLmax, hB, hBmax, tdConstruct_inv rfl hL (by omega)⟩
  | freqDomain => exact ⟨hL, hLmax, hB, hBmax, hblock rfl, hparts rfl, fdConstruct_inv ir hB⟩

/-! ### Every step keeps the device's invariant -/

theorem inv_setInputs {s : State} (h : s.Inv) (is : List HostInput) : (s.setInputs is).Inv := h

theorem inv_pushResponse {s : State} (h : s.Inv) (r : Response) : (s.pushResponse r).Inv := h

theorem inv_setDl {s : State} (h : s.Inv) {d : Ring} (hd : d.Inv) : (s.setDl d).Inv := ⟨h.1, hd, h.2.2⟩

theorem inv_setEng {s : State} (h : s.Inv) {e : Engine} (he : e.Inv s.limits) : (s.setEng (some e)).Inv :=
  ⟨h.1, h.2.1, fun _ heq => Option.some.inj heq ▸ he⟩

theorem inv_setEng_none {s : State} (h : s.Inv) : (s.setEng none).Inv :=
  ⟨h.1, h.2.1, fun e heq => by simp at heq⟩

/-- Reset keeps the capacity, and the fresh ring of any capacity in range has the ring invariant (R26, R240). -/
theorem inv_hardReset {s : State} (h : s.Inv) : (hardReset s).Inv := by
  obtain ⟨hlimits, hdl, -⟩ := h
  exact ⟨hlimits, fresh_inv (n_pos_of_inv hdl) (n_lt_of_inv hdl), fun e heq => by simp at heq⟩

theorem inv_of_completed {i : Instr} {s t : State} (h : s.Inv) (hdone : Completed s i t) : t.Inv := by
  have ⟨hlimits, hdl, heng⟩ := h
  cases hdone with
  | init _ _ hfits => exact inv_pushResponse (inv_setEng h (engineConstruct_inv hlimits hfits)) _
  | process he => exact inv_pushResponse (inv_setEng h (process_inv _ (heng _ he) _)) _
  | flush he =>
    rw [flush_eq_process]
    exact inv_pushResponse (inv_setEng h (process_inv _ (heng _ he) _)) _
  | reset => exact inv_pushResponse (inv_setEng_none h) _
  | dlPut v => exact inv_pushResponse (inv_setDl h (Ring.put_inv hdl v)) _
  | dlPutAdv v => exact inv_pushResponse (inv_setDl h (Ring.putAdvance_inv hdl v)) _
  | dlGet => exact inv_pushResponse h _
  | dlGetAdv => exact inv_pushResponse (inv_setDl h (Ring.advanceRead_inv hdl)) _
  | dlSetRd idx => exact inv_pushResponse (inv_setDl h (Ring.setReadIdx_inv hdl _)) _
  | dlSetWr idx => exact inv_pushResponse (inv_setDl h (Ring.setWriteIdx_inv hdl _)) _
  | dlReset => exact inv_pushResponse (inv_setDl h (Ring.clear_inv hdl)) _
  | dlNum => exact inv_pushResponse h _

/-- Settles O55: every kind of next state that `step_next_cases` lists keeps the invariant. -/
theorem stepKeepsInvariant : Obligations.StepKeepsInvariant := by
  intro s t hinv hstep
  rcases step_next_cases hstep with rfl | ⟨i, rest, ⟨st, -, rfl⟩ | hdone⟩ | ⟨rest, rfl⟩
  · exact hinv
  · exact inv_pushResponse (s := s.setInputs rest) hinv _
  · exact inv_of_completed (s := s.setInputs rest) hinv hdone
  · exact inv_hardReset (s := s.setInputs rest) hinv

/-! ### No access fault (R55) -/

theorem dlAccess_ne_fault {s : State} {idx : Nat} {k : Host.Outcome State Fault Refusal} {r : Fault} (hidx : idx < s.dl.n)
    (hk : k ≠ .fault r) : dlAccess s idx k ≠ .fault r := by
  rwa [dlAccess, if_pos hidx]

/-- Every branch of `INIT` raises a status or responds: it accesses no array that exists before it. -/
theorem execInit_ne_fault (mode : BitVec 8) (pl : List Word) (s : State) (r : Fault) : execInit mode pl s ≠ .fault r := by
  intro h
  simp only [execInit] at h
  repeat' (first | exact raise_ne_fault h | exact respond_ne_fault h | split at h)

/-- The four engine commands: `PROCESS` and `FLUSH` test the convolver's cursors, which are in range. -/
theorem exec_engine_ne_fault {s : State} (h : s.Inv) {i : Instr} (heng : engineCommand i = true) (r : Fault) :
    exec i s ≠ .fault r := by
  cases i with
  | init mode pl => exact execInit_ne_fault mode pl s r
  | process count pl =>
    cases hsome : s.eng with
    | none => simp [exec, execProcess, hsome]
    | some e =>
      simp only [exec, execProcess, hsome, inRange_of_stateInv h hsome, if_true]
      split_ifs
      · exact raise_ne_fault
      · exact respond_ne_fault
  | flush pl =>
    cases hsome : s.eng with
    | none => simp [exec, execFlush, hsome]
    | some e =>
      simp only [exec, execFlush, hsome, inRange_of_stateInv h hsome, if_true]
      split_ifs
      · exact raise_ne_fault
      · exact respond_ne_fault
  | reset pl =>
    simp only [exec, execReset]
    split_ifs
    · exact raise_ne_fault
    · exact respond_ne_fault
    · exact raise_ne_fault
  | _ => simp [engineCommand] at heng

theorem dlGetAt_ne_fault {s : State} (hpos : 0 < s.dl.n) (offset : Word) (r : Fault) : dlGetAt offset s ≠ .fault r := by
  unfold dlGetAt
  split
  next => exact raise_ne_fault
  next => exact dlAccess_ne_fault hpos respond_ne_fault

/-- The eight `DL` commands: each tests a cursor of the ring, which is in range. -/
theorem exec_dl_ne_fault {s : State} (h : s.dl.Inv) {i : Instr} (hdl : engineCommand i = false) (r : Fault) :
    exec i s ≠ .fault r := by
  cases i with
  | init | process | flush | reset => simp [engineCommand] at hdl
  | dlPut pl | dlPutAdv pl =>
    match pl with
    | [] | _ :: _ :: _ => exact raise_ne_fault
    | [v] => exact dlAccess_ne_fault (writeIdx_lt_of_inv h) respond_ne_fault
  | dlGet pl =>
    match pl with
    | [] => exact dlGetAt_ne_fault (n_pos_of_inv h) 0#32 r
    | [offset] => exact dlGetAt_ne_fault (n_pos_of_inv h) _ r
    | _ :: _ :: _ => exact raise_ne_fault
  | dlGetAdv pl =>
    match pl with
    | [] => exact dlAccess_ne_fault (readIdx_lt_of_inv h) respond_ne_fault
    | _ :: _ => exact raise_ne_fault
  | dlSetRd pl | dlSetWr pl =>
    match pl with
    | [] | _ :: _ :: _ => exact raise_ne_fault
    | [idx] => exact respond_ne_fault
  | dlReset pl | dlNum pl =>
    match pl with
    | [] => exact respond_ne_fault
    | _ :: _ => exact raise_ne_fault

theorem exec_ne_fault {s : State} (h : s.Inv) (i : Instr) (r : Fault) : exec i s ≠ .fault r := by
  cases hgroup : engineCommand i with
  | true => exact exec_engine_ne_fault h hgroup r
  | false => exact exec_dl_ne_fault h.2.1 hgroup r

/-- Settles O56: of the things a step can do only a command tests a cursor. -/
theorem noAccessFault : Obligations.NoAccessFault := by
  intro s hinv r
  rcases step_cases s with ⟨-, hstep⟩ | ⟨p, rest, -, hstep⟩ | ⟨rest, -, hstep⟩ | ⟨p, rest, -, hstep⟩
  · rw [hstep]
    exact nofun
  · rw [hstep]
    rcases runPacket_cases p (s.setInputs rest) with ⟨i, -, hrun⟩ | ⟨e, -, hrun⟩
    · rw [hrun]
      exact exec_ne_fault (inv_setInputs hinv rest) i r
    · rw [hrun]
      exact raise_ne_fault
  · rw [hstep]
    exact nofun
  · rw [hstep]
    exact nofun

/-! ### Reachable states -/

theorem resetWith_inv {n : Nat} {l : Limits} (hpos : 1 ≤ n) (hlt : n < 2 ^ 31) (hl : l.Inv) : (State.resetWith n l).Inv :=
  ⟨hl, fresh_inv hpos hlt, fun e heq => by simp at heq⟩

/-- Settles O54: the ring is fresh and there is no engine; the sizes of `State.reset` are in range. -/
theorem resetHasInvariant : Obligations.ResetHasInvariant :=
  ⟨fun _ _ => resetWith_inv, resetWith_inv (by decide) (by decide) (by decide)⟩

/-- Settles O57: the induction over runs; the host's inputs are no part of the invariant. -/
theorem reachableStatesAreSafe : Obligations.ReachableStatesAreSafe := by
  intro n l s hpos hlt hl hreach
  have hinv : s.Inv := by
    induction hreach with
    | reset => exact resetWith_inv hpos hlt hl
    | step _ hstep ih => exact stepKeepsInvariant _ _ ih hstep
    | host i _ ih => exact inv_setInputs ih _
  exact ⟨hinv, noAccessFault s hinv⟩

/-- Settles O8: hardware reset is one case of the step; power-on waits because nothing is on the channel. -/
theorem hardResetGivesFreshDevice : Obligations.HardResetGivesFreshDevice := by
  refine ⟨fun s rest hin => ⟨hardReset (s.setInputs rest), by simp only [step, hin, runInput],
    Memory.read_nil, rfl, rfl, rfl, rfl, rfl, rfl, rfl, rfl⟩,
    fun n l => ⟨Memory.read_nil, rfl, rfl, rfl, rfl, rfl, rfl⟩⟩

/-! ### What the invariant says of the cursors (R21, R23) -/

/-- Settles O58: the block before is another block of a ring of at least two, and R133 gives the first `readBlock`. -/
theorem freqDomainCursorsSeparate : Obligations.FreqDomainCursorsSeparate := by
  intro L B f hL hB hinv
  have htwo : 2 ≤ f.r := two_le_r_of_inv hinv
  obtain ⟨hp, hr, -, -, -, -, -, -, -, -, -, hwrite, hnext, -, -⟩ := hinv
  have hppos : 1 ≤ f.p := hp ▸ ceilDiv_pos hL hB
  have hnextIte := hnext.trans (succ_mod_eq_ite hwrite)
  refine ⟨hnext, ?_, fun hbehind => ?_, fun ⟨hzero, hfirst, _⟩ => ?_⟩
  · rw [hnextIte]
    split <;> omega
  · rw [wrap_sub_one hwrite] at hbehind
    rw [hbehind, hnextIte]
    constructor
    · split <;> omega
    · split <;> split <;> omega
  · rw [hr, wrap_first_readBlock hppos] at hfirst
    rw [hfirst, hnextIte, hzero]
    refine ⟨fun hp2 => ?_, fun hp1 => ⟨if_neg (by omega), rfl⟩⟩
    rw [if_pos hp2, if_neg (by omega)]

theorem ceilDiv_le {L B : Nat} (hB : 1 ≤ B) : ceilDiv L B ≤ L := by
  rcases Nat.eq_zero_or_pos L with rfl | hL
  · exact (Nat.div_eq_of_lt (by omega)).le
  · refine Nat.div_le_of_le_mul ?_
    have hmul : B + L ≤ B * L + 1 := by nlinarith
    omega

/-- Settles O59: each scalar is bounded by a capacity, a length or a number of blocks, all below `2^31` plus one. -/
theorem scalarsFitRegisters : Obligations.ScalarsFitRegisters := by
  intro s hinv
  have ⟨hlimits, hdl, hengines⟩ := hinv
  have hn := n_lt_of_inv hdl
  have hw := writeIdx_lt_of_inv hdl
  have hr := readIdx_lt_of_inv hdl
  refine ⟨by omega, by omega, by omega, fun e heng => ?_⟩
  obtain ⟨hirMin, hirMax, -⟩ := hlimits
  have hrange := inRange_of_stateInv hinv heng
  obtain ⟨L, B, conv⟩ := e
  obtain ⟨hL, hLmax, hB, hBmax, hconv⟩ := hengines _ heng
  dsimp only at hL hLmax hB hBmax hconv ⊢
  refine ⟨by omega, by omega, ?_⟩
  cases conv with
  | td t =>
    obtain ⟨hring, hlen, hread, -⟩ := hconv
    have hcursor := writeIdx_lt_of_inv hring
    exact ⟨by omega, by omega, by omega⟩
  | fd f =>
    obtain ⟨-, -, hp, hring, -⟩ := hconv
    have hparts : f.p ≤ L := hp ▸ ceilDiv_le hB
    have hblocks : f.r ≤ 2 ^ 31 := by rw [hring]; omega
    obtain ⟨hwrite, hnext, hread, hcursor⟩ := ResetAndHazards.fd_inRange_iff.1 hrange
    have hposition : f.writeIdx < B := hcursor
    exact ⟨by omega, by omega, by omega, by omega, by omega, by omega⟩

/-! ### `INIT` answers `OK` (R191) -/

/-- The words of `INIT`'s two lengths stand for the lengths themselves. -/
theorem i32_ofNat {n : Nat} (h : n < 2 ^ 31) : i32 (BitVec.ofNat 32 n) = n := by
  rw [i32, BitVec.toInt_eq_toNat_of_lt] <;> rw [BitVec.toNat_ofNat, Nat.mod_eq_of_lt (by omega)]
  omega

/-- An uninitialised engine takes every impulse response that fits the build. -/
theorem exec_init_of_fits {s : State} {mode : BitVec 8} {m : Mode} {B : Nat} {ir : List Word} (hlimits : s.limits.Inv)
    (heng : s.eng = none) (hmode : modeOf mode = some m) (hfits : Fits s.limits m ir.length B) :
    exec (.init mode (BitVec.ofNat 32 ir.length :: BitVec.ofNat 32 B :: ir)) s =
      .next ((s.setEng (some (engineConstruct deviceXfm m ir.length B ir))).pushResponse ⟨0#32, []⟩) := by
  obtain ⟨-, hirMax, -⟩ := hlimits
  obtain ⟨hL, hLmax, hB, hBmax, hblock, hparts⟩ := hfits
  have hflag : s.initialized = false := (not_initialized_iff s).2 heng
  have hneg : ¬((ir.length : Int) ≤ 0 ∨ (B : Int) ≤ 0) := by omega
  have hcapacity : ¬(m = .freqDomain ∧ (s.limits.bMax < B ∨ s.limits.pMax < ceilDiv ir.length B)) := by
    rintro ⟨hm, hover⟩
    have hb := hblock hm
    have hp := hparts hm
    omega
  have hexec : exec (.init mode (BitVec.ofNat 32 ir.length :: BitVec.ofNat 32 B :: ir)) s =
      respond [] (s.setEng (some (engineConstruct deviceXfm m ir.length B ir))) := by
    simp only [exec, execInit, hflag, i32_ofNat (show ir.length < 2 ^ 31 by omega), i32_ofNat hBmax, hmode,
      Int.toNat_natCast, Bool.false_eq_true, if_false, if_neg hneg, if_neg (Nat.not_lt.2 hLmax), if_neg hcapacity,
      ne_eq, not_true_eq_false]
  exact hexec.trans (respond_eq_next.2 rfl)

/-- Settles O25: the packet passes every test, and the history is a fresh ring. -/
theorem initBuildsTimeDomain : Obligations.InitBuildsTimeDomain := by
  intro s B ir hlimits heng hL hLmax hB hBmax
  have hfits : Fits s.limits .timeDomain ir.length B := ⟨hL, hLmax, hB, hBmax, nofun, nofun⟩
  exact ⟨_, tdConstruct ir ir.length, exec_init_of_fits hlimits heng rfl hfits, responded_pushResponse_setEng _ _ _, rfl, rfl,
    read_load_nil ir, rfl, Memory.read_nil, rfl, rfl⟩

theorem fits_freqDomain {l : Limits} (hl : l.Inv) {L B : Nat} (hL : 1 ≤ L) (hLmax : L ≤ l.irMax) (hB : 1 ≤ B)
    (hBmax : B ≤ l.bMax) (hP : (L + B - 1) / B ≤ l.pMax) : Fits l .freqDomain L B := by
  obtain ⟨-, -, -, hbuild, -⟩ := hl
  exact ⟨hL, hLmax, hB, by omega, fun _ => hBmax, fun _ => hP⟩

/-- Settles O26: the packet passes every test; the spectra are those of the construction, row by row. -/
theorem initBuildsFreqDomain : Obligations.InitBuildsFreqDomain := by
  intro s B ir hlimits heng hL hLmax hB hBmax hP
  have hfits := fits_freqDomain hlimits hL hLmax hB hBmax hP
  have hppos : 1 ≤ ceilDiv ir.length B := ceilDiv_pos hL hB
  exact ⟨_, fdConstruct deviceXfm ir ir.length B, exec_init_of_fits hlimits heng rfl hfits,
    responded_pushResponse_setEng _ _ _, rfl, rfl, rfl, rfl, rfl,
    fun p hp k hk => read_partitionSpectra deviceXfm ir ir.length B (deviceXfm_shape B) hp hk,
    Memory.read_nil, Memory.read_nil, rfl, rfl, wrap_first_readBlock hppos, rfl⟩

end Sys2Proof.DeviceInvariant
end

section
/-! SUPPORT and the statements of binary32. A word seen through `view`: its sign, and its magnitude in units of `2^-149`. The finite
magnitudes are the `n * 2^k` with `n < 2^24` and `k <= 253`; every one of them is a multiple of the unit to which an exact
result is rounded, or smaller than every value that rounding can reach there. So the nearest multiple, which `roundMag` picks,
is the nearest finite value (R161); and a result that is such a magnitude is not changed at all. -/

namespace Sys2Proof.Binary32

open Sys2Proof Sys2Proof.Machine

/-! ### Signs -/

/-- `-1` of a negative sign, `1` of the other. -/
def sgn (neg : Bool) : ℤ := if neg then -1 else 1

theorem sgn_mul_self (neg : Bool) : sgn neg * sgn neg = 1 := by cases neg <;> rfl

theorem sgn_bne (na nb : Bool) : sgn (na != nb) = sgn na * sgn nb := by cases na <;> cases nb <;> rfl

theorem sgn_not (neg : Bool) : sgn (!neg) = -sgn neg := by cases neg <;> rfl

theorem abs_sgn (neg : Bool) : |(sgn neg : ℚ)| = 1 := by cases neg <;> simp [sgn]

theorem signedMag_eq (neg : Bool) (mag : Nat) : signedMag neg mag = sgn neg * mag := by
  cases neg <;> simp [signedMag, sgn]

theorem sgn_decide_mul_natAbs (x : ℤ) : sgn (decide (x < 0)) * x.natAbs = x := by
  by_cases hx : x < 0
  · simp only [sgn, hx, decide_true, if_true]
    omega
  · simp only [sgn, hx, decide_false, Bool.false_eq_true, if_false]
    omega

theorem natAbs_sgn_mul (neg : Bool) (z : ℤ) : (sgn neg * z).natAbs = z.natAbs := by cases neg <;> simp [sgn]

/-! ### The fields of a word (R160) -/

theorem signBit_eq (w : Word) : signBit w = decide (2 ^ 31 ≤ w.toNat) := by
  have hlt := w.isLt
  rw [signBit, BitVec.getLsbD, Nat.testBit_eq_decide_div_mod_eq]
  exact decide_eq_decide.2 (by omega)

theorem exponentField_eq (w : Word) : exponentField w = w.toNat / 2 ^ 23 % 2 ^ 8 := by
  rw [exponentField, BitVec.extractLsb'_toNat, Nat.shiftRight_eq_div_pow]

theorem fractionField_eq (w : Word) : fractionField w = w.toNat % 2 ^ 23 := by
  rw [fractionField, BitVec.extractLsb'_toNat, Nat.shiftRight_zero]

section PackBits
variable {low : Nat} (hlow : low < 2 ^ 31) (neg : Bool)
include hlow

theorem toNat_packBits : (packBits neg low).toNat = (if neg then 2 ^ 31 else 0) + low := by
  rw [packBits, BitVec.toNat_ofNat, Nat.mod_eq_of_lt]
  split <;> omega

theorem signBit_packBits : signBit (packBits neg low) = neg := by
  rw [signBit_eq, toNat_packBits hlow]
  cases neg <;> simp only [if_true, Bool.false_eq_true, if_false, decide_eq_true_eq, decide_eq_false_iff_not] <;> omega

theorem exponentField_packBits : exponentField (packBits neg low) = low / 2 ^ 23 := by
  rw [exponentField_eq, toNat_packBits hlow]
  cases neg <;> simp only [if_true, Bool.false_eq_true, if_false] <;> omega

theorem fractionField_packBits : fractionField (packBits neg low) = low % 2 ^ 23 := by
  rw [fractionField_eq, toNat_packBits hlow]
  cases neg <;> simp only [if_true, Bool.false_eq_true, if_false] <;> omega

end PackBits

/-! ### What a word stands for -/

theorem view_eq (w : Word) : view w =
    if exponentField w = 255 then (if fractionField w = 0 then .infinite (signBit w) else .nan)
    else if exponentField w = 0 then .finite (signBit w) (fractionField w)
    else .finite (signBit w) ((2 ^ 23 + fractionField w) * 2 ^ (exponentField w - 1)) := rfl

theorem wordValue_eq (w : Word) : wordValue w =
    if exponentField w = 255 then 0
    else if exponentField w = 0 then (if w.getLsbD 31 then -1 else 1) * (fractionField w : ℚ) / 2 ^ 149
    else (if w.getLsbD 31 then -1 else 1) * (2 ^ 23 + (fractionField w : ℚ)) * 2 ^ exponentField w / 2 ^ 150 := rfl

theorem view_eq_nan_iff (w : Word) : view w = .nan ↔ isNanWord w := by
  rw [view_eq, isNanWord]
  split_ifs <;> simp_all

theorem view_eq_infinite_iff (w : Word) (neg : Bool) : view w = .infinite neg ↔ isInfWord w ∧ signBit w = neg := by
  rw [view_eq, isInfWord]
  split_ifs <;> simp_all

theorem isFiniteWord_iff (w : Word) : isFiniteWord w ↔ ∃ neg mag, view w = .finite neg mag := by
  simp only [view_eq, isFiniteWord]
  split_ifs <;> simp_all

section Finite
variable {w : Word} {neg : Bool} {mag : Nat} (hview : view w = .finite neg mag)
include hview

theorem signBit_of_view : signBit w = neg := by
  rw [view_eq] at hview
  split_ifs at hview <;> simp_all

/-- R160 twice: the value by the layout, and the view's magnitude in units of `2^-149`. -/
theorem wordValue_of_view : wordValue w = (signedMag neg mag : ℤ) / 2 ^ 149 := by
  have hsign : w.getLsbD 31 = neg := signBit_of_view hview
  rw [view_eq] at hview
  rw [wordValue_eq, hsign, signedMag_eq]
  split_ifs at hview with he hf h0
  · injection hview with _ hmag
    rw [if_neg he, if_pos h0, hmag]
    cases neg <;> simp [sgn]
  · injection hview with _ hmag
    have hpow : (2 : ℚ) ^ exponentField w = 2 ^ (exponentField w - 1) * 2 := by
      rw [← pow_succ, Nat.sub_add_cancel (Nat.one_le_iff_ne_zero.2 h0)]
    rw [if_neg he, if_neg h0, ← hmag, hpow]
    cases neg <;> simp only [sgn, if_true, Bool.false_eq_true, if_false] <;> push_cast <;> ring

end Finite

theorem view_cases (w : Word) :
    view w = .nan ∨ (∃ neg, view w = .infinite neg) ∨ ∃ neg mag, view w = .finite neg mag := by
  cases view w with
  | nan => exact .inl rfl
  | infinite neg => exact .inr (.inl ⟨neg, rfl⟩)
  | finite neg mag => exact .inr (.inr ⟨neg, mag, rfl⟩)

/-! ### The finite magnitudes -/

/-- A magnitude that some finite word has: a significand below `2^24` at one of the 254 exponents. -/
def Representable (m : Nat) : Prop := ∃ n k, n < 2 ^ 24 ∧ k ≤ 253 ∧ m = n * 2 ^ k

theorem representable_of_view {w : Word} {neg : Bool} {mag : Nat} (hview : view w = .finite neg mag) :
    Representable mag := by
  have hexp : exponentField w < 2 ^ 8 := (w.extractLsb' 23 8).isLt
  have hfrac : fractionField w < 2 ^ 23 := (w.extractLsb' 0 23).isLt
  rw [view_eq] at hview
  split_ifs at hview with he hf h0
  · injection hview with _ hmag
    exact ⟨fractionField w, 0, by omega, by omega, by rw [← hmag, Nat.pow_zero, Nat.mul_one]⟩
  · injection hview with _ hmag
    exact ⟨2 ^ 23 + fractionField w, exponentField w - 1, by omega, by omega, hmag.symm⟩

/-- Integers up to `2^24`, in units that are a power of two. -/
theorem representable_mul_pow {i k : Nat} (hi : i ≤ 2 ^ 24) (hk : k < 253) : Representable (i * 2 ^ k) := by
  rcases Nat.lt_or_eq_of_le hi with hlt | rfl
  · exact ⟨i, k, hlt, hk.le, rfl⟩
  · refine ⟨2 ^ 23, k + 1, by omega, hk, ?_⟩
    rw [← pow_add, ← pow_add]
    congr 1
    omega

/-- The magnitude that 31 low bits stand for. -/
def magOf (low : Nat) : Nat := if low / 2 ^ 23 = 0 then low % 2 ^ 23 else (2 ^ 23 + low % 2 ^ 23) * 2 ^ (low / 2 ^ 23 - 1)

theorem view_packBits {low : Nat} (hlow : low < 255 * 2 ^ 23) (neg : Bool) :
    view (packBits neg low) = .finite neg (magOf low) := by
  have hlt : low < 2 ^ 31 := by omega
  have he : ¬low / 2 ^ 23 = 255 := by omega
  simp only [view_eq, exponentField_packBits hlt, fractionField_packBits hlt, signBit_packBits hlt, if_neg he, magOf]
  split <;> rfl

theorem view_infinity (neg : Bool) : view (infinity neg) = .infinite neg := by cases neg <;> decide

theorem view_signedZero (neg : Bool) : view (signedZero neg) = .finite neg 0 := by cases neg <;> decide

theorem view_nanOf (op : FloatOp) (a b : Word) : view (nanOf op a b) = .nan := by
  rw [nanOf]
  generalize Config.nanDraw op a b = d
  have hdraw := d.2.isLt
  have hlt : 255 * 2 ^ 23 + (d.2.val + 1) < 2 ^ 31 := by omega
  have he : (255 * 2 ^ 23 + (d.2.val + 1)) / 2 ^ 23 = 255 := by omega
  have hf : ¬(255 * 2 ^ 23 + (d.2.val + 1)) % 2 ^ 23 = 0 := by omega
  simp only [view_eq, exponentField_packBits hlt, fractionField_packBits hlt, if_pos he, if_neg hf]

/-- The one addition of `roundMag`: `k` steps of the exponent and a significand of up to `2^24`, whose carry is one more step. -/
theorem magOf_eq {k n : Nat} (hn : n ≤ 2 ^ 24) (hk : k = 0 ∨ 2 ^ 23 ≤ n) : magOf (k * 2 ^ 23 + n) = n * 2 ^ k := by
  unfold magOf
  rcases Nat.lt_or_ge n (2 ^ 23) with hsub | hnormal
  · obtain rfl : k = 0 := by omega
    rw [if_pos (by omega), Nat.pow_zero, Nat.mul_one, Nat.zero_mul, Nat.zero_add, Nat.mod_eq_of_lt hsub]
  · rw [if_neg (by omega)]
    rcases Nat.lt_or_eq_of_le hn with hlt | rfl
    · have hexp : (k * 2 ^ 23 + n) / 2 ^ 23 - 1 = k := by omega
      have hfrac : 2 ^ 23 + (k * 2 ^ 23 + n) % 2 ^ 23 = n := by omega
      rw [hexp, hfrac]
    · have hexp : (k * 2 ^ 23 + 2 ^ 24) / 2 ^ 23 - 1 = k + 1 := by omega
      have hfrac : 2 ^ 23 + (k * 2 ^ 23 + 2 ^ 24) % 2 ^ 23 = 2 ^ 23 := by omega
      rw [hexp, hfrac, pow_succ]
      ring

/-! ### Rounding a quotient to the nearest integer -/

/-- The integer nearest `a / b`, ties to even, as `roundMag` computes it. -/
def nearestQuotient (a b : Nat) : Nat :=
  if 2 * (a % b) < b then a / b else if 2 * (a % b) = b then a / b + a / b % 2 else a / b + 1

/-- The nearest integer is at most half a unit away, and at exactly half a unit it is even. -/
theorem nearestQuotient_spec (a : Nat) {b : Nat} (hb : 0 < b) :
    2 * |(a : ℤ) - nearestQuotient a b * b| ≤ b ∧
    (2 * |(a : ℤ) - nearestQuotient a b * b| = b → nearestQuotient a b % 2 = 0) := by
  have hrest : a % b < b := Nat.mod_lt a hb
  have hdiv : (a : ℤ) = (a / b : ℕ) * b + (a % b : ℕ) := by exact_mod_cast (Nat.div_add_mod' a b).symm
  unfold nearestQuotient
  generalize a / b = q at hdiv ⊢
  generalize a % b = rest at hdiv hrest ⊢
  have hfloor : (a : ℤ) - (q : ℕ) * b = rest := by omega
  have hceil : (a : ℤ) - (q + 1 : ℕ) * b = rest - b := by push_cast; rw [add_mul]; omega
  split_ifs with hlow htie
  · rw [hfloor, abs_of_nonneg (by omega)]
    omega
  · rcases Nat.mod_two_eq_zero_or_one q with heven | hodd
    · rw [heven, Nat.add_zero, hfloor, abs_of_nonneg (by omega)]
      omega
    · rw [hodd, hceil, abs_of_nonpos (by omega)]
      omega
  · rw [hceil, abs_of_nonpos (by omega)]
    omega

/-- No integer is nearer, and one as near leaves the even one to be picked. -/
theorem nearestQuotient_nearest (a : Nat) {b : Nat} (hb : 0 < b) (j : ℤ) :
    |(a : ℤ) - nearestQuotient a b * b| ≤ |(a : ℤ) - j * b| ∧
    (j ≠ nearestQuotient a b → |(a : ℤ) - j * b| = |(a : ℤ) - nearestQuotient a b * b| → nearestQuotient a b % 2 = 0) := by
  obtain ⟨hhalf, heven⟩ := nearestQuotient_spec a hb
  by_cases hj : j = nearestQuotient a b
  · rw [hj]
    exact ⟨le_rfl, fun hne => absurd rfl hne⟩
  · have hapart : (b : ℤ) ≤ |(nearestQuotient a b : ℤ) * b - j * b| := by
      rw [← sub_mul, abs_mul, Nat.abs_cast]
      exact le_mul_of_one_le_left (by omega) (Int.one_le_abs (sub_ne_zero.2 (Ne.symm hj)))
    have htriangle : |(nearestQuotient a b : ℤ) * b - j * b| ≤
        |(a : ℤ) - j * b| + |(a : ℤ) - nearestQuotient a b * b| := by
      have hsplit : (nearestQuotient a b : ℤ) * b - j * b =
          ((a : ℤ) - j * b) - ((a : ℤ) - nearestQuotient a b * b) := by ring
      rw [hsplit]
      exact abs_sub _ _
    exact ⟨by omega, fun _ htie => heven (by omega)⟩

/-! ### What `roundMag` computes -/

/-- How far the last place of the rounded result lies above the smallest subnormal. -/
def placeOf (num den : Nat) : Nat := (num / den).log2 - 23

/-- The rounded significand. -/
def significandOf (num den : Nat) : Nat := nearestQuotient num (den * 2 ^ placeOf num den)

theorem roundMag_eq (num den : Nat) :
    roundMag num den = min (placeOf num den * 2 ^ 23 + significandOf num den) (255 * 2 ^ 23) := rfl

/-- Above the subnormals the exact result is at least `2^23` units of the last place. -/
theorem unit_mul_le (num den : Nat) (hpos : 0 < placeOf num den) : 2 ^ 23 * (den * 2 ^ placeOf num den) ≤ num := by
  have hlog : (num / den).log2 = placeOf num den + 23 := by unfold placeOf at hpos ⊢; omega
  have hne : num / den ≠ 0 := by
    intro hzero
    rw [hzero, Nat.log2_zero] at hlog
    omega
  have hle : 2 ^ (placeOf num den + 23) ≤ num / den := hlog ▸ Nat.log2_self_le hne
  calc 2 ^ 23 * (den * 2 ^ placeOf num den) = 2 ^ (placeOf num den + 23) * den := by rw [pow_add]; ring
    _ ≤ num / den * den := Nat.mul_le_mul_right den hle
    _ ≤ num := Nat.div_mul_le_self num den

/-- The exact result is below `2^24` units of the last place. -/
theorem lt_mul_unit (num : Nat) {den : Nat} (hden : 0 < den) : num < 2 ^ 24 * (den * 2 ^ placeOf num den) := by
  have hlog : (num / den).log2 < placeOf num den + 24 := by unfold placeOf; omega
  have hlt : num / den < 2 ^ (placeOf num den + 24) :=
    Nat.lt_of_lt_of_le Nat.lt_log2_self (Nat.pow_le_pow_right (by omega) hlog)
  calc num < (num / den + 1) * den := by rw [Nat.mul_comm]; exact Nat.lt_mul_div_succ num hden
    _ ≤ 2 ^ (placeOf num den + 24) * den := Nat.mul_le_mul_right den hlt
    _ = 2 ^ 24 * (den * 2 ^ placeOf num den) := by rw [pow_add]; ring

section Rounding
variable (num : Nat) {den : Nat} (hden : 0 < den)
include hden

theorem unit_pos : 0 < den * 2 ^ placeOf num den := Nat.mul_pos hden (Nat.two_pow_pos _)

theorem significandOf_le : significandOf num den ≤ 2 ^ 24 := by
  have hunit := unit_pos num hden
  have hlt := lt_mul_unit num hden
  obtain ⟨hhalf, -⟩ := nearestQuotient_spec num hunit
  rw [← significandOf] at hhalf
  generalize significandOf num den = n at hhalf ⊢
  generalize den * 2 ^ placeOf num den = b at *
  by_contra hover
  have hmul : ((2 ^ 24 + 1 : ℕ) : ℤ) * b ≤ n * b := by exact_mod_cast Nat.mul_le_mul_right b (Nat.not_le.1 hover)
  have habs := neg_abs_le ((num : ℤ) - n * b)
  push_cast at hmul
  omega

theorem le_significandOf (hpos : 0 < placeOf num den) : 2 ^ 23 ≤ significandOf num den := by
  have hunit := unit_pos num hden
  have hle := unit_mul_le num den hpos
  obtain ⟨hhalf, -⟩ := nearestQuotient_spec num hunit
  rw [← significandOf] at hhalf
  generalize significandOf num den = n at hhalf ⊢
  generalize den * 2 ^ placeOf num den = b at *
  by_contra hunder
  have hmul : (n : ℤ) * b + b ≤ (2 ^ 23 : ℕ) * b := by
    rw [← add_one_mul]
    exact_mod_cast Nat.mul_le_mul_right b (Nat.not_le.1 hunder)
  have habs := le_abs_self ((num : ℤ) - n * b)
  push_cast at hmul
  omega

theorem magOf_place_significand :
    magOf (placeOf num den * 2 ^ 23 + significandOf num den) = significandOf num den * 2 ^ placeOf num den := by
  refine magOf_eq (significandOf_le num hden) ?_
  rcases Nat.eq_zero_or_pos (placeOf num den) with hzero | hpos
  · exact .inl hzero
  · exact .inr (le_significandOf num hden hpos)

/-- The threshold of R161, halfway between the largest finite magnitude and `2^277` units. -/
theorem roundMag_lt_iff : roundMag num den < 255 * 2 ^ 23 ↔ num < (2 ^ 25 - 1) * (den * 2 ^ 252) := by
  have hunit := unit_pos num hden
  have hle := significandOf_le num hden
  have hlt := lt_mul_unit num hden
  rw [roundMag_eq, min_lt_iff, or_iff_left (lt_irrefl _)]
  rcases Nat.lt_trichotomy (placeOf num den) 253 with hlow | hlast | hover
  · have hpow : den * 2 ^ placeOf num den ≤ den * 2 ^ 252 :=
      Nat.mul_le_mul_left den (Nat.pow_le_pow_right (by omega) (by omega))
    exact iff_of_true (by omega) (by omega)
  · obtain ⟨hhalf, heven⟩ := nearestQuotient_spec num hunit
    obtain ⟨c, hc⟩ : ∃ c, den * 2 ^ 252 = c := ⟨_, rfl⟩
    have hdouble : den * 2 ^ placeOf num den = 2 * c := by rw [hlast, ← hc, pow_succ]; ring
    rw [← significandOf] at hhalf heven
    rw [hdouble] at hhalf heven hunit
    rw [hlast, hc]
    generalize significandOf num den = n at hhalf heven hle ⊢
    push_cast at hhalf heven
    have hlow := neg_abs_le ((num : ℤ) - n * (2 * c))
    have hhigh := le_abs_self ((num : ℤ) - n * (2 * c))
    rcases Nat.lt_trichotomy n (2 ^ 24 - 1) with hn | hn | hn
    · have hmul : (n : ℤ) * (2 * c) ≤ (2 ^ 24 - 2 : ℕ) * (2 * c) := by
        exact_mod_cast Nat.mul_le_mul_right (2 * c) (show n ≤ 2 ^ 24 - 2 by omega)
      push_cast at hmul
      exact iff_of_true (by omega) (by omega)
    · have hcast : (n : ℤ) = 2 ^ 24 - 1 := by omega
      rw [hcast] at hhalf heven hhigh
      exact iff_of_true (by omega) (by omega)
    · have hcast : (n : ℤ) = 2 ^ 24 := by omega
      rw [hcast] at hhalf hlow
      exact iff_of_false (by omega) (by omega)
  · have hsig := le_significandOf num hden (by omega)
    have hnum := unit_mul_le num den (by omega)
    have hpow : 4 * (den * 2 ^ 252) ≤ den * 2 ^ placeOf num den := by
      calc 4 * (den * 2 ^ 252) = den * 2 ^ 254 := by rw [pow_add 2 252 2]; ring
        _ ≤ den * 2 ^ placeOf num den := Nat.mul_le_mul_left den (Nat.pow_le_pow_right (by omega) (by omega))
    exact iff_of_false (by omega) (by omega)

/-- Of the finite values none is nearer to `num / den` than the rounded one, and one as near leaves it an even last bit. Each is
a multiple of the unit of rounding, or below the `2^23` units that the exact result then reaches. -/
theorem roundMag_nearest (hfin : roundMag num den < 255 * 2 ^ 23) {z : ℤ} (hz : Representable z.natAbs) :
    |(num : ℤ) - magOf (roundMag num den) * den| ≤ |(num : ℤ) - z * den| ∧
    (z ≠ magOf (roundMag num den) → |(num : ℤ) - z * den| = |(num : ℤ) - magOf (roundMag num den) * den| →
      roundMag num den % 2 = 0) := by
  have hround : roundMag num den = placeOf num den * 2 ^ 23 + significandOf num den := by
    rw [roundMag_eq] at hfin ⊢
    omega
  have hmag : (magOf (roundMag num den) : ℤ) = significandOf num den * 2 ^ placeOf num den := by
    rw [hround, magOf_place_significand num hden]
    push_cast
    rfl
  have hvalue : (magOf (roundMag num den) : ℤ) * den = significandOf num den * (den * 2 ^ placeOf num den : ℕ) := by
    rw [hmag]
    push_cast
    ring
  have hunit := unit_pos num hden
  obtain ⟨n, k, hn, -, hnk⟩ := hz
  rw [hvalue]
  rcases Nat.lt_or_ge k (placeOf num den) with hfine | hcoarse
  · have hpos : 0 < placeOf num den := by omega
    have hreach : 2 ^ 23 * (den * 2 ^ placeOf num den) ≤ num := unit_mul_le num den hpos
    have hsmall : z.natAbs < 2 ^ 23 * 2 ^ placeOf num den := by
      calc z.natAbs = n * 2 ^ k := hnk
        _ < 2 ^ 24 * 2 ^ k := Nat.mul_lt_mul_of_pos_right hn (Nat.two_pow_pos k)
        _ = 2 ^ 23 * 2 ^ (k + 1) := by ring
        _ ≤ 2 ^ 23 * 2 ^ placeOf num den := Nat.mul_le_mul_left _ (Nat.pow_le_pow_right (by omega) hfine)
    have hbelow : z * den < (2 ^ 23 : ℕ) * (den * 2 ^ placeOf num den : ℕ) := by
      calc z * den < ((2 ^ 23 * 2 ^ placeOf num den : ℕ) : ℤ) * den :=
            mul_lt_mul_of_pos_right (by omega) (by exact_mod_cast hden)
        _ = (2 ^ 23 : ℕ) * (den * 2 ^ placeOf num den : ℕ) := by push_cast; ring
    obtain ⟨hnearest, -⟩ := nearestQuotient_nearest num hunit (2 ^ 23 : ℕ)
    rw [← significandOf] at hnearest
    rw [abs_of_nonneg (by omega : 0 ≤ (num : ℤ) - (2 ^ 23 : ℕ) * (den * 2 ^ placeOf num den : ℕ))] at hnearest
    have hfar := le_abs_self ((num : ℤ) - z * den)
    exact ⟨by omega, fun _ htie => by omega⟩
  · have hdvd : (2 ^ placeOf num den : ℤ) ∣ z := by
      rw [← Int.dvd_natAbs, hnk]
      exact_mod_cast Dvd.dvd.mul_left (Nat.pow_dvd_pow 2 hcoarse) n
    obtain ⟨j, hj⟩ := hdvd
    have hzvalue : z * den = j * (den * 2 ^ placeOf num den : ℕ) := by
      rw [hj]
      push_cast
      ring
    obtain ⟨hnearest, heven⟩ := nearestQuotient_nearest num hunit j
    rw [← significandOf] at hnearest heven
    rw [hzvalue]
    refine ⟨hnearest, fun hne htie => ?_⟩
    have hsig := heven (fun heq => hne (by rw [hj, heq, hmag, mul_comm])) htie
    omega

end Rounding

/-! ### The rounded word -/

/-- The value of a sign and a quotient of magnitudes. -/
def exactValue (neg : Bool) (num den : Nat) : ℚ := (sgn neg : ℚ) * ((num : ℚ) / den) / 2 ^ 149

section RoundWord
variable (neg : Bool) (num : Nat) {den : Nat} (hden : 0 < den)
include hden

/-- The distance of an exact result from a value, in units of `2^-149 / den`. -/
theorem abs_exactValue_sub (z : ℤ) :
    |exactValue neg num den - z / 2 ^ 149| = ((|(num : ℤ) - sgn neg * z * den| : ℤ) : ℚ) / (den * 2 ^ 149) := by
  have hsign : (sgn neg : ℚ) * sgn neg = 1 := by exact_mod_cast sgn_mul_self neg
  have hdenQ : (den : ℚ) ≠ 0 := by positivity
  have hscale : exactValue neg num den - z / 2 ^ 149 = sgn neg * ((num - sgn neg * z * den) / (den * 2 ^ 149)) := by
    unfold exactValue
    field_simp
    linear_combination (z : ℚ) * den * hsign
  rw [hscale, abs_mul, abs_sgn, one_mul, abs_div, abs_of_pos (show (0 : ℚ) < den * 2 ^ 149 by positivity)]
  push_cast
  rfl

omit hden in
theorem abs_exactValue : |exactValue neg num den| = (num : ℚ) / den / 2 ^ 149 := by
  rw [exactValue, abs_div, abs_mul, abs_sgn, one_mul, abs_of_nonneg (by positivity), abs_of_pos (by positivity)]

theorem abs_exactValue_lt_iff :
    |exactValue neg num den| < 2 ^ 128 - 2 ^ 103 ↔ roundMag num den < 255 * 2 ^ 23 := by
  have hdenQ : (0 : ℚ) < den := by exact_mod_cast hden
  have hbound : ((2 : ℚ) ^ 128 - 2 ^ 103) * 2 ^ 149 * den = ((2 ^ 25 - 1) * (den * 2 ^ 252) : ℕ) := by
    push_cast
    ring
  rw [abs_exactValue neg num, roundMag_lt_iff num hden, div_lt_iff₀ (by positivity), div_lt_iff₀ hdenQ, hbound,
    Nat.cast_lt]

omit hden in
theorem roundMag_lt_two_pow : roundMag num den < 2 ^ 31 := by
  rw [roundMag_eq]
  omega

omit hden in
theorem signBit_roundWord : signBit (roundWord neg num den) = neg := signBit_packBits (roundMag_lt_two_pow num) neg

omit hden in
theorem view_roundWord (hfin : roundMag num den < 255 * 2 ^ 23) :
    view (roundWord neg num den) = .finite neg (magOf (roundMag num den)) := view_packBits hfin neg

omit hden in
theorem roundWord_of_overflow (hover : ¬roundMag num den < 255 * 2 ^ 23) : roundWord neg num den = infinity neg := by
  have hmag : roundMag num den = 255 * 2 ^ 23 := by
    rw [roundMag_eq] at hover ⊢
    omega
  rw [roundWord, hmag, infinity]

omit hden in
theorem getLsbD_zero_roundWord : (roundWord neg num den).getLsbD 0 = decide (roundMag num den % 2 = 1) := by
  rw [BitVec.getLsbD, Nat.testBit_zero, roundWord, toNat_packBits (roundMag_lt_two_pow num)]
  congr 1
  cases neg <;> simp only [if_true, Bool.false_eq_true, if_false] <;> exact propext (by omega)

omit hden in
theorem decide_exactValue_neg (hne : exactValue neg num den ≠ 0) : neg = decide (exactValue neg num den < 0) := by
  have hpos : (0 : ℚ) < (num : ℚ) / den / 2 ^ 149 := by
    rw [← abs_exactValue neg num]
    exact abs_pos.2 hne
  cases neg with
  | true =>
    have hvalue : exactValue true num den = -((num : ℚ) / den / 2 ^ 149) := by simp [exactValue, sgn, neg_div]
    rw [hvalue, decide_eq_true (neg_neg_of_pos hpos)]
  | false =>
    have hvalue : exactValue false num den = (num : ℚ) / den / 2 ^ 149 := by simp [exactValue, sgn]
    rw [hvalue, decide_eq_false (not_lt_of_gt hpos)]

/-- R161 for one exact result: the word of a sign and a quotient is the binary32 value nearest it. -/
theorem nearestEven_roundWord : NearestEven (exactValue neg num den) (roundWord neg num den) := by
  refine ⟨fun hne => (signBit_roundWord neg num).trans (decide_exactValue_neg neg num hne), ?_⟩
  by_cases hfin : roundMag num den < 255 * 2 ^ 23
  · rw [if_pos ((abs_exactValue_lt_iff neg num hden).2 hfin)]
    have hview := view_roundWord neg num hfin
    refine ⟨(isFiniteWord_iff _).2 ⟨_, _, hview⟩, fun v hv => ?_⟩
    obtain ⟨nv, mv, hviewv⟩ := (isFiniteWord_iff v).1 hv
    have hpos : (0 : ℚ) < den * 2 ^ 149 := by positivity
    have hrep : Representable (sgn neg * signedMag nv mv).natAbs := by
      rw [natAbs_sgn_mul, signedMag_eq, natAbs_sgn_mul, Int.natAbs_natCast]
      exact representable_of_view hviewv
    have hmag : sgn neg * signedMag neg (magOf (roundMag num den)) = magOf (roundMag num den) := by
      rw [signedMag_eq, ← mul_assoc, sgn_mul_self, one_mul]
    obtain ⟨hnearest, heven⟩ := roundMag_nearest num hden hfin hrep
    rw [wordValue_of_view hview, wordValue_of_view hviewv, abs_exactValue_sub neg num hden, abs_exactValue_sub neg num hden, hmag]
    refine ⟨(div_le_div_iff_of_pos_right hpos).2 (by exact_mod_cast hnearest), fun hne htie => ?_⟩
    have htie' := (div_left_inj' hpos.ne').1 htie
    rw [getLsbD_zero_roundWord, heven (fun heq => hne ?_) (by exact_mod_cast htie')]
    · rfl
    · have hz : signedMag nv mv = signedMag neg (magOf (roundMag num den)) := by
        rw [← one_mul (signedMag nv mv), ← sgn_mul_self neg, mul_assoc, heq, signedMag_eq]
      rw [hz]
  · rw [if_neg (fun hlt => hfin ((abs_exactValue_lt_iff neg num hden).1 hlt)), roundWord_of_overflow neg num hfin]
    exact ((view_eq_infinite_iff _ neg).1 (view_infinity neg)).1

end RoundWord

end Sys2Proof.Binary32
end

section
/-! SUPPORT and the statements of the four operations on binary32 (R161, R162, R172): each is one exact result rounded once, so it
is the nearest value, and the exact result itself where that is finite. -/

namespace Sys2Proof.Binary32

open Sys2Proof Sys2Proof.Machine

/-! ### The operations on two finite words -/

theorem view_negView {v : FloatView} {neg : Bool} {mag : Nat} (h : v = .finite neg mag) : negView v = .finite (!neg) mag := by
  rw [h, negView]

theorem roundWord_zero (neg : Bool) {den : Nat} : roundWord neg 0 den = signedZero neg := by
  have hmag : roundMag 0 den = 0 := by
    simp +contextual [roundMag_eq, placeOf, significandOf, nearestQuotient]
  rw [roundWord, hmag, signedZero]

section Finite
variable {a b : Word} {na nb : Bool} {ma mb : Nat} (ha : view a = .finite na ma) (hb : view b = .finite nb mb)
include ha hb

theorem fadd_of_finite : fadd a b = addFinite na ma nb mb := by rw [fadd, ha, hb, addView]

theorem fsub_of_finite : fsub a b = addFinite na ma (!nb) mb := by rw [fsub, ha, hb, negView, addView]

theorem fmul_of_finite : fmul a b = roundWord (na != nb) (ma * mb) (2 ^ 149) := by simp only [fmul, ha, hb]

theorem fdiv_of_finite (hne : mb ≠ 0) : fdiv a b = roundWord (na != nb) (ma * 2 ^ 149) mb := by
  simp only [fdiv, ha, hb, if_neg hne]

end Finite

/-- A sum is rounded with the sign of the exact sum; an exact zero is a zero word. -/
theorem addFinite_eq (na : Bool) (ma : Nat) (nb : Bool) (mb : Nat) :
    ∃ neg, addFinite na ma nb mb = roundWord neg (signedMag na ma + signedMag nb mb).natAbs 1 ∧
      sgn neg * (signedMag na ma + signedMag nb mb).natAbs = signedMag na ma + signedMag nb mb := by
  simp only [addFinite]
  split
  next hzero =>
    rw [hzero]
    exact ⟨na && nb, (roundWord_zero _).symm, by simp⟩
  next => exact ⟨_, rfl, sgn_decide_mul_natAbs _⟩

/-! ### The nearest value (R161) -/

theorem exactValue_of_eq {neg : Bool} {m : Nat} {z : ℤ} (h : sgn neg * m = z) : exactValue neg m 1 = z / 2 ^ 149 := by
  rw [← h, exactValue]
  push_cast
  rw [div_one]

theorem nearestEven_addFinite (na : Bool) (ma : Nat) (nb : Bool) (mb : Nat) :
    NearestEven (((signedMag na ma + signedMag nb mb : ℤ) : ℚ) / 2 ^ 149) (addFinite na ma nb mb) := by
  obtain ⟨neg, hword, hsum⟩ := addFinite_eq na ma nb mb
  rw [hword, ← exactValue_of_eq hsum]
  exact nearestEven_roundWord neg _ Nat.one_pos

theorem exactValue_mul (na nb : Bool) (ma mb : Nat) :
    exactValue (na != nb) (ma * mb) (2 ^ 149) =
      ((signedMag na ma : ℤ) : ℚ) / 2 ^ 149 * (((signedMag nb mb : ℤ) : ℚ) / 2 ^ 149) := by
  rw [exactValue, sgn_bne, signedMag_eq, signedMag_eq]
  push_cast
  ring

theorem exactValue_div (na nb : Bool) (ma : Nat) {mb : Nat} (hne : mb ≠ 0) :
    exactValue (na != nb) (ma * 2 ^ 149) mb =
      ((signedMag na ma : ℤ) : ℚ) / 2 ^ 149 / (((signedMag nb mb : ℤ) : ℚ) / 2 ^ 149) := by
  have hmb : (mb : ℚ) ≠ 0 := Nat.cast_ne_zero.2 hne
  have hsq : (sgn nb : ℚ) * sgn nb = 1 := by exact_mod_cast sgn_mul_self nb
  have hsgn : (sgn nb : ℚ) ≠ 0 := left_ne_zero_of_mul_eq_one hsq
  rw [exactValue, sgn_bne, signedMag_eq, signedMag_eq]
  push_cast
  field_simp
  linear_combination (sgn na * ma * 2 ^ 149 : ℚ) * hsq

theorem wordValue_ne_zero_iff {w : Word} {neg : Bool} {mag : Nat} (hview : view w = .finite neg mag) :
    wordValue w = 0 ↔ mag = 0 := by
  rw [wordValue_of_view hview, signedMag_eq]
  cases neg <;> simp [sgn]

/-- Settles O47: each operation on finite words is one exact result, rounded by `roundWord`. -/
theorem floatOpsRoundToNearestEven : Obligations.FloatOpsRoundToNearestEven := by
  intro a b hfa hfb
  obtain ⟨na, ma, ha⟩ := (isFiniteWord_iff a).1 hfa
  obtain ⟨nb, mb, hb⟩ := (isFiniteWord_iff b).1 hfb
  rw [wordValue_of_view ha, wordValue_of_view hb]
  refine ⟨?_, ?_, ?_, fun hne => ?_⟩
  · have hsum := nearestEven_addFinite na ma nb mb
    rwa [Int.cast_add, add_div, ← fadd_of_finite ha hb] at hsum
  · have hneg : signedMag (!nb) mb = -signedMag nb mb := by rw [signedMag_eq, signedMag_eq, sgn_not, neg_mul]
    have hdiff := nearestEven_addFinite na ma (!nb) mb
    rwa [hneg, ← sub_eq_add_neg, Int.cast_sub, sub_div, ← fsub_of_finite ha hb] at hdiff
  · rw [← exactValue_mul, fmul_of_finite ha hb]
    exact nearestEven_roundWord _ _ (Nat.two_pow_pos 149)
  · have hmb : mb ≠ 0 := fun hzero => hne ((wordValue_of_view hb).symm.trans ((wordValue_ne_zero_iff hb).2 hzero))
    rw [← exactValue_div na nb ma hmb, fdiv_of_finite ha hb hmb]
    exact nearestEven_roundWord _ _ (Nat.pos_of_ne_zero hmb)

/-! ### Which results are a NaN (R162) -/

theorem view_roundWord_ne_nan (neg : Bool) (num den : Nat) : view (roundWord neg num den) ≠ .nan := by
  by_cases hfin : roundMag num den < 255 * 2 ^ 23
  · rw [view_roundWord neg num hfin]
    exact nofun
  · rw [roundWord_of_overflow neg num hfin, view_infinity]
    exact nofun

theorem view_addFinite_ne_nan (na : Bool) (ma : Nat) (nb : Bool) (mb : Nat) : view (addFinite na ma nb mb) ≠ .nan := by
  obtain ⟨neg, hword, -⟩ := addFinite_eq na ma nb mb
  rw [hword]
  exact view_roundWord_ne_nan _ _ _

theorem isInfWord_iff (w : Word) : isInfWord w ↔ ∃ neg, view w = .infinite neg := by
  simp [view_eq_infinite_iff]

theorem isZeroValue_iff (w : Word) : (isFiniteWord w ∧ wordValue w = 0) ↔ ∃ neg, view w = .finite neg 0 := by
  rw [isFiniteWord_iff]
  constructor
  · rintro ⟨⟨neg, mag, hview⟩, hzero⟩
    exact ⟨neg, by rw [hview, (wordValue_ne_zero_iff hview).1 hzero]⟩
  · rintro ⟨neg, hview⟩
    exact ⟨⟨neg, 0, hview⟩, (wordValue_ne_zero_iff hview).2 rfl⟩

theorem signBit_of_infinite {w : Word} {neg : Bool} (h : view w = .infinite neg) : w.getLsbD 31 = neg :=
  ((view_eq_infinite_iff w neg).1 h).2

/-- A sum is a NaN for a NaN operand and for infinities that cancel. -/
theorem addView_eq_nan_iff {nan : Word} (hnan : view nan = .nan) (va vb : FloatView) :
    view (addView nan va vb) = .nan ↔
      va = .nan ∨ vb = .nan ∨ ∃ neg, va = .infinite neg ∧ vb = .infinite (!neg) := by
  cases va with
  | nan => cases vb <;> simp [addView, hnan]
  | infinite na =>
    cases vb with
    | nan => simp [addView, hnan]
    | infinite nb => cases na <;> cases nb <;> simp [addView, hnan, view_infinity]
    | finite nb mb => simp [addView, view_infinity]
  | finite na ma =>
    cases vb with
    | nan => simp [addView, hnan]
    | infinite nb => simp [addView, view_infinity]
    | finite nb mb => simp [addView, view_addFinite_ne_nan]

theorem fmul_eq_nan_iff (a b : Word) :
    view (fmul a b) = .nan ↔ view a = .nan ∨ view b = .nan ∨
      ((∃ neg, view a = .infinite neg) ∧ ∃ neg, view b = .finite neg 0) ∨
      ((∃ neg, view a = .finite neg 0) ∧ ∃ neg, view b = .infinite neg) := by
  unfold fmul
  cases view a with
  | nan => cases view b <;> simp [view_nanOf]
  | infinite na =>
    cases view b with
    | nan => simp [view_nanOf]
    | infinite nb => simp [view_infinity]
    | finite nb mb => by_cases hzero : mb = 0 <;> simp [hzero, view_nanOf, view_infinity]
  | finite na ma =>
    cases view b with
    | nan => simp [view_nanOf]
    | infinite nb => by_cases hzero : ma = 0 <;> simp [hzero, view_nanOf, view_infinity]
    | finite nb mb => simp [view_roundWord_ne_nan]

theorem fdiv_eq_nan_iff (a b : Word) :
    view (fdiv a b) = .nan ↔ view a = .nan ∨ view b = .nan ∨
      ((∃ neg, view a = .finite neg 0) ∧ ∃ neg, view b = .finite neg 0) ∨
      ((∃ neg, view a = .infinite neg) ∧ ∃ neg, view b = .infinite neg) := by
  unfold fdiv
  cases view a with
  | nan => cases view b <;> simp [view_nanOf]
  | infinite na => cases view b <;> simp [view_nanOf, view_infinity]
  | finite na ma =>
    cases view b with
    | nan => simp [view_nanOf]
    | infinite nb => simp [view_signedZero]
    | finite nb mb =>
      by_cases hb : mb = 0
      · by_cases ha : ma = 0 <;> simp [ha, hb, view_nanOf, view_infinity]
      · simp [hb, view_roundWord_ne_nan]

theorem infinities_iff (a b : Word) (rel : Bool → Bool) :
    (isInfWord a ∧ isInfWord b ∧ b.getLsbD 31 = rel (a.getLsbD 31)) ↔
      ∃ neg, view a = .infinite neg ∧ view b = .infinite (rel neg) := by
  simp only [isInfWord_iff]
  constructor
  · rintro ⟨⟨na, ha⟩, ⟨nb, hb⟩, hsign⟩
    rw [signBit_of_infinite ha, signBit_of_infinite hb] at hsign
    exact ⟨na, ha, hsign ▸ hb⟩
  · rintro ⟨neg, ha, hb⟩
    exact ⟨⟨neg, ha⟩, ⟨_, hb⟩, by rw [signBit_of_infinite ha, signBit_of_infinite hb]⟩

/-- The negated view of `fsub` is a NaN or an infinity where the view is. -/
theorem negView_eq_nan_iff (v : FloatView) : negView v = .nan ↔ v = .nan := by cases v <;> simp [negView]

theorem negView_eq_infinite_iff (v : FloatView) (neg : Bool) : negView v = .infinite (!neg) ↔ v = .infinite neg := by
  cases v <;> simp [negView]

/-- Settles O48: the four operations by the views of their operands. -/
theorem nanExactlyWhenInvalid : Obligations.NanExactlyWhenInvalid := by
  intro a b
  have hopposite : a.getLsbD 31 ≠ b.getLsbD 31 ↔ b.getLsbD 31 = !a.getLsbD 31 := by
    cases a.getLsbD 31 <;> cases b.getLsbD 31 <;> decide
  have hsum := addView_eq_nan_iff (view_nanOf .add a b) (view a) (view b)
  have hdiff := addView_eq_nan_iff (view_nanOf .sub a b) (view a) (negView (view b))
  simp only [negView_eq_nan_iff, negView_eq_infinite_iff] at hdiff
  simp only [← view_eq_nan_iff, isZeroValue_iff, hopposite, infinities_iff a b not]
  refine ⟨hsum, ?_, ?_, ?_⟩
  · rw [@eq_comm _ (a.getLsbD 31)]
    exact hdiff.trans (or_congr_right (or_congr_right (infinities_iff a b id).symm))
  · rw [isInfWord_iff, isInfWord_iff]
    exact fmul_eq_nan_iff a b
  · rw [isInfWord_iff, isInfWord_iff]
    exact fdiv_eq_nan_iff a b

/-! ### Zero results (R161) -/

theorem signedZero_eq (neg : Bool) : signedZero neg = if neg then 0x80000000#32 else 0#32 := by cases neg <;> rfl

theorem signedZero_bne (na nb : Bool) : signedZero (na != nb) = if na = nb then 0#32 else 0x80000000#32 := by
  cases na <;> cases nb <;> rfl

theorem addFinite_of_cancel {na nb : Bool} {ma mb : Nat} (hzero : signedMag na ma + signedMag nb mb = 0)
    (hsign : na = false ∨ nb = false) : addFinite na ma nb mb = 0#32 := by
  rw [addFinite, if_pos hzero, signedZero_eq]
  rcases hsign with rfl | rfl <;> simp

/-- Settles O49: an exact zero is a zero word, with the sign that each operation gives it. -/
theorem zeroResultSigns : Obligations.ZeroResultSigns := by
  intro a b hfa hfb
  obtain ⟨na, ma, ha⟩ := (isFiniteWord_iff a).1 hfa
  obtain ⟨nb, mb, hb⟩ := (isFiniteWord_iff b).1 hfb
  have hna : a.getLsbD 31 = na := signBit_of_view ha
  have hnb : b.getLsbD 31 = nb := signBit_of_view hb
  rw [hna, hnb]
  refine ⟨fun hsum hsign => ?_, ?_, fun hprod => ?_, fun hza hzb => ?_⟩
  · rw [fadd_of_finite ha hb]
    refine addFinite_of_cancel ?_ hsign
    rw [wordValue_of_view ha, wordValue_of_view hb, ← add_div, div_eq_zero_iff] at hsum
    exact_mod_cast hsum.resolve_right (by positivity)
  · rw [fsub_of_finite ha ha]
    refine addFinite_of_cancel (by rw [signedMag_eq, signedMag_eq, sgn_not]; ring) ?_
    cases na <;> simp
  · have hmag : ma * mb = 0 := by
      rw [Nat.mul_eq_zero, ← wordValue_ne_zero_iff ha, ← wordValue_ne_zero_iff hb]
      exact mul_eq_zero.1 hprod
    rw [fmul_of_finite ha hb, hmag, roundWord_zero, signedZero_bne]
  · rw [fdiv_of_finite ha hb (mt (wordValue_ne_zero_iff hb).2 hzb), (wordValue_ne_zero_iff ha).1 hza, Nat.zero_mul,
      roundWord_zero, signedZero_bne]

/-! ### Exact results -/

/-- A result that is a finite magnitude is not changed by rounding: it is itself the nearest value. -/
theorem magOf_roundMag_of_exact {num den m : Nat} (hden : 0 < den) (hm : Representable m) (hnum : num = m * den) :
    roundMag num den < 255 * 2 ^ 23 ∧ magOf (roundMag num den) = m := by
  subst hnum
  have hfin : roundMag (m * den) den < 255 * 2 ^ 23 := by
    obtain ⟨n, k, hn, hk, rfl⟩ := hm
    rw [roundMag_lt_iff _ hden]
    calc n * 2 ^ k * den ≤ (2 ^ 24 - 1) * 2 ^ 253 * den :=
          Nat.mul_le_mul_right den (Nat.mul_le_mul (by omega) (Nat.pow_le_pow_right (by omega) hk))
      _ = (2 ^ 25 - 2) * (den * 2 ^ 252) := by rw [pow_succ]; ring
      _ < (2 ^ 25 - 1) * (den * 2 ^ 252) :=
          Nat.mul_lt_mul_of_pos_right (by omega) (Nat.mul_pos hden (Nat.two_pow_pos 252))
  refine ⟨hfin, ?_⟩
  obtain ⟨hnearest, -⟩ := roundMag_nearest (z := m) (m * den) hden hfin (by simpa using hm)
  rw [Nat.cast_mul, sub_self, abs_zero, abs_nonpos_iff, ← sub_mul, mul_eq_zero] at hnearest
  have hdenZ : (den : ℤ) ≠ 0 := by exact_mod_cast hden.ne'
  have hmag := hnearest.resolve_right hdenZ
  omega

theorem view_roundWord_of_exact (neg : Bool) {num den m : Nat} (hden : 0 < den) (hm : Representable m)
    (hnum : num = m * den) : view (roundWord neg num den) = .finite neg m := by
  obtain ⟨hfin, hmag⟩ := magOf_roundMag_of_exact hden hm hnum
  rw [view_roundWord neg num hfin, hmag]

/-- The word is finite and its value is `z` units of `2^-149`. -/
def HasValue (w : Word) (z : ℤ) : Prop := ∃ neg mag, view w = .finite neg mag ∧ signedMag neg mag = z

theorem wordValue_of_hasValue {w : Word} {z : ℤ} (h : HasValue w z) : wordValue w = z / 2 ^ 149 := by
  obtain ⟨neg, mag, hview, rfl⟩ := h
  exact wordValue_of_view hview

theorem hasValue_unique {w : Word} {y z : ℤ} (hy : HasValue w y) (hz : HasValue w z) : y = z := by
  obtain ⟨neg, mag, hview, rfl⟩ := hy
  obtain ⟨neg', mag', hview', rfl⟩ := hz
  obtain ⟨rfl, rfl⟩ : neg = neg' ∧ mag = mag' := by simpa using hview.symm.trans hview'
  rfl

theorem natAbs_signedMag (neg : Bool) (mag : Nat) : (signedMag neg mag).natAbs = mag := by
  rw [signedMag_eq, natAbs_sgn_mul, Int.natAbs_natCast]

theorem hasValue_roundWord {neg : Bool} {num den : Nat} {z : ℤ} (hden : 0 < den) (hz : Representable z.natAbs)
    (hvalue : sgn neg * num = z * den) : HasValue (roundWord neg num den) z := by
  have habs := congrArg Int.natAbs hvalue
  rw [natAbs_sgn_mul, Int.natAbs_mul, Int.natAbs_natCast, Int.natAbs_natCast] at habs
  refine ⟨neg, z.natAbs, view_roundWord_of_exact neg hden hz habs, ?_⟩
  have hdenZ : (den : ℤ) ≠ 0 := by exact_mod_cast hden.ne'
  refine Int.eq_of_mul_eq_mul_right hdenZ ?_
  rw [signedMag_eq, ← hvalue, habs]
  push_cast
  ring

theorem hasValue_signedZero (neg : Bool) : HasValue (signedZero neg) 0 :=
  ⟨neg, 0, view_signedZero neg, by cases neg <;> rfl⟩

section Operations
variable {a b : Word} {x y z : ℤ} (ha : HasValue a x) (hb : HasValue b y)
include ha hb

theorem hasValue_fadd (hrep : Representable (x + y).natAbs) : HasValue (fadd a b) (x + y) := by
  obtain ⟨na, ma, hviewa, rfl⟩ := ha
  obtain ⟨nb, mb, hviewb, rfl⟩ := hb
  obtain ⟨neg, hword, hsum⟩ := addFinite_eq na ma nb mb
  rw [fadd_of_finite hviewa hviewb, hword]
  exact hasValue_roundWord Nat.one_pos hrep (by rw [hsum, Nat.cast_one, mul_one])

theorem hasValue_fsub (hrep : Representable (x - y).natAbs) : HasValue (fsub a b) (x - y) := by
  obtain ⟨na, ma, hviewa, rfl⟩ := ha
  obtain ⟨nb, mb, hviewb, rfl⟩ := hb
  have hneg : signedMag (!nb) mb = -signedMag nb mb := by rw [signedMag_eq, signedMag_eq, sgn_not, neg_mul]
  obtain ⟨neg, hword, hsum⟩ := addFinite_eq na ma (!nb) mb
  rw [hneg, ← sub_eq_add_neg] at hword hsum
  rw [fsub_of_finite hviewa hviewb, hword]
  exact hasValue_roundWord Nat.one_pos hrep (by rw [hsum, Nat.cast_one, mul_one])

theorem hasValue_fmul (hrep : Representable z.natAbs) (hprod : x * y = z * 2 ^ 149) : HasValue (fmul a b) z := by
  obtain ⟨na, ma, hviewa, rfl⟩ := ha
  obtain ⟨nb, mb, hviewb, rfl⟩ := hb
  rw [fmul_of_finite hviewa hviewb]
  refine hasValue_roundWord (Nat.two_pow_pos 149) hrep ?_
  rw [signedMag_eq, signedMag_eq] at hprod
  rw [sgn_bne]
  push_cast
  linear_combination hprod

theorem hasValue_fdiv (hy : y ≠ 0) (hrep : Representable z.natAbs) (hquot : x * 2 ^ 149 = z * y) :
    HasValue (fdiv a b) z := by
  obtain ⟨na, ma, hviewa, rfl⟩ := ha
  obtain ⟨nb, mb, hviewb, rfl⟩ := hb
  have hmb : mb ≠ 0 := by
    rintro rfl
    exact hy (by rw [signedMag_eq]; simp)
  rw [fdiv_of_finite hviewa hviewb hmb]
  refine hasValue_roundWord (Nat.pos_of_ne_zero hmb) hrep ?_
  rw [signedMag_eq, signedMag_eq] at hquot
  have hsq := sgn_mul_self nb
  rw [sgn_bne]
  push_cast
  linear_combination sgn nb * hquot + z * mb * hsq

end Operations

/-! ### Integers as words -/

theorem hasValue_flInt {i : ℤ} (hrep : Representable (i.natAbs * 2 ^ 149)) : HasValue (flInt i) (i * 2 ^ 149) := by
  refine hasValue_roundWord Nat.one_pos (by rwa [Int.natAbs_mul]) ?_
  have hsign := sgn_decide_mul_natAbs i
  push_cast at hsign ⊢
  linear_combination 2 ^ 149 * hsign

/-- Every integer of magnitude up to `2^24` is exact (R5). -/
theorem hasValue_flInt_of_le {i : ℤ} (hi : i.natAbs ≤ 2 ^ 24) : HasValue (flInt i) (i * 2 ^ 149) :=
  hasValue_flInt (representable_mul_pow hi (by omega))

theorem hasValue_oneWord : HasValue oneWord (2 ^ 149) := ⟨false, 2 ^ 149, by decide, by decide⟩

/-! ### The scale (R172) -/

theorem hasValue_flInt_double {B : Nat} (hB : B ≤ 2 ^ 23) : HasValue (flInt (2 * B)) ((2 * B : ℕ) * 2 ^ 149) := by
  have hcast : (2 * B : ℤ) = (2 * B : ℕ) := by push_cast; rfl
  rw [hcast]
  exact hasValue_flInt_of_le (by omega)

/-- The scale of a block length that is a power of two is exact. -/
theorem hasValue_fdScale_two_pow {k : Nat} (hk : k ≤ 23) : HasValue (fdScale (2 ^ k)) (2 ^ (148 - k)) := by
  have hpow : (2 : ℤ) ^ k * 2 ^ (148 - k) * 2 = 2 ^ 149 := by
    rw [← pow_add, ← pow_succ]
    congr 1
    omega
  have hle : 2 ^ k ≤ 2 ^ 23 := Nat.pow_le_pow_right (by omega) hk
  refine hasValue_fdiv hasValue_oneWord (hasValue_flInt_double hle) ?_ ?_ ?_
  · positivity
  · exact ⟨1, 148 - k, by omega, by omega, by rw [Int.natAbs_pow]; simp⟩
  · push_cast
    linear_combination (-2 ^ 149) * hpow

theorem wordValue_fdScale_two_pow {k : Nat} (hk : k ≤ 23) : wordValue (fdScale (2 ^ k)) = 1 / (2 * (2 ^ k : ℕ)) := by
  have hpow : (2 : ℚ) ^ k * 2 ^ (148 - k) * 2 = 2 ^ 149 := by
    rw [← pow_add, ← pow_succ]
    congr 1
    omega
  rw [wordValue_of_hasValue (hasValue_fdScale_two_pow hk)]
  push_cast
  rw [div_eq_div_iff (by positivity) (by positivity)]
  linear_combination hpow

/-- Settles O50: the divisor is exact, the quotient is the nearest value (O47), and a power of two divides exactly. -/
theorem scaleIsNearestReciprocal : Obligations.ScaleIsNearestReciprocal := by
  intro B hB hBmax
  have hdivisor := hasValue_flInt_double hBmax
  have hvalue : wordValue (flInt (2 * B)) = 2 * B := by
    rw [wordValue_of_hasValue hdivisor, Int.cast_mul, Int.cast_pow, Int.cast_ofNat,
      mul_div_cancel_right₀ _ (by positivity)]
    push_cast
    rfl
  have hone : wordValue oneWord = 1 := by
    rw [wordValue_of_hasValue hasValue_oneWord]
    push_cast
    exact div_self (by positivity)
  have hfinite : ∀ {w : Word} {z : ℤ}, HasValue w z → isFiniteWord w := fun ⟨neg, mag, hview, _⟩ =>
    (isFiniteWord_iff _).2 ⟨neg, mag, hview⟩
  refine ⟨hvalue, ?_, ?_⟩
  · obtain ⟨-, -, -, hquot⟩ := floatOpsRoundToNearestEven _ _ (hfinite hasValue_oneWord) (hfinite hdivisor)
    rw [hvalue, hone] at hquot
    exact hquot (by positivity)
  · rintro k rfl
    exact wordValue_fdScale_two_pow ((Nat.pow_le_pow_iff_right (by omega)).1 hBmax)

end Sys2Proof.Binary32
end

section
/-! SUPPORT and statements of the two convolvers from `INIT` on. Over a fixed input, what the convolver holds after `i` samples: in the
time domain the last samples in the history (R121), in the frequency domain the staged blocks and the partial sums of the block
ring (R134 to R140). Each output is read off that, as the direct form of R124 and the schedule of R145 say. -/

namespace Sys2Proof.ConvolutionStream

open Sys2Proof Sys2Proof.Machine Sys2Proof.RingBuffer Sys2Proof.FreqDomain Sys2Proof.CommandEffects
open Sys2Proof.DeviceInvariant Sys2Proof.SpectralTransform
open Sys2Proof.ResetAndHazards (core_run_succ step_processPacket streamed)

/-! ### A stream whose outputs are known one by one -/

/-- If each sample takes a property of position `i` to position `i + 1` and puts out word `i`, the outputs are those words. -/
theorem stream_outputs {σ : Type} {f : σ → Word → σ × Word} {At : Nat → σ → Prop} {out : Nat → Word} (xs : List Word)
    (hstep : ∀ i t, At i t → At (i + 1) (f t (xs.getD i 0#32)).1 ∧ (f t (xs.getD i 0#32)).2 = out i) {t : σ}
    (h0 : At 0 t) : (stream f t xs).2 = (List.range xs.length).map out := by
  suffices hsuffix : ∀ ys i t, xs.drop i = ys → At i t →
      (stream f t ys).2 = (List.range ys.length).map fun k => out (i + k) by
    simpa using hsuffix xs 0 t rfl h0
  intro ys
  induction ys with
  | nil => intro i t _ _; rfl
  | cons y ys ih =>
    intro i t hdrop hat
    have hhead : xs.getD i 0#32 = y := by
      rw [List.getD_eq_getElem?_getD, ← Nat.add_zero i, ← List.getElem?_drop, hdrop]
      rfl
    have htail : xs.drop (i + 1) = ys := by rw [← List.drop_drop, hdrop, List.drop_one, List.tail_cons]
    obtain ⟨hnext, hout⟩ := hstep i t hat
    rw [hhead] at hnext hout
    rw [stream_cons, hout, ih (i + 1) _ htail hnext, List.length_cons, List.range_succ_eq_map, List.map_cons, List.map_map]
    simp only [Function.comp_def, Nat.succ_eq_add_one, Nat.add_assoc, Nat.add_comm 1, Nat.add_zero]

/-! ### The history (R121) -/

theorem wrap_eq_wrap_iff {a b : ℤ} {n : Nat} (h : 0 < n) : wrap a n = wrap b n ↔ (n : ℤ) ∣ a - b := by
  rw [← Int.natCast_inj, natCast_wrap a h, natCast_wrap b h]
  exact Int.modEq_comm.trans Int.modEq_iff_dvd

/-- What the Time-Domain Convolver holds after `i` samples of `xs`: tap `k` reads the sample `k` places back, `+0.0` before
the stream began. -/
structure HistoryAt (ir xs : List Word) (i : Nat) (t : TdState) : Prop where
  inv : t.Inv ir.length
  coefficient : ∀ k, t.ir.read k = ir.getD k 0#32
  cursor : t.hist.writeIdx = wrap i ir.length
  past : ∀ k < ir.length, t.hist.storage.read (wrap ((i : ℤ) - 1 - k) ir.length) =
    if k < i then xs.getD (i - 1 - k) 0#32 else 0#32

theorem historyAt_construct {ir : List Word} (xs : List Word) (hpos : 1 ≤ ir.length) (hlt : ir.length < 2 ^ 31) :
    HistoryAt ir xs 0 (tdConstruct ir ir.length) where
  inv := tdConstruct_inv rfl hpos hlt
  coefficient := read_load_nil ir
  cursor := by simp [tdConstruct, wrap]
  past k _ := by simp [tdConstruct]

section History
variable {ir xs : List Word} {i : Nat} {t : TdState} (h : HistoryAt ir xs i t)
include h

theorem historyAt_step : HistoryAt ir xs (i + 1) (tdStep ir.length t (xs.getD i 0#32)).1 where
  inv := tdStep_inv h.inv _
  coefficient := h.coefficient
  cursor := by
    have hpos : 0 < ir.length := h.inv.2.1 ▸ n_pos_of_inv h.inv.1
    have hnext : ((wrap i ir.length + 1 : ℕ) : ℤ) = (wrap i ir.length : ℤ) + 1 := by push_cast; rfl
    rw [TimeDomain.tdStep_eq, putAdvance_writeIdx, h.inv.2.1, h.cursor, ← wrap_natCast, hnext, wrap_wrap_add _ _ hpos]
    push_cast
    rfl
  past k hk := by
    have hpos : 0 < ir.length := by omega
    rw [TimeDomain.tdStep_eq, read_putAdvance h.inv.1, h.cursor]
    have haddress : ((i + 1 : ℕ) : ℤ) - 1 - k = (i : ℤ) - k := by omega
    rw [haddress]
    cases k with
    | zero => simp
    | succ k =>
      have hother : ¬(wrap ((i : ℤ) - (k + 1 : ℕ)) ir.length = wrap i ir.length) := by
        rw [wrap_eq_wrap_iff hpos]
        intro hdvd
        have hle := Int.le_of_dvd (by omega) ((Int.dvd_neg).2 hdvd)
        omega
      have hback : (i : ℤ) - (k + 1 : ℕ) = (i : ℤ) - 1 - k := by omega
      rw [if_neg hother, hback, h.past k (by omega)]
      by_cases hki : k < i
      · rw [if_pos hki, if_pos (by omega)]
        congr 1
        omega
      · rw [if_neg hki, if_neg (by omega)]

/-- R124: the FIR sum over the history is the direct form on the stream. -/
theorem historyAt_output : (tdStep ir.length t (xs.getD i 0#32)).2 = firOutput ir xs i := by
  have hnext := historyAt_step h
  have hsum : (tdStep ir.length t (xs.getD i 0#32)).2 =
      firSum (tdStep ir.length t (xs.getD i 0#32)).1.ir (tdStep ir.length t (xs.getD i 0#32)).1.hist ir.length := rfl
  rw [hsum, firSum, firOutput]
  refine List.foldl_ext _ _ _ fun acc k hk => ?_
  have hlt : k < ir.length := List.mem_range.1 hk
  rw [hnext.coefficient, hnext.cursor, sub_sub, sub_eq_add_neg, wrap_wrap_add _ _ (by omega), ← sub_eq_add_neg, ← sub_sub,
    hnext.past k hlt]
  simp only [Nat.lt_succ_iff, Nat.add_sub_cancel]

end History

/-- The output of a freshly constructed Time-Domain Convolver is the direct-form FIR of the stream. -/
theorem tdProcess_eq_firOutput {ir : List Word} (xs : List Word) (hpos : 1 ≤ ir.length) (hlt : ir.length < 2 ^ 31) :
    (tdProcess ir.length (tdConstruct ir ir.length) xs).2 = (List.range xs.length).map (firOutput ir xs) :=
  stream_outputs xs (fun _ _ h => ⟨historyAt_step h, historyAt_output h⟩) (historyAt_construct xs hpos hlt)

/-! ### A run of `INIT` and one `PROCESS` -/

theorem decode_initPacket (mode : BitVec 8) (B : Nat) (ir : List Word) :
    decode (initPacket mode B ir) = .ok (.init mode (BitVec.ofNat 32 ir.length :: BitVec.ofNat 32 B :: ir)) :=
  (Encoding.decode_eq_init_iff _ _ _).2 ⟨Laws.initHeader_masked mode, (PacketRoundTrip.modeField_initHeader mode).symm⟩

/-- From an uninitialised engine, `INIT` with operands that fit and one `PROCESS` answer `OK`, the second with the output of the
convolver just constructed. -/
theorem run_init_process {s : State} {mode : BitVec 8} {m : Mode} {B : Nat} {ir xs : List Word} (hl : s.limits.Inv)
    (heng : s.eng = none) (hmode : modeOf mode = some m) (hfits : Fits s.limits m ir.length B) (hlen : xs.length < 2 ^ 24) :
    ∃ t, core.run 2 (s.withPackets [initPacket mode B ir, processPacket xs]) = .next t ∧
      t.responses = s.responses ++
        [⟨0#32, []⟩, ⟨0#32, ((engineConstruct deviceXfm m ir.length B ir).process deviceXfm xs).2⟩] := by
  have hstep : step (s.withPackets [initPacket mode B ir, processPacket xs]) =
      exec (.init mode (BitVec.ofNat 32 ir.length :: BitVec.ofNat 32 B :: ir)) (s.withPackets [processPacket xs]) :=
    PacketRoundTrip.stepRunsDecodedPacket _ _ _ _ rfl (decode_initPacket mode B ir)
  have hinit := hstep.trans (exec_init_of_fits (s := s.withPackets [processPacket xs]) hl heng hmode hfits)
  have hrange : (engineConstruct deviceXfm m ir.length B ir).inRange = true := by
    have hinv := engineConstruct_inv hl hfits
    cases m with
    | timeDomain => exact TimeDomain.inRange_of_inv hinv.2.2.2.2
    | freqDomain => exact FreqDomain.inRange_of_inv hinv.2.2.2.2.2.2
  have hprocess := step_processPacket
    (s := (s.setEng (some (engineConstruct deviceXfm m ir.length B ir))).pushResponse ⟨0#32, []⟩) rfl hrange hlen []
  refine ⟨_, (core_run_succ hinit 1).trans (core_run_succ hprocess 0), ?_⟩
  simp [streamed, State.withPackets, ResetAndHazards.okResponse]

/-- Settles O42: the run is the convolver's, and its outputs are the direct form. -/
theorem timeDomainIsDirectFir : Obligations.TimeDomainIsDirectFir := by
  intro s B ir xs hl heng hL hLmax hB hBmax hlen
  have hfits : Fits s.limits .timeDomain ir.length B := ⟨hL, hLmax, hB, hBmax, nofun, nofun⟩
  obtain ⟨-, hirMax, -⟩ := id hl
  obtain ⟨t, hrun, hresp⟩ := run_init_process (mode := 0#8) hl heng rfl hfits hlen
  refine ⟨t, hrun, hresp.trans ?_⟩
  rw [← tdProcess_eq_firOutput xs hL (by omega)]
  rfl

end Sys2Proof.ConvolutionStream
end

section
/-! SUPPORT and statements of the frequency-domain convolver from `INIT` on: its partial sums, what it holds after `i` samples, and
the two statements about its output (R143, R145). -/

namespace Sys2Proof.PartitionedStream

open Sys2Proof Sys2Proof.Machine Sys2Proof.RingBuffer Sys2Proof.FreqDomain Sys2Proof.CommandEffects
open Sys2Proof.DeviceInvariant Sys2Proof.SpectralTransform Sys2Proof.ConvolutionStream

/-! ### The partial sums of a block of the convolution (R139, R145) -/

section PartialSums
variable (part : Nat → Nat → Word) (P c : Nat)

/-- What the first `M` frames add to block `c` of the convolution, in the order in which they come: `part j m` is what partition
`j < P` makes of frame `m`, and frame `m` reaches block `c` through partition `c - m`. -/
def partialSum : Nat → Word
  | 0 => 0#32
  | M + 1 => if M ≤ c ∧ c < M + P then fadd (partialSum M) (part (c - M) M) else partialSum M

/-- A block that is further ahead than there are partitions has received nothing. -/
theorem partialSum_of_ahead {M : Nat} (hM : M = 0 ∨ M + P ≤ c + 1) : partialSum part P c M = 0#32 := by
  induction M with
  | zero => rfl
  | succ M ih =>
    have hahead : ¬(M ≤ c ∧ c < M + P) := by omega
    rw [partialSum, if_neg hahead, ih (by omega)]

/-- The partitions that reach block `c`, from the last down to partition 0. -/
def reaching : List Nat := (List.range (min P (c + 1))).reverse

theorem filter_eq_reaching : ((List.range P).reverse.filter fun j => decide (j ≤ c)) = reaching P c := by
  rw [reaching, List.filter_reverse]
  congr 1
  induction P with
  | zero => simp
  | succ P ih =>
    rw [List.range_succ, List.filter_append, ih]
    by_cases hP : P ≤ c
    · rw [Nat.min_eq_left (by omega), Nat.min_eq_left (by omega), List.range_succ]
      simp [hP]
    · rw [Nat.min_eq_right (by omega), Nat.min_eq_right (by omega)]
      simp [hP]

/-- The frames add the partitions from the last that reaches the block downwards. -/
theorem partialSum_add {t : Nat} (ht : t ≤ min P (c + 1)) :
    partialSum part P c (c + 1 - min P (c + 1) + t) =
      ((reaching P c).take t).foldl (fun acc j => fadd acc (part j (c - j))) 0#32 := by
  induction t with
  | zero => exact partialSum_of_ahead part P c (by omega)
  | succ t ih =>
    have hlen : t < (reaching P c).length := by simpa [reaching] using ht
    have hj : (reaching P c)[t] = c - (c + 1 - min P (c + 1) + t) := by
      simp only [reaching, List.getElem_reverse, List.getElem_range, List.length_range]
      omega
    have hframe : c - (c - (c + 1 - min P (c + 1) + t)) = c + 1 - min P (c + 1) + t := by omega
    rw [← Nat.add_assoc, partialSum, if_pos (by omega), ih (by omega), List.take_succ_eq_append_getElem hlen, List.foldl_append, hj]
    simp only [List.foldl_cons, List.foldl_nil, hframe]

/-- All `c + 1` frames that reach block `c` make the whole sum of R145. -/
theorem partialSum_complete :
    partialSum part P c (c + 1) =
      ((List.range P).reverse.filter fun j => decide (j ≤ c)).foldl (fun acc j => fadd acc (part j (c - j))) 0#32 := by
  have hall := partialSum_add part P c (le_refl (min P (c + 1)))
  have hlen : (reaching P c).length = min P (c + 1) := by simp [reaching]
  rw [← hlen, List.take_length, hlen, Nat.sub_add_cancel (Nat.min_le_right _ _)] at hall
  rw [filter_eq_reaching, hall]

end PartialSums

/-! ### What the convolver holds within the stream -/

/-- `M` blocks of the stream `xs` are complete and `q` samples of the next are staged. The tail of the writing block and the head
of the next hold those samples, the head of the writing block the block before (R134); the block of the ring in which block `c`
of the convolution is gathered holds its partial sum over the complete frames (R139). -/
structure StreamAt (xf : Xfm) (ir xs : List Word) (B M q : Nat) (f : FdState) : Prop where
  inv : f.Inv ir.length B
  position : f.writeIdx = q
  writing : f.writeBlock = M % f.r
  reading : 1 ≤ M → f.readBlock = (M - 1) % f.r
  spectra : ∀ j < f.p, f.partSpectrum B j = irSpectrum xf ir ir.length B j
  head : ∀ k < B, f.staging.read (f.writeBlock * (2 * B) + k) = if M = 0 then 0#32 else xs.getD ((M - 1) * B + k) 0#32
  tail : ∀ k < q, f.staging.read (f.writeBlock * (2 * B) + (k + B)) = xs.getD (M * B + k) 0#32
  nextHead : ∀ k < q, f.staging.read (f.nextBlock * (2 * B) + k) = xs.getD (M * B + k) 0#32
  fresh : M = 0 → f.accum = []
  sums : ∀ c n, n < B → M ≤ c + 1 → c + 1 < M + f.r → f.accum.read (c % f.r * B + n) =
    partialSum (fun j m => partitionOfFrame xf ir xs B j m n) f.p c M

theorem partSpectrum_construct (xf : Xfm) (ir : List Word) (B : Nat)
    (hshape : ∀ x, (xf.fwd B x).re.length = B + 1 ∧ (xf.fwd B x).im.length = B + 1) {j : Nat}
    (hj : j < ceilDiv ir.length B) :
    (fdConstruct xf ir ir.length B).partSpectrum B j = irSpectrum xf ir ir.length B j := by
  have hrow : ∀ {m : Memory} {ws : List Word}, ws.length = B + 1 →
      (∀ k ≤ B, m.read (j * (B + 1) + k) = ws.getD k 0#32) → m.slice (j * (B + 1)) (B + 1) = ws := by
    intro m ws hlen hread
    refine List.ext_getElem (by rw [Memory.slice_length, hlen]) fun k hk hk' => ?_
    rw [← List.getD_eq_getElem _ 0#32 hk, ← List.getD_eq_getElem _ 0#32 hk', Memory.slice_getD,
      if_pos (by omega), hread k (by omega)]
  have hread := fun k (hk : k ≤ B) => read_partitionSpectra xf ir ir.length B hshape hj hk
  obtain ⟨hre, him⟩ := hshape (irSegment ir ir.length B j)
  exact congrArg₂ Spectrum.mk (hrow hre fun k hk => (hread k hk).1) (hrow him fun k hk => (hread k hk).2)

theorem streamAt_construct (ir xs : List Word) {B : Nat} (hB : 1 ≤ B) :
    StreamAt deviceXfm ir xs B 0 0 (fdConstruct deviceXfm ir ir.length B) where
  inv := fdConstruct_inv ir hB
  position := rfl
  writing := (Nat.zero_mod _).symm
  reading := by omega
  spectra j hj := partSpectrum_construct deviceXfm ir B (deviceXfm_shape B) hj
  head k _ := rfl
  tail := by omega
  nextHead := by omega
  fresh _ := rfl
  sums c n _ _ _ := rfl

section Step
variable {xf : Xfm} {ir xs : List Word} {B M q : Nat} {f : FdState} (h : StreamAt xf ir xs B M q f)
include h

theorem position_lt : q < B := h.position ▸ writeIdx_lt_of_inv h.inv

theorem writeBlock_lt : f.writeBlock < f.r := (ResetAndHazards.fd_inRange_iff.1 (inRange_of_inv h.inv)).1

theorem nextBlock_eq : f.nextBlock = (M + 1) % f.r := by
  obtain ⟨-, -, -, -, -, -, -, -, -, -, -, -, hnext, -, -⟩ := h.inv
  rw [hnext, h.writing, Nat.mod_add_mod]

theorem nextBlock_ne : f.nextBlock ≠ f.writeBlock := by
  have htwo := two_le_r_of_inv h.inv
  obtain ⟨-, -, -, -, -, -, -, -, -, -, -, hwrite, hnext, -, -⟩ := h.inv
  rw [hnext, succ_mod_eq_ite hwrite]
  split <;> omega

/-! ### Staging one sample (R134) -/

theorem staged_head {k : Nat} (hk : k < B) (x : Word) :
    (staged B f x).staging.read (f.writeBlock * (2 * B) + k) =
      if M = 0 then 0#32 else xs.getD ((M - 1) * B + k) 0#32 := by
  have hne := nextBlock_ne h
  have hother : ¬((f.writeBlock = f.writeBlock ∧ k = f.writeIdx + B) ∨ (f.writeBlock = f.nextBlock ∧ k = f.writeIdx)) := by
    omega
  refine (read_stage (staging_wf_of_inv h.inv) (writeIdx_lt_of_inv h.inv) x _ (by omega)).trans ?_
  rw [if_neg hother, h.head k hk]

theorem staged_tail {k : Nat} (hk : k ≤ q) :
    (staged B f (xs.getD (M * B + q) 0#32)).staging.read (f.writeBlock * (2 * B) + (k + B)) =
      xs.getD (M * B + k) 0#32 := by
  have hlt := position_lt h
  refine (read_stage (staging_wf_of_inv h.inv) (writeIdx_lt_of_inv h.inv) _ _ (by omega)).trans ?_
  rw [h.position]
  rcases Nat.lt_or_eq_of_le hk with hold | rfl
  · have hother : ¬((f.writeBlock = f.writeBlock ∧ k + B = q + B) ∨ (f.writeBlock = f.nextBlock ∧ k + B = q)) := by omega
    rw [if_neg hother, h.tail k hold]
  · rw [if_pos (.inl ⟨rfl, rfl⟩)]

theorem staged_nextHead {k : Nat} (hk : k ≤ q) :
    (staged B f (xs.getD (M * B + q) 0#32)).staging.read (f.nextBlock * (2 * B) + k) = xs.getD (M * B + k) 0#32 := by
  have hlt := position_lt h
  refine (read_stage (staging_wf_of_inv h.inv) (writeIdx_lt_of_inv h.inv) _ _ (by omega)).trans ?_
  rw [h.position]
  rcases Nat.lt_or_eq_of_le hk with hold | rfl
  · have hother : ¬((f.nextBlock = f.writeBlock ∧ k = q + B) ∨ (f.nextBlock = f.nextBlock ∧ k = q)) := by omega
    rw [if_neg hother, h.nextHead k hold]
  · rw [if_pos (.inr ⟨rfl, rfl⟩)]

/-- Inside a block the staged sample is all that changes. -/
theorem streamAt_inside (hinside : q + 1 ≠ B) :
    StreamAt xf ir xs B M (q + 1) (fdStep xf B f (xs.getD (M * B + q) 0#32)).1 := by
  have hinv := fdStep_inv xf h.inv (xs.getD (M * B + q) 0#32)
  rw [fdStep_eq, h.position, if_neg hinside] at hinv ⊢
  exact
    { inv := hinv
      position := congrArg (· + 1) h.position
      writing := h.writing
      reading := h.reading
      spectra := h.spectra
      head := fun _ hk => staged_head h hk _
      tail := fun _ hk => staged_tail h (Nat.le_of_lt_succ hk)
      nextHead := fun _ hk => staged_nextHead h (Nat.le_of_lt_succ hk)
      fresh := h.fresh
      sums := h.sums }

/-! ### The block boundary (R136 to R140) -/

/-- At the last position of a block the writing block holds the frame. -/
theorem frame_of_last (hlast : q + 1 = B) :
    (staged B f (xs.getD (M * B + q) 0#32)).staging.slice (f.writeBlock * (2 * B)) (2 * B) = inputFrame xs B M := by
  refine List.map_congr_left fun k hk => ?_
  have hrange : k < 2 * B := List.mem_range.1 hk
  by_cases hhead : k < B
  · rw [if_pos hhead, staged_head h hhead]
  · obtain ⟨t, rfl⟩ : ∃ t, k = t + B := ⟨k - B, by omega⟩
    rw [if_neg hhead, staged_tail h (by omega), Nat.add_sub_cancel]

/-- Partition `j` of the frame just assembled is what the partition loop adds. -/
theorem partitionResult_of_last (hlast : q + 1 = B) {j : Nat} (hj : j < f.p) (n : Nat) :
    (partitionResult xf ((staged B f (xs.getD (M * B + q) 0#32)).frameSpectrum xf B) B
      (staged B f (xs.getD (M * B + q) 0#32)) j).getD (B + n) 0#32 = partitionOfFrame xf ir xs B j M n := by
  have hspectrum : (staged B f (xs.getD (M * B + q) 0#32)).partSpectrum B j = irSpectrum xf ir ir.length B j :=
    h.spectra j hj
  have hscale : (staged B f (xs.getD (M * B + q) 0#32)).scale = fdScale B := by
    obtain ⟨-, -, hscale, -⟩ := h.inv
    exact hscale
  have hframe : (staged B f (xs.getD (M * B + q) 0#32)).frameSpectrum xf B = xf.fwd B (inputFrame xs B M) :=
    congrArg (xf.fwd B) (frame_of_last h hlast)
  rw [partitionResult, hspectrum, hscale, hframe]
  rfl

/-- The drained block becomes the one of the convolution block furthest ahead, which no frame has reached yet. -/
theorem cleared_sum {c n : Nat} (hn : n < B) (hlow : M ≤ c) (hhigh : c < M + f.r) :
    (if c % f.r = f.readBlock then 0#32 else f.accum.read (c % f.r * B + n)) =
      partialSum (fun j m => partitionOfFrame xf ir xs B j m n) f.p c M := by
  have hpr := p_le_r_of_inv h.inv
  rcases Nat.eq_zero_or_pos M with rfl | hpos
  · rw [h.fresh rfl, Memory.read_nil, ite_self]
    rfl
  · rcases Nat.lt_or_eq_of_le (Nat.le_of_lt_succ (show c < M - 1 + f.r + 1 by omega)) with hbefore | rfl
    · have hne : c % f.r ≠ f.readBlock := by
        rw [h.reading hpos]
        have htarget := target_ne (w := M - 1) (r := f.r) (i := c - (M - 1)) (j := 0) (by omega) (by omega) (by omega)
        rwa [Nat.add_sub_cancel' (by omega), Nat.add_zero] at htarget
      rw [if_neg hne, h.sums c n hn (by omega) (by omega)]
    · have heq : (M - 1 + f.r) % f.r = f.readBlock := by rw [h.reading hpos, Nat.add_mod_right]
      rw [if_pos heq, partialSum_of_ahead _ _ _ (.inr (by omega))]

/-- A boundary adds the new frame to each block of the convolution that it reaches. -/
theorem boundary_sum (hlast : q + 1 = B) {c n : Nat} (hn : n < B) (hlow : M ≤ c) (hhigh : c < M + f.r) :
    ((staged B f (xs.getD (M * B + q) 0#32)).boundary xf B).accum.read (c % f.r * B + n) =
      partialSum (fun j m => partitionOfFrame xf ir xs B j m n) f.p c (M + 1) := by
  have hwf : (staged B f (xs.getD (M * B + q) 0#32)).accum.wf := accum_wf_of_inv (f := f) h.inv
  have hpr := p_le_r_of_inv h.inv
  obtain ⟨j, rfl⟩ := Nat.exists_eq_add_of_le hlow
  have hslot : (M + j) % f.r = (f.writeBlock + j) % f.r := by rw [h.writing, Nat.mod_add_mod]
  rw [partialSum, Nat.add_sub_cancel_left, ← cleared_sum h hn hlow hhigh, hslot]
  by_cases hj : j < f.p
  · rw [if_pos (by omega), ← partitionResult_of_last h hlast hj n]
    exact read_boundary_target (f := staged B f _) xf hwf hpr hj hn
  · rw [if_neg (by omega)]
    exact read_boundary_of_no_target (f := staged B f _) xf hwf
      (fun k hk => target_ne (by omega) (Nat.lt_of_lt_of_le hk hpr) (fun heq => hj (heq ▸ hk))) hn

/-- A boundary makes the block after the current one the writing block, and its head is the block just completed. -/
theorem streamAt_boundary (hlast : q + 1 = B) :
    StreamAt xf ir xs B (M + 1) 0 (fdStep xf B f (xs.getD (M * B + q) 0#32)).1 := by
  have hinv := fdStep_inv xf h.inv (xs.getD (M * B + q) 0#32)
  have hnext := nextBlock_eq h
  rw [fdStep_eq, h.position, if_pos hlast] at hinv ⊢
  have hsum := fun c n hn hlow hhigh => boundary_sum h hlast (c := c) (n := n) hn hlow hhigh
  rw [boundary_frame] at hinv ⊢
  exact
    { inv := hinv
      position := rfl
      writing := hnext
      reading := fun _ => h.writing
      spectra := h.spectra
      head := fun k hk => staged_nextHead h (by omega)
      tail := by omega
      nextHead := by omega
      fresh := by omega
      sums := fun c n hn hlow hhigh => by
        have hrange : c + 1 < M + 1 + f.r := hhigh
        exact hsum c n hn (by omega) (by omega) }

/-! ### The output (R135, R145) -/

theorem partitionedOutput_eq (hM : 1 ≤ M) :
    partitionedOutput xf ir xs B (M * B + q) =
      partialSum (fun j m => partitionOfFrame xf ir xs B j m q) f.p (M - 1) M := by
  have hq := position_lt h
  have hlate : ¬M * B + q < B := by nlinarith
  have hdiv : (M * B + q) / B = M := by
    rw [Nat.mul_comm, Nat.mul_add_div (by omega), Nat.div_eq_of_lt hq, Nat.add_zero]
  have hmod : (M * B + q) % B = q := by rw [Nat.mul_comm, Nat.mul_add_mod, Nat.mod_eq_of_lt hq]
  have hp : f.p = ceilDiv ir.length B := h.inv.1
  have hcomplete := partialSum_complete (fun j m => partitionOfFrame xf ir xs B j m q) f.p (M - 1)
  rw [Nat.sub_add_cancel hM] at hcomplete
  rw [hcomplete, hp]
  simp only [partitionedOutput, if_neg hlate, hdiv, hmod]

/-- The word put out is the complete sum of the block before the current one, and `+0.0` in the first block. -/
theorem streamAt_output (x : Word) : (fdStep xf B f x).2 = partitionedOutput xf ir xs B (M * B + q) := by
  have hq := position_lt h
  have hemit : (fdStep xf B f x).2 = f.accum.read (f.readBlock * B + f.writeIdx) := rfl
  rw [hemit, h.position]
  rcases Nat.eq_zero_or_pos M with rfl | hpos
  · rw [h.fresh rfl, Memory.read_nil, partitionedOutput, if_pos (by omega)]
  · have htwo := two_le_r_of_inv h.inv
    rw [h.reading hpos, h.sums (M - 1) q hq (by omega) (by omega), partitionedOutput_eq h hpos]

end Step

/-- One sample takes the convolver from position `i` of the stream to position `i + 1`. -/
theorem streamAt_step {xf : Xfm} {ir xs : List Word} {B i : Nat} {f : FdState} (h : StreamAt xf ir xs B (i / B) (i % B) f) :
    StreamAt xf ir xs B ((i + 1) / B) ((i + 1) % B) (fdStep xf B f (xs.getD i 0#32)).1 ∧
      (fdStep xf B f (xs.getD i 0#32)).2 = partitionedOutput xf ir xs B i := by
  have hB : 0 < B := Nat.zero_lt_of_lt (position_lt h)
  have hq := position_lt h
  have hi : i / B * B + i % B = i := Nat.div_add_mod' i B
  refine ⟨?_, (streamAt_output h _).trans (by rw [hi])⟩
  by_cases hlast : i % B + 1 = B
  · have hnext : i + 1 = B * (i / B + 1) := by rw [Nat.mul_comm, Nat.add_mul]; omega
    have hdiv : (i + 1) / B = i / B + 1 := by rw [hnext, Nat.mul_div_cancel_left _ hB]
    have hmod : (i + 1) % B = 0 := by rw [hnext, Nat.mul_mod_right]
    have hstep := streamAt_boundary h hlast
    rw [hdiv, hmod]
    rwa [hi] at hstep
  · have hnext : i + 1 = B * (i / B) + (i % B + 1) := by rw [Nat.mul_comm]; omega
    have hin : i % B + 1 < B := by omega
    have hdiv : (i + 1) / B = i / B := by rw [hnext, Nat.mul_add_div hB, Nat.div_eq_of_lt hin, Nat.add_zero]
    have hmod : (i + 1) % B = i % B + 1 := by rw [hnext, Nat.mul_add_mod, Nat.mod_eq_of_lt hin]
    have hstep := streamAt_inside h hlast
    rw [hdiv, hmod]
    rwa [hi] at hstep

/-- The output of a freshly constructed Frequency-Domain Convolver is the partitioned convolution of the stream. -/
theorem fdProcess_eq_partitionedOutput (ir xs : List Word) {B : Nat} (hB : 1 ≤ B) :
    (fdProcess deviceXfm B (fdConstruct deviceXfm ir ir.length B) xs).2 =
      (List.range xs.length).map (partitionedOutput deviceXfm ir xs B) := by
  refine stream_outputs (At := fun i => StreamAt deviceXfm ir xs B (i / B) (i % B)) xs (fun _ _ h => streamAt_step h) ?_
  rw [Nat.zero_div, Nat.zero_mod]
  exact streamAt_construct ir xs hB

/-! ### The statements -/

/-- Settles O44: the run is the convolver's, and its outputs follow the schedule. -/
theorem freqDomainIsPartitionedConvolution : Obligations.FreqDomainIsPartitionedConvolution := by
  intro s B ir xs hl heng hL hLmax hB hBmax hP hlen
  have hfits := fits_freqDomain hl hL hLmax hB hBmax hP
  obtain ⟨t, hrun, hresp⟩ := run_init_process (mode := 1#8) hl heng rfl hfits hlen
  refine ⟨t, hrun, hresp.trans ?_⟩
  rw [← fdProcess_eq_partitionedOutput ir xs hB]
  rfl

/-- Settles O43: the schedule puts out `+0.0` in the first block. -/
theorem freqDomainLatencyIsOneBlock : Obligations.FreqDomainLatencyIsOneBlock := by
  intro s B ir xs hl heng hL hLmax hB hBmax hP hlen
  obtain ⟨t, hrun, hresp⟩ := freqDomainIsPartitionedConvolution s B ir xs hl heng hL hLmax hB hBmax hP hlen
  refine ⟨t, _, hrun, hresp, by simp, fun i hi hlt => ?_⟩
  rw [List.getElem?_map, List.getElem?_range hlt, Option.map_some, partitionedOutput, if_pos hi]

end Sys2Proof.PartitionedStream
end

section
/-! SUPPORT and statement of integer data in the time domain. Integers up to `2^24` are words without rounding, and a sum of them
stays one (R5, R124), so the rounded sum is the sum itself. -/

namespace Sys2Proof.IntegerData

open Sys2Proof Sys2Proof.Machine Sys2Proof.Binary32

/-! ### One addition -/

theorem flInt_zero : flInt 0 = 0#32 := by decide +kernel

theorem not_neg_of_signedMag_pos {neg : Bool} {mag : Nat} (h : 0 < signedMag neg mag) : neg = false := by
  cases neg with
  | false => rfl
  | true => simp only [signedMag, if_true] at h; omega

/-- The word of an integer is negative only with the integer. -/
theorem view_flInt {s : ℤ} (hs : s.natAbs ≤ 2 ^ 24) :
    ∃ mag, view (flInt s) = .finite (decide (s < 0)) mag ∧ signedMag (decide (s < 0)) mag = s * 2 ^ 149 := by
  obtain ⟨neg, mag, hview, hvalue⟩ := hasValue_flInt_of_le hs
  obtain rfl : decide (s < 0) = neg := (signBit_roundWord _ _).symm.trans (signBit_of_view hview)
  exact ⟨mag, hview, hvalue⟩

/-- Adding an integer value to the word of an integer gives the word of the sum; a zero sum is `+0.0`, whatever the sign of a
zero added. -/
theorem fadd_flInt {s p : ℤ} {w : Word} (hs : s.natAbs ≤ 2 ^ 24) (hw : HasValue w (p * 2 ^ 149)) :
    fadd (flInt s) w = flInt (s + p) := by
  obtain ⟨mag, hview, hvalue⟩ := view_flInt hs
  obtain ⟨neg, magw, hvieww, hvaluew⟩ := hw
  have hsum : signedMag (decide (s < 0)) mag + signedMag neg magw = (s + p) * 2 ^ 149 := by rw [hvalue, hvaluew, add_mul]
  rw [fadd_of_finite hview hvieww]
  simp only [addFinite, hsum]
  by_cases hzero : s + p = 0
  · have hsign : (decide (s < 0) && neg) = false := by
      by_cases hneg : s < 0
      · have hpos : 0 < signedMag neg magw := by
          rw [hvaluew]
          exact mul_pos (by omega) (by positivity)
        rw [not_neg_of_signedMag_pos hpos, Bool.and_false]
      · rw [decide_eq_false hneg, Bool.false_and]
    rw [hzero, zero_mul, if_pos rfl, hsign, flInt_zero]
    rfl
  · have hne : (s + p) * 2 ^ 149 ≠ 0 := mul_ne_zero hzero (by positivity)
    have hlt : ((s + p) * 2 ^ 149 < 0) ↔ s + p < 0 := by
      simpa using mul_lt_mul_iff_of_pos_right (b := s + p) (c := 0) (by positivity : (0 : ℤ) < 2 ^ 149)
    rw [if_neg hne, decide_eq_decide.2 hlt, Int.natAbs_mul]
    rfl

/-- A sum of integer values, all of whose partial sums are within `2^24`, is the word of the sum. -/
theorem foldl_fadd_eq {ι : Type} {word : ι → Word} {value : ι → ℤ} {N : Nat} (l : List ι)
    (hvalue : ∀ j ∈ l, HasValue (word j) (value j * 2 ^ 149)) (hbound : ∀ j ∈ l, (value j).natAbs ≤ N) {s : ℤ}
    (hsum : s.natAbs + l.length * N ≤ 2 ^ 24) :
    l.foldl (fun acc j => fadd acc (word j)) (flInt s) = flInt (s + (l.map value).sum) := by
  induction l generalizing s with
  | nil => simp
  | cons j l ih =>
    have hj := hbound j List.mem_cons_self
    have hlen : s.natAbs + (l.length * N + N) ≤ 2 ^ 24 := by simpa [Nat.succ_mul] using hsum
    rw [List.foldl_cons, fadd_flInt (by omega) (hvalue j List.mem_cons_self),
      ih (fun i hi => hvalue i (List.mem_cons_of_mem _ hi)) (fun i hi => hbound i (List.mem_cons_of_mem _ hi)) (by omega),
      List.map_cons, List.sum_cons, add_assoc]

/-! ### Integer lists as words -/

theorem getD_map_flInt (l : List ℤ) (i : Nat) : (l.map flInt).getD i 0#32 = flInt (l.getD i 0) := by
  rw [← flInt_zero, List.getD_map]

theorem natAbs_getD_le {l : List ℤ} {N : Nat} (h : ∀ x ∈ l, x.natAbs ≤ N) (i : Nat) : (l.getD i 0).natAbs ≤ N := by
  by_cases hi : i < l.length
  · rw [List.getD_eq_getElem _ _ hi]
    exact h _ (List.getElem_mem hi)
  · rw [List.getD_eq_default _ _ (Nat.not_lt.1 hi)]
    exact Nat.zero_le N

/-- The product of two words of integers has the product as its value. -/
theorem hasValue_fmul_flInt {c x : ℤ} (hc : c.natAbs ≤ 2 ^ 24) (hx : x.natAbs ≤ 2 ^ 24) (hprod : (c * x).natAbs ≤ 2 ^ 24) :
    HasValue (fmul (flInt c) (flInt x)) (c * x * 2 ^ 149) := by
  refine hasValue_fmul (hasValue_flInt_of_le hc) (hasValue_flInt_of_le hx) ?_ (by ring)
  rw [Int.natAbs_mul]
  exact representable_mul_pow hprod (by omega)

/-! ### The time domain (R124) -/

/-- The sample `k` places before `i`, 0 before the stream began. -/
def sampleBack (xs : List ℤ) (i k : Nat) : ℤ := if k ≤ i then xs.getD (i - k) 0 else 0

theorem flInt_sampleBack (xs : List ℤ) (i k : Nat) :
    (if k ≤ i then (xs.map flInt).getD (i - k) 0#32 else 0#32) = flInt (sampleBack xs i k) := by
  rw [sampleBack]
  split
  next => exact getD_map_flInt xs (i - k)
  next => exact flInt_zero.symm

theorem linearConvolution_eq (ir xs : List ℤ) (i : Nat) :
    linearConvolution ir xs i = ((List.range ir.length).map fun k => ir.getD k 0 * sampleBack xs i k).sum := by
  simp only [linearConvolution, sampleBack, mul_ite, mul_zero]

theorem natAbs_sampleBack_le {xs : List ℤ} {N : Nat} (h : ∀ x ∈ xs, x.natAbs ≤ N) (i k : Nat) :
    (sampleBack xs i k).natAbs ≤ N := by
  rw [sampleBack]
  split
  next => exact natAbs_getD_le h _
  next => exact Nat.zero_le N

/-- Settles O45: the output is the direct form (O42), and on these integers none of its operations rounds. -/
theorem timeDomainExactOnIntegers : Obligations.TimeDomainExactOnIntegers := by
  intro ir xs a b hlen ha hb hbound hir hxs
  have hab : a * b ≤ 2 ^ 24 := (Nat.le_mul_of_pos_left _ hlen).trans hbound
  have ha24 : a ≤ 2 ^ 24 := (Nat.le_mul_of_pos_right a hb).trans hab
  have hb24 : b ≤ 2 ^ 24 := (Nat.le_mul_of_pos_left b ha).trans hab
  have hlen24 : ir.length ≤ 2 ^ 24 := (Nat.le_mul_of_pos_right _ (Nat.mul_pos ha hb)).trans hbound
  have hfir := ConvolutionStream.tdProcess_eq_firOutput (ir := ir.map flInt) (xs.map flInt)
    (by rwa [List.length_map]) (by rw [List.length_map]; omega)
  rw [List.length_map, List.length_map] at hfir
  rw [hfir]
  refine List.map_congr_left fun i _ => ?_
  have hprod : ∀ k, (ir.getD k 0 * sampleBack xs i k).natAbs ≤ a * b := fun k => by
    rw [Int.natAbs_mul]
    exact Nat.mul_le_mul (natAbs_getD_le hir k) (natAbs_sampleBack_le hxs i k)
  have hword : ∀ k, HasValue (fmul (flInt (ir.getD k 0)) (flInt (sampleBack xs i k)))
      (ir.getD k 0 * sampleBack xs i k * 2 ^ 149) := fun k =>
    hasValue_fmul_flInt ((natAbs_getD_le hir k).trans ha24) ((natAbs_sampleBack_le hxs i k).trans hb24) ((hprod k).trans hab)
  have hsum := foldl_fadd_eq (s := 0) (List.range ir.length) (fun k _ => hword k) (fun k _ => hprod k)
    (by simpa using hbound)
  rw [zero_add, flInt_zero, ← linearConvolution_eq] at hsum
  rw [← hsum, firOutput, List.length_map]
  simp only [flInt_sampleBack]
  simp only [getD_map_flInt]

end Sys2Proof.IntegerData
end

section
/-! SUPPORT and statements of the words of the device's transform: its shape and zeros (`XP1`, `XP3` of R169), and for `T = 2` and
`T = 4` on the grid the sums of R166 and R167 (`XP4`). A list of words on the grid goes with the list of its values in units of
`2^-8`, on which the device sums exactly. -/

namespace Sys2Proof.TransformWords

open Sys2Proof Sys2Proof.Machine Sys2Proof.Binary32 Sys2Proof.SpectralTransform

/-! ### Zeros (`XP3`) -/

theorem isZeroWord_of_isZeroBits {w : Word} (h : isZeroBits w) : isZeroWord w = true := by
  rcases h with rfl | rfl <;> decide

theorem isZeroBits_signedZero (neg : Bool) : isZeroBits (signedZero neg) := by
  cases neg
  · exact .inl rfl
  · exact .inr rfl

theorem isZeroBits_settleWord {inputs : List Word} (h : ∀ w ∈ inputs, isZeroBits w) (draw : Word) (B : Nat)
    (exact? : Option Int) : isZeroBits (settleWord draw B inputs exact?) := by
  have hall : inputs.all isZeroWord = true := List.all_eq_true.2 fun w hw => isZeroWord_of_isZeroBits (h w hw)
  simp only [settleWord, hall, if_true]
  exact isZeroBits_signedZero _

/-- Settles O52: the shape is that of the lists, and every output word of zeros is settled as a zero. -/
theorem transformShapeAndZeros : Obligations.TransformShapeAndZeros := by
  intro B x sp
  refine ⟨xfmForward_re_length _ B x, xfmForward_im_length _ B x, xfmInverse_length _ B sp, fun hx => ⟨?_, ?_⟩,
    fun hre him => ?_⟩
  · exact List.forall_mem_map.2 fun k _ => isZeroBits_settleWord hx _ _ _
  · exact List.forall_mem_map.2 fun k _ => isZeroBits_settleWord hx _ _ _
  · refine List.forall_mem_map.2 fun n _ => isZeroBits_settleWord (fun w hw => ?_) _ _ _
    rcases List.mem_append.1 hw with hw | hw
    · exact hre w hw
    · exact him w hw

/-! ### The grid of `XP4` -/

/-- The word is on the grid, with the value `z` units of `2^-8`. -/
def GridValue (w : Word) (z : ℤ) : Prop := z.natAbs ≤ 2 ^ 18 ∧ HasValue w (z * 2 ^ 141)

theorem gridValue_eq {w : Word} {z : ℤ} (h : GridValue w z) : gridValue w = some z := by
  obtain ⟨hz, neg, mag, hview, hvalue⟩ := h
  have hmag : mag = z.natAbs * 2 ^ 141 := by rw [← natAbs_signedMag neg mag, hvalue, Int.natAbs_mul]; rfl
  have hrange : mag % 2 ^ 141 = 0 ∧ mag ≤ 2 ^ 159 := by
    refine ⟨by rw [hmag, Nat.mul_mod_left], ?_⟩
    calc mag = z.natAbs * 2 ^ 141 := hmag
      _ ≤ 2 ^ 18 * 2 ^ 141 := Nat.mul_le_mul_right _ hz
      _ = 2 ^ 159 := by rw [← pow_add]
  have hquot : mag / 2 ^ 141 = z.natAbs := by rw [hmag, Nat.mul_div_cancel _ (Nat.two_pow_pos 141)]
  have hsign : signedMag neg z.natAbs = z := by
    refine Int.eq_of_mul_eq_mul_right (show (2 ^ 141 : ℤ) ≠ 0 by positivity) ?_
    rw [← hvalue, hmag, signedMag_eq, signedMag_eq]
    push_cast
    ring
  simp only [gridValue, hview, if_pos hrange, hquot, hsign]

theorem exists_gridValue {w : Word} (h : onGrid w) : ∃ z, GridValue w z := by
  obtain ⟨hfin, z, hz, hvalue⟩ := h
  obtain ⟨neg, mag, hview⟩ := (isFiniteWord_iff w).1 hfin
  have heq : ((signedMag neg mag : ℤ) : ℚ) = (z * 2 ^ 141 : ℤ) := by
    rw [wordValue_of_view hview, div_eq_div_iff (by positivity) (by positivity)] at hvalue
    push_cast
    linear_combination hvalue / 2 ^ 8
  exact ⟨z, by rw [Int.abs_eq_natAbs] at hz; omega, neg, mag, hview, by exact_mod_cast heq⟩

/-- The words of a list on the grid, with their values. -/
def GridValues (x : List Word) (v : List ℤ) : Prop := List.Forall₂ GridValue x v

theorem exists_gridValues {x : List Word} (h : ∀ w ∈ x, onGrid w) : ∃ v, GridValues x v := by
  induction x with
  | nil => exact ⟨[], .nil⟩
  | cons w x ih =>
    obtain ⟨hw, hx⟩ := List.forall_mem_cons.1 h
    obtain ⟨z, hz⟩ := exists_gridValue hw
    obtain ⟨v, hv⟩ := ih hx
    exact ⟨z :: v, .cons hz hv⟩

theorem mapM_gridValue {x : List Word} {v : List ℤ} (h : GridValues x v) : x.mapM gridValue = some v := by
  induction h with
  | nil => rfl
  | cons hw _ ih => simp [List.mapM_cons, gridValue_eq hw, ih]

theorem gridValue_getD {x : List Word} {v : List ℤ} (h : GridValues x v) (i : Nat) :
    GridValue (x.getD i 0#32) (v.getD i 0) := by
  induction h generalizing i with
  | nil => exact ⟨Nat.zero_le _, by simpa [signedZero_eq] using hasValue_signedZero false⟩
  | cons hw _ ih =>
    cases i with
    | zero => exact hw
    | succ i => exact ih i

/-- Zero words have zero values. -/
theorem getD_eq_zero_of_all {x : List Word} {v : List ℤ} (h : GridValues x v) (hzero : x.all isZeroWord = true) (i : Nat) :
    v.getD i 0 = 0 := by
  induction h generalizing i with
  | nil => rfl
  | @cons w z x v hw _ ih =>
    rw [List.all_cons, Bool.and_eq_true] at hzero
    cases i with
    | zero =>
      obtain ⟨-, neg, mag, hview, hvalue⟩ := hw
      have hmag : mag = 0 := by simpa [isZeroWord, eqZero, hview] using hzero.1
      rw [hmag, signedMag_eq, Nat.cast_zero, mul_zero, eq_comm, mul_eq_zero] at hvalue
      exact hvalue.resolve_right (by positivity)
    | succ i => exact ih hzero.2 i

theorem wordValue_of_gridValue {w : Word} {z : ℤ} (h : HasValue w (z * 2 ^ 141)) : (wordValue w : ℝ) = z / 2 ^ 8 := by
  have hvalue : wordValue w = z / 2 ^ 8 := by
    rw [wordValue_of_hasValue h, div_eq_div_iff (by positivity) (by positivity)]
    push_cast
    ring
  rw [hvalue]
  push_cast
  rfl

theorem realSamples_of_gridValues {x : List Word} {v : List ℤ} (h : GridValues x v) :
    realSamples x = fun n => (1 / 2 ^ 8 : ℝ) * intSamples v n := by
  funext n
  rw [realSamples, wordValue_of_gridValue (gridValue_getD h n).2, intSamples]
  ring

/-! ### The settled word -/

/-- On the grid of a small transform the word has the exact value, as a zero or not. -/
theorem hasValue_settleWord {B : Nat} (hB : B = 1 ∨ B = 2) (draw : Word) {inputs : List Word} {z : ℤ}
    (hzero : inputs.all isZeroWord = true → z = 0) (hz : z.natAbs ≤ 2 ^ 24) :
    HasValue (settleWord draw B inputs (some z)) (z * 2 ^ 141) := by
  rw [settleWord]
  split
  next hall =>
    rw [hzero hall, zero_mul]
    exact hasValue_signedZero _
  next =>
    simp only [gridWord]
    split
    next hz0 =>
      rw [hz0, zero_mul]
      exact hasValue_signedZero _
    next =>
      refine hasValue_roundWord Nat.one_pos ?_ ?_
      · rw [Int.natAbs_mul]
        exact representable_mul_pow hz (by omega)
      · have hsign := sgn_decide_mul_natAbs z
        push_cast at hsign ⊢
        linear_combination 2 ^ 141 * hsign

/-! ### The three sums on the grid -/

theorem natAbs_exactFwdRe_le (B : Nat) {v : List ℤ} {N : Nat} (h : ∀ i, (v.getD i 0).natAbs ≤ N) (k : Nat) :
    (exactFwdRe B v k).natAbs ≤ 4 * N := by
  have h0 := h 0
  have h1 := h 1
  have h2 := h 2
  have h3 := h 3
  simp only [exactFwdRe]
  split_ifs <;> omega

theorem natAbs_exactFwdIm_le (B : Nat) {v : List ℤ} {N : Nat} (h : ∀ i, (v.getD i 0).natAbs ≤ N) (k : Nat) :
    (exactFwdIm B v k).natAbs ≤ 4 * N := by
  have h1 := h 1
  have h3 := h 3
  simp only [exactFwdIm]
  split_ifs <;> omega

theorem natAbs_exactInv_le (B : Nat) {re im : List ℤ} {N : Nat} (hre : ∀ i, (re.getD i 0).natAbs ≤ N)
    (him : ∀ i, (im.getD i 0).natAbs ≤ N) (n : Nat) : (exactInv B re im n).natAbs ≤ 4 * N := by
  have h0 := hre 0
  have h1 := hre 1
  have h2 := hre 2
  have i1 := him 1
  simp only [exactInv]
  split_ifs <;> omega

section Exact
variable {B : Nat} (hB : B = 1 ∨ B = 2) {x : List Word} {v : List ℤ} (h : GridValues x v) (draw : XfmDraw)
include hB h

/-- `XP4`, real parts: every bin is the exact sum. -/
theorem hasValue_fwd_re {k : Nat} (hk : k ≤ B) :
    HasValue ((xfmForward draw B x).re.getD k 0#32) (exactFwdRe B v k * 2 ^ 141) := by
  have hword : (xfmForward draw B x).re.getD k 0#32 =
      settleWord (draw.fwdRe B x k) B x (some (exactFwdRe B v k)) := by
    simp only [xfmForward, mapM_gridValue h, Option.map_some]
    exact getD_map_range_succ hk _
  have hbound := natAbs_exactFwdRe_le B (fun i => (gridValue_getD h i).1) k
  rw [hword]
  refine hasValue_settleWord hB _ (fun hall => ?_) (by omega)
  have hzero := natAbs_exactFwdRe_le B (N := 0) (fun i => by rw [getD_eq_zero_of_all h hall i]; rfl) k
  omega

/-- `XP4`, imaginary parts. -/
theorem hasValue_fwd_im {k : Nat} (hk : k ≤ B) :
    HasValue ((xfmForward draw B x).im.getD k 0#32) (exactFwdIm B v k * 2 ^ 141) := by
  have hword : (xfmForward draw B x).im.getD k 0#32 =
      settleWord (draw.fwdIm B x k) B x (some (exactFwdIm B v k)) := by
    simp only [xfmForward, mapM_gridValue h, Option.map_some]
    exact getD_map_range_succ hk _
  have hbound := natAbs_exactFwdIm_le B (fun i => (gridValue_getD h i).1) k
  rw [hword]
  refine hasValue_settleWord hB _ (fun hall => ?_) (by omega)
  have hzero := natAbs_exactFwdIm_le B (N := 0) (fun i => by rw [getD_eq_zero_of_all h hall i]; rfl) k
  omega

omit h

/-- `XP4`, the inverse: every sample is the exact sum. -/
theorem hasValue_inv {sp : Spectrum} {re im : List ℤ} (hre : GridValues sp.re re) (him : GridValues sp.im im) {n : Nat}
    (hn : n < 2 * B) : HasValue ((xfmInverse draw B sp).getD n 0#32) (exactInv B re im n * 2 ^ 141) := by
  have hword : (xfmInverse draw B sp).getD n 0#32 =
      settleWord (draw.inv B sp.re sp.im n) B (sp.re ++ sp.im) (some (exactInv B re im n)) := by
    have hlt : n < (xfmInverse draw B sp).length := by rwa [xfmInverse_length]
    rw [List.getD_eq_getElem _ _ hlt]
    simp [xfmInverse, mapM_gridValue hre, mapM_gridValue him]
  have hbound := natAbs_exactInv_le B (fun i => (gridValue_getD hre i).1) (fun i => (gridValue_getD him i).1) n
  rw [hword]
  refine hasValue_settleWord hB _ (fun hall => ?_) (by omega)
  rw [List.all_append, Bool.and_eq_true] at hall
  have hzero := natAbs_exactInv_le B (N := 0) (fun i => by rw [getD_eq_zero_of_all hre hall.1 i]; rfl)
    (fun i => by rw [getD_eq_zero_of_all him hall.2 i]; rfl) n
  omega

end Exact

/-! ### The sums over the real numbers are linear (R166, R167) -/

theorem realFwdRe_mul (B : ℕ) (c : ℝ) (x : ℕ → ℝ) (k : ℕ) : realFwdRe B (fun n => c * x n) k = c * realFwdRe B x k := by
  simp only [realFwdRe, Finset.mul_sum, mul_assoc]

theorem realFwdIm_mul (B : ℕ) (c : ℝ) (x : ℕ → ℝ) (k : ℕ) : realFwdIm B (fun n => c * x n) k = c * realFwdIm B x k := by
  simp only [realFwdIm, mul_neg, Finset.mul_sum, mul_assoc]

theorem realInv_mul (B : ℕ) (c : ℝ) (re im : ℕ → ℝ) (n : ℕ) :
    realInv B ⟨fun k => c * re k, fun k => c * im k⟩ n = c * realInv B ⟨re, im⟩ n := by
  have hterm : ∀ k, c * re k * Real.cos (binAngle B k n) - c * im k * Real.sin (binAngle B k n) =
      c * (re k * Real.cos (binAngle B k n) - im k * Real.sin (binAngle B k n)) := fun k => by ring
  simp only [realInv, hterm, ← Finset.mul_sum]
  ring

/-- Settles O53: the settled words have the values of the device's sums, and those are the sums over the real numbers. -/
theorem smallTransformsAreExact : Obligations.SmallTransformsAreExact := by
  intro B x sp hB
  refine ⟨fun _ hx k hk => ?_, fun _ _ hre him n hn => ?_⟩
  · obtain ⟨v, hv⟩ := exists_gridValues hx
    have hsamples := realSamples_of_gridValues hv
    have hvre : realSamples (deviceXfm.fwd B x).re k = exactFwdRe B v k / 2 ^ 8 :=
      wordValue_of_gridValue (hasValue_fwd_re hB hv Config.xfmDraw hk)
    have hvim : realSamples (deviceXfm.fwd B x).im k = exactFwdIm B v k / 2 ^ 8 :=
      wordValue_of_gridValue (hasValue_fwd_im hB hv Config.xfmDraw hk)
    rw [hsamples, realFwdRe_mul, realFwdIm_mul, ← exactFwdRe_eq_real hB v hk, ← exactFwdIm_eq_real hB v hk]
    exact ⟨hvre.trans (by ring), hvim.trans (by ring)⟩
  · obtain ⟨re, hvre⟩ := exists_gridValues hre
    obtain ⟨im, hvim⟩ := exists_gridValues him
    have hvalue : realSamples (deviceXfm.inv B sp) n = exactInv B re im n / 2 ^ 8 :=
      wordValue_of_gridValue (hasValue_inv hB Config.xfmDraw hvre hvim hn)
    rw [Spectrum.reals, realSamples_of_gridValues hvre, realSamples_of_gridValues hvim, realInv_mul,
      ← exactInv_eq_real hB re im hn]
    exact hvalue.trans (by ring)

end Sys2Proof.TransformWords
end

section
/-! SUPPORT and statement of integer data in the frequency domain. For `T = 2` and `T = 4` and integers of magnitude up to 8 no
operation of a partition rounds, so its word is the exact circular convolution of its frame and its segment, whose back half
is the linear one; the partitions add up to the linear convolution (R143, R145, R169). -/

namespace Sys2Proof.IntegerPartitions

open Sys2Proof Sys2Proof.Machine Sys2Proof.Binary32 Sys2Proof.SpectralTransform Sys2Proof.IntegerData
open Sys2Proof.TransformWords

/-! ### Integers on the grid -/

theorem gridValues_map_flInt {u : List ℤ} (h : ∀ a ∈ u, a.natAbs ≤ 8) : GridValues (u.map flInt) (u.map (2 ^ 8 * ·)) := by
  rw [GridValues, List.forall₂_map_left_iff, List.forall₂_map_right_iff, List.forall₂_same]
  intro a ha
  have hle := h a ha
  refine ⟨by omega, ?_⟩
  have hvalue := hasValue_flInt_of_le (i := a) (by omega)
  rwa [show (2 ^ 8 * a) * 2 ^ 141 = a * 2 ^ 149 by ring]

theorem getD_map_mul (c : ℤ) (v : List ℤ) (i : Nat) : (v.map (c * ·)).getD i 0 = c * v.getD i 0 := by
  conv_lhs => rw [← mul_zero c, List.getD_map (f := (c * ·))]

theorem exactFwdRe_map_mul (B : Nat) (c : ℤ) (v : List ℤ) (k : Nat) :
    exactFwdRe B (v.map (c * ·)) k = c * exactFwdRe B v k := by
  simp only [exactFwdRe, getD_map_mul]
  split_ifs <;> ring

theorem exactFwdIm_map_mul (B : Nat) (c : ℤ) (v : List ℤ) (k : Nat) :
    exactFwdIm B (v.map (c * ·)) k = c * exactFwdIm B v k := by
  simp only [exactFwdIm, getD_map_mul]
  split_ifs <;> ring

theorem exactInv_map_mul (B : Nat) (c : ℤ) (re im : List ℤ) (n : Nat) :
    exactInv B (re.map (c * ·)) (im.map (c * ·)) n = c * exactInv B re im n := by
  simp only [exactInv, getD_map_mul]
  split_ifs <;> ring

theorem representable_of_le {z : ℤ} (hz : z.natAbs ≤ 2 ^ 24) : Representable (z * 2 ^ 149).natAbs := by
  rw [Int.natAbs_mul]
  exact representable_mul_pow hz (by omega)

section Small
variable {B : Nat} (hB : B = 1 ∨ B = 2)
include hB

/-! ### The spectrum of integers -/

theorem hasValue_spectrum_re {u : List ℤ} (h : ∀ a ∈ u, a.natAbs ≤ 8) {k : Nat} (hk : k ≤ B) :
    HasValue ((deviceXfm.fwd B (u.map flInt)).re.getD k 0#32) (exactFwdRe B u k * 2 ^ 149) := by
  have hvalue := hasValue_fwd_re hB (gridValues_map_flInt h) Config.xfmDraw hk
  rw [exactFwdRe_map_mul] at hvalue
  rwa [show exactFwdRe B u k * 2 ^ 149 = 2 ^ 8 * exactFwdRe B u k * 2 ^ 141 by ring]

theorem hasValue_spectrum_im {u : List ℤ} (h : ∀ a ∈ u, a.natAbs ≤ 8) {k : Nat} (hk : k ≤ B) :
    HasValue ((deviceXfm.fwd B (u.map flInt)).im.getD k 0#32) (exactFwdIm B u k * 2 ^ 149) := by
  have hvalue := hasValue_fwd_im hB (gridValues_map_flInt h) Config.xfmDraw hk
  rw [exactFwdIm_map_mul] at hvalue
  rwa [show exactFwdIm B u k * 2 ^ 149 = 2 ^ 8 * exactFwdIm B u k * 2 ^ 141 by ring]

/-! ### The scaled product of two spectra (R171) -/

/-- The scale `1 / (2*B)` in units of `2^-8`. -/
def scaleUnits (B : Nat) : ℤ := if B = 1 then 128 else 64

theorem hasValue_scale : HasValue (fdScale B) (scaleUnits B * 2 ^ 141) := by
  rcases hB with rfl | rfl
  · exact hasValue_fdScale_two_pow (k := 0) (by omega)
  · exact hasValue_fdScale_two_pow (k := 1) (by omega)

/-- The exact product of two spectra, bin by bin: its real and its imaginary parts. -/
def productRe (B : Nat) (u g : List ℤ) : List ℤ := (List.range (B + 1)).map fun k =>
  exactFwdRe B u k * exactFwdRe B g k - exactFwdIm B u k * exactFwdIm B g k

def productIm (B : Nat) (u g : List ℤ) : List ℤ := (List.range (B + 1)).map fun k =>
  exactFwdRe B u k * exactFwdIm B g k + exactFwdIm B u k * exactFwdRe B g k

/-- One bin of `CMUL` on integers of magnitude up to 32: six products, a difference and a sum, none of them rounded. -/
theorem gridValue_cmulBin {xr xi hr hi : Word} {a b c d : ℤ} (hxr : HasValue xr (a * 2 ^ 149)) (hxi : HasValue xi (b * 2 ^ 149))
    (hhr : HasValue hr (c * 2 ^ 149)) (hhi : HasValue hi (d * 2 ^ 149)) (ha : a.natAbs ≤ 32) (hb : b.natAbs ≤ 32)
    (hc : c.natAbs ≤ 32) (hd : d.natAbs ≤ 32) :
    GridValue (cmulBin xr xi hr hi (fdScale B)).1 (scaleUnits B * (a * c - b * d)) ∧
    GridValue (cmulBin xr xi hr hi (fdScale B)).2 (scaleUnits B * (a * d + b * c)) := by
  have hprod : ∀ {p q : ℤ}, p.natAbs ≤ 32 → q.natAbs ≤ 32 → (p * q).natAbs ≤ 2 ^ 10 := fun hp hq => by
    rw [Int.natAbs_mul]
    exact (Nat.mul_le_mul hp hq).trans (by norm_num)
  have hmul : ∀ {v w : Word} {p q : ℤ}, HasValue v (p * 2 ^ 149) → HasValue w (q * 2 ^ 149) → p.natAbs ≤ 32 →
      q.natAbs ≤ 32 → HasValue (fmul v w) (p * q * 2 ^ 149) := fun hv hw hp hq =>
    hasValue_fmul hv hw (representable_of_le ((hprod hp hq).trans (by omega))) (by ring)
  have hscaled : ∀ {w : Word} {z : ℤ}, z.natAbs ≤ 2 ^ 11 → HasValue w (z * 2 ^ 149) →
      GridValue (fmul (fdScale B) w) (scaleUnits B * z) := fun {w z} hz hw => by
    have hunits : (scaleUnits B * z).natAbs ≤ 2 ^ 18 := by
      rw [scaleUnits]
      split <;> omega
    refine ⟨hunits, hasValue_fmul (hasValue_scale hB) hw ?_ (by ring)⟩
    rw [Int.natAbs_mul]
    exact representable_mul_pow (hunits.trans (by omega)) (by omega)
  have hac := hprod ha hc
  have hbd := hprod hb hd
  have had := hprod ha hd
  have hbc := hprod hb hc
  have hdiff := hasValue_fsub (hmul hxr hhr ha hc) (hmul hxi hhi hb hd)
    (by rw [← sub_mul]; exact representable_of_le (by omega))
  have hsum := hasValue_fadd (hmul hxr hhi ha hd) (hmul hxi hhr hb hc)
    (by rw [← add_mul]; exact representable_of_le (by omega))
  rw [← sub_mul] at hdiff
  rw [← add_mul] at hsum
  exact ⟨hscaled (by omega) hdiff, hscaled (by omega) hsum⟩

theorem gridValues_cmul {u g : List ℤ} (hu : ∀ a ∈ u, a.natAbs ≤ 8) (hg : ∀ a ∈ g, a.natAbs ≤ 8) :
    GridValues (cmul B (deviceXfm.fwd B (u.map flInt)) (deviceXfm.fwd B (g.map flInt)) (fdScale B)).re
      ((productRe B u g).map (scaleUnits B * ·)) ∧
    GridValues (cmul B (deviceXfm.fwd B (u.map flInt)) (deviceXfm.fwd B (g.map flInt)) (fdScale B)).im
      ((productIm B u g).map (scaleUnits B * ·)) := by
  have hbin := fun k (hk : k ≤ B) =>
    gridValue_cmulBin hB (hasValue_spectrum_re hB hu hk) (hasValue_spectrum_im hB hu hk) (hasValue_spectrum_re hB hg hk)
      (hasValue_spectrum_im hB hg hk) (natAbs_exactFwdRe_le B (natAbs_getD_le hu) k) (natAbs_exactFwdIm_le B (natAbs_getD_le hu) k)
      (natAbs_exactFwdRe_le B (natAbs_getD_le hg) k) (natAbs_exactFwdIm_le B (natAbs_getD_le hg) k)
  simp only [GridValues, cmul, productRe, productIm, List.map_map, List.forall₂_map_left_iff, List.forall₂_map_right_iff,
    List.forall₂_same, List.mem_range]
  exact ⟨fun k hk => (hbin k (Nat.le_of_lt_succ hk)).1, fun k hk => (hbin k (Nat.le_of_lt_succ hk)).2⟩

/-! ### One partition of one frame -/

/-- The back half of the circular convolution of a frame and a segment of `B` coefficients: the linear one. -/
def segmentConvolution (B : Nat) (u g : List ℤ) (n : Nat) : ℤ := ∑ t ∈ Finset.range B, g.getD t 0 * u.getD (B + n - t) 0

/-- R168 for `T = 2` and `T = 4`, for a segment whose second half is zero. -/
theorem exactInv_product {u g : List ℤ} (hg : ∀ t, B ≤ t → g.getD t 0 = 0) {n : Nat} (hn : n < B) :
    exactInv B (productRe B u g) (productIm B u g) (B + n) = 2 * B * segmentConvolution B u g n := by
  simp only [List.getD_eq_getElem?_getD] at hg
  rcases hB with rfl | rfl
  · obtain rfl : n = 0 := by omega
    simp [exactInv, productRe, exactFwdRe, exactFwdIm, segmentConvolution, List.range_succ, hg 1 le_rfl]
    ring
  · have hg2 := hg 2 (by omega)
    have hg3 := hg 3 (by omega)
    interval_cases n <;>
      simp [exactInv, productRe, productIm, exactFwdRe, exactFwdIm, segmentConvolution, List.range_succ,
        Finset.sum_range_succ, hg2, hg3] <;> ring

theorem hasValue_partition {u g : List ℤ} (hu : ∀ a ∈ u, a.natAbs ≤ 8) (hg : ∀ a ∈ g, a.natAbs ≤ 8)
    (hpad : ∀ t, B ≤ t → g.getD t 0 = 0) {n : Nat} (hn : n < B) :
    HasValue ((deviceXfm.inv B (cmul B (deviceXfm.fwd B (u.map flInt)) (deviceXfm.fwd B (g.map flInt)) (fdScale B))).getD
      (B + n) 0#32) (segmentConvolution B u g n * 2 ^ 149) := by
  obtain ⟨hre, him⟩ := gridValues_cmul hB hu hg
  have hvalue := hasValue_inv hB Config.xfmDraw hre him (n := B + n) (by omega)
  have hunits : scaleUnits B * (2 * B) = 2 ^ 8 := by rcases hB with rfl | rfl <;> rfl
  rw [exactInv_map_mul, exactInv_product hB hpad hn, ← mul_assoc, hunits] at hvalue
  rwa [show segmentConvolution B u g n * 2 ^ 149 = 2 ^ 8 * segmentConvolution B u g n * 2 ^ 141 by ring]

end Small

/-! ### The frames and the segments of integer lists (R130, R134) -/

theorem sampleBack_add (xs : List ℤ) (a i k : Nat) : sampleBack xs (a + i) (a + k) = sampleBack xs i k := by
  simp only [sampleBack, Nat.add_le_add_iff_left, Nat.add_sub_add_left]

/-- Frame `m` of the stream: word `i` is sample `m*B + i - B`, 0 before the stream began. -/
def frameInts (xs : List ℤ) (B m : Nat) : List ℤ := (List.range (2 * B)).map fun i => sampleBack xs (m * B + i) B

/-- Segment `j` of the impulse response, padded to `2*B`. -/
def segmentInts (ir : List ℤ) (B j : Nat) : List ℤ :=
  (List.range (2 * B)).map fun t => if t < B then ir.getD (j * B + t) 0 else 0

theorem inputFrame_map_flInt (xs : List ℤ) (B m : Nat) : inputFrame (xs.map flInt) B m = (frameInts xs B m).map flInt := by
  rw [inputFrame, frameInts, List.map_map]
  refine List.map_congr_left fun i _ => ?_
  rw [Function.comp_apply, ← flInt_sampleBack]
  rcases Nat.lt_or_ge i B with hi | hi
  · rw [if_pos hi]
    rcases Nat.eq_zero_or_pos m with rfl | hm
    · rw [if_pos rfl, if_neg (by omega)]
    · obtain ⟨m, rfl⟩ := Nat.exists_eq_succ_of_ne_zero (Nat.pos_iff_ne_zero.1 hm)
      have hmul : m.succ * B = m * B + B := Nat.succ_mul m B
      rw [if_neg (Nat.succ_ne_zero m), if_pos (by omega), Nat.succ_sub_one, show m.succ * B + i - B = m * B + i by omega]
  · rw [if_neg (Nat.not_lt.2 hi), if_pos (by omega), Nat.add_sub_assoc hi]

theorem irSegment_map_flInt (ir : List ℤ) (B j : Nat) :
    irSegment (ir.map flInt) ir.length B j = (segmentInts ir B j).map flInt := by
  rw [irSegment, segmentInts, List.map_map]
  refine List.map_congr_left fun t _ => ?_
  rw [Function.comp_apply, getD_map_flInt]
  by_cases ht : t < B
  · by_cases hlen : j * B + t < ir.length
    · rw [if_pos ⟨ht, hlen⟩, if_pos ht]
    · rw [if_neg (fun h => hlen h.2), if_pos ht, List.getD_eq_default _ _ (Nat.not_lt.1 hlen), flInt_zero]
  · rw [if_neg (fun h => ht h.1), if_neg ht, flInt_zero]

theorem getD_frameInts (xs : List ℤ) (B m : Nat) {i : Nat} (hi : i < 2 * B) :
    (frameInts xs B m).getD i 0 = sampleBack xs (m * B + i) B := by
  simp [frameInts, hi]

theorem getD_segmentInts (ir : List ℤ) (B j t : Nat) :
    (segmentInts ir B j).getD t 0 = if t < B then ir.getD (j * B + t) 0 else 0 := by
  by_cases ht : t < 2 * B
  · simp [segmentInts, ht]
  · rw [List.getD_eq_default _ _ (by simpa [segmentInts] using ht), if_neg (by omega)]

theorem natAbs_frameInts_le {xs : List ℤ} {N : Nat} (h : ∀ x ∈ xs, x.natAbs ≤ N) (B m : Nat) :
    ∀ a ∈ frameInts xs B m, a.natAbs ≤ N :=
  List.forall_mem_map.2 fun _ _ => natAbs_sampleBack_le h _ _

theorem natAbs_segmentInts_le {ir : List ℤ} {N : Nat} (h : ∀ c ∈ ir, c.natAbs ≤ N) (B j : Nat) :
    ∀ a ∈ segmentInts ir B j, a.natAbs ≤ N := by
  refine List.forall_mem_map.2 fun t _ => ?_
  split
  next => exact natAbs_getD_le h _
  next => exact Nat.zero_le N

/-! ### The partitions of a block add up to the linear convolution -/

/-- What coefficient `k` adds to output `i` of the linear convolution. -/
def convolutionTerm (ir xs : List ℤ) (i k : Nat) : ℤ := ir.getD k 0 * sampleBack xs i k

theorem natAbs_convolutionTerm_le {ir xs : List ℤ} (hir : ∀ c ∈ ir, c.natAbs ≤ 8) (hxs : ∀ x ∈ xs, x.natAbs ≤ 8) (i k : Nat) :
    (convolutionTerm ir xs i k).natAbs ≤ 64 := by
  rw [convolutionTerm, Int.natAbs_mul]
  exact Nat.mul_le_mul (natAbs_getD_le hir k) (natAbs_sampleBack_le hxs i k)

theorem convolutionTerm_eq_zero {ir xs : List ℤ} {i k : Nat} (h : ir.length ≤ k ∨ i < k) : convolutionTerm ir xs i k = 0 := by
  rcases h with hk | hk
  · rw [convolutionTerm, List.getD_eq_default _ _ hk, zero_mul]
  · rw [convolutionTerm, sampleBack, if_neg (by omega), mul_zero]

/-- Partition `j` of the frame `j` blocks back covers the coefficients of its segment. -/
theorem segmentConvolution_eq (ir xs : List ℤ) {B c j n : Nat} (hj : j ≤ c) (hn : n < B) :
    segmentConvolution B (frameInts xs B (c - j)) (segmentInts ir B j) n =
      ∑ t ∈ Finset.range B, convolutionTerm ir xs (c * B + n) (j * B + t) := by
  refine Finset.sum_congr rfl fun t ht => ?_
  have htB : t < B := Finset.mem_range.1 ht
  have hblock : c * B = j * B + (c - j) * B := by rw [← Nat.add_mul, Nat.add_sub_cancel' hj]
  have hsample : sampleBack xs ((c - j) * B + (B + n - t)) B = sampleBack xs ((c - j) * B + n) t := by
    rw [← sampleBack_add xs t, ← sampleBack_add xs B ((c - j) * B + n),
      show t + ((c - j) * B + (B + n - t)) = B + ((c - j) * B + n) by omega, Nat.add_comm t B]
  rw [getD_segmentInts, if_pos htB, getD_frameInts xs B _ (by omega), hsample, convolutionTerm, hblock, Nat.add_assoc,
    sampleBack_add]

theorem sum_blocks (term : Nat → ℤ) (B K : Nat) :
    ∑ j ∈ Finset.range K, ∑ t ∈ Finset.range B, term (j * B + t) = ∑ k ∈ Finset.range (K * B), term k := by
  induction K with
  | zero => simp
  | succ K ih => rw [Finset.sum_range_succ, ih, Nat.succ_mul, Finset.sum_range_add]

theorem le_ceilDiv_mul (L : Nat) {B : Nat} (hB : 0 < B) : L ≤ ceilDiv L B * B := by
  have hdiv := Nat.div_add_mod' (L + B - 1) B
  have hmod := Nat.mod_lt (L + B - 1) hB
  rw [ceilDiv]
  omega

/-- The coefficients of the partitions that reach block `c` are all that matter for its words. -/
theorem sum_reaching_eq (ir xs : List ℤ) {B c n : Nat} (hB : 0 < B) (hn : n < B) :
    ∑ k ∈ Finset.range (min (ceilDiv ir.length B) (c + 1) * B), convolutionTerm ir xs (c * B + n) k =
      linearConvolution ir xs (c * B + n) := by
  have hlinear : linearConvolution ir xs (c * B + n) =
      ∑ k ∈ Finset.range ir.length, convolutionTerm ir xs (c * B + n) k := linearConvolution_eq ir xs _
  have hbeyond : ∀ k ≥ ir.length, convolutionTerm ir xs (c * B + n) k = 0 := fun k hk => convolutionTerm_eq_zero (.inl hk)
  have hunreached : ∀ k ≥ min (ceilDiv ir.length B) (c + 1) * B, convolutionTerm ir xs (c * B + n) k = 0 := fun k hk => by
    refine convolutionTerm_eq_zero ?_
    rcases Nat.le_total (ceilDiv ir.length B) (c + 1) with hle | hle
    · rw [Nat.min_eq_left hle] at hk
      exact .inl ((le_ceilDiv_mul ir.length hB).trans hk)
    · rw [Nat.min_eq_right hle, Nat.succ_mul] at hk
      exact .inr (by omega)
  rw [hlinear]
  rcases Nat.le_total ir.length (min (ceilDiv ir.length B) (c + 1) * B) with hle | hle
  · exact Finset.eventually_constant_sum hbeyond hle
  · exact (Finset.eventually_constant_sum hunreached hle).symm

section Output
variable {ir xs : List ℤ} {B : Nat} (hB : B = 1 ∨ B = 2) (hir : ∀ c ∈ ir, c.natAbs ≤ 8) (hxs : ∀ x ∈ xs, x.natAbs ≤ 8)
include hB hir hxs

theorem hasValue_partitionOfFrame {c j n : Nat} (hj : j ≤ c) (hn : n < B) :
    HasValue (partitionOfFrame deviceXfm (ir.map flInt) (xs.map flInt) B j (c - j) n)
      ((∑ t ∈ Finset.range B, convolutionTerm ir xs (c * B + n) (j * B + t)) * 2 ^ 149) := by
  have hpad : ∀ t, B ≤ t → (segmentInts ir B j).getD t 0 = 0 := fun t ht => by
    rw [getD_segmentInts, if_neg (Nat.not_lt.2 ht)]
  have hvalue := hasValue_partition hB (natAbs_frameInts_le hxs B (c - j)) (natAbs_segmentInts_le hir B j) hpad hn
  rw [segmentConvolution_eq ir xs hj hn] at hvalue
  rwa [partitionOfFrame, List.length_map, inputFrame_map_flInt, irSegment_map_flInt]

/-- The sum of a block of the convolution over its partitions is exact. -/
theorem foldl_partitions_eq (hlen : ir.length ≤ 2 ^ 18) {c n : Nat} (hn : n < B) :
    (PartitionedStream.reaching (ceilDiv ir.length B) c).foldl
      (fun acc j => fadd acc (partitionOfFrame deviceXfm (ir.map flInt) (xs.map flInt) B j (c - j) n)) 0#32 =
        flInt (linearConvolution ir xs (c * B + n)) := by
  have hmem : ∀ j ∈ PartitionedStream.reaching (ceilDiv ir.length B) c, j ≤ c := fun j hj => by
    simp only [PartitionedStream.reaching, List.mem_reverse, List.mem_range] at hj
    omega
  have hbound : ∀ j, ∑ t ∈ Finset.range B, (convolutionTerm ir xs (c * B + n) (j * B + t)).natAbs ≤ B * 64 := fun j => by
    simpa using Finset.sum_le_card_nsmul (Finset.range B) _ 64 fun t _ => natAbs_convolutionTerm_le hir hxs (c * B + n) (j * B + t)
  have hcount : (0 : ℤ).natAbs + (PartitionedStream.reaching (ceilDiv ir.length B) c).length * (B * 64) ≤ 2 ^ 24 := by
    simp only [PartitionedStream.reaching, List.length_reverse, List.length_range, ceilDiv]
    rcases hB with rfl | rfl <;> omega
  have hsum := foldl_fadd_eq (s := 0) (N := B * 64) _
    (fun j hj => hasValue_partitionOfFrame hB hir hxs (hmem j hj) hn)
    (fun j _ => (Int.natAbs_sum_le _ _).trans (hbound j)) hcount
  have htotal : ((PartitionedStream.reaching (ceilDiv ir.length B) c).map fun j =>
      ∑ t ∈ Finset.range B, convolutionTerm ir xs (c * B + n) (j * B + t)).sum = linearConvolution ir xs (c * B + n) := by
    rw [← sum_reaching_eq ir xs (by omega) hn, ← sum_blocks, PartitionedStream.reaching, List.map_reverse, List.sum_reverse]
    rfl
  rw [zero_add, htotal, flInt_zero] at hsum
  exact hsum

end Output

/-- Settles O46: the output follows the schedule (O44), whose partitions are exact on these integers and add up to the linear
convolution. -/
theorem freqDomainExactOnSmallIntegers : Obligations.FreqDomainExactOnSmallIntegers := by
  intro ir xs B hpos hlen hB hir hxs
  have hBpos : 1 ≤ B := by omega
  have hstream := PartitionedStream.fdProcess_eq_partitionedOutput (ir.map flInt) (xs.map flInt) hBpos
  rw [List.length_map, List.length_map] at hstream
  rw [hstream]
  refine List.map_congr_left fun i _ => ?_
  rw [partitionedOutput]
  split
  next => rfl
  next hi =>
    have hindex : i - B = (i / B - 1) * B + i % B := by
      rw [Nat.sub_mul, one_mul]
      have hdiv := Nat.div_add_mod' i B
      have hone : 1 * B ≤ i / B * B := Nat.mul_le_mul_right B ((Nat.one_le_div_iff hBpos).2 (Nat.not_lt.1 hi))
      omega
    rw [hindex, ← foldl_partitions_eq hB hir hxs hlen (Nat.mod_lt i hBpos), ← PartitionedStream.filter_eq_reaching,
      List.length_map]

end Sys2Proof.IntegerPartitions
end

section
/-! SUPPORT and statements of `RB_get` (R92). A finite offset is `z` units of `2^-149` and its floor `z / 2^149` is exact as a word.
The fractional part `z % 2^149` is exact too, except between -1 and 0: there it is rounded, and reaches 1.0 from `-2^-25` on. -/

namespace Sys2Proof.RingOffset

open Sys2Proof Sys2Proof.Machine Sys2Proof.Binary32

/-! ### The comparisons of `RB_get` -/

section Comparisons
variable {w : Word} {x : ℤ} (h : HasValue w x)
include h

theorem geZero_of_hasValue : geZero w = decide (0 ≤ x) := by
  obtain ⟨neg, mag, hview, rfl⟩ := h
  rw [geZero, hview, Bool.eq_iff_iff]
  cases neg <;> simp [signedMag]

theorem ltOne_of_hasValue : ltOne w = decide (x < 2 ^ 149) := by
  obtain ⟨neg, mag, hview, rfl⟩ := h
  rw [ltOne, hview, Bool.eq_iff_iff]
  cases neg with
  | false =>
    simp only [signedMag, Bool.false_or, decide_eq_true_eq, Bool.false_eq_true, if_false]
    exact_mod_cast Iff.rfl
  | true =>
    have hbelow : signedMag true mag < 2 ^ 149 := by
      rw [signedMag, if_pos rfl]
      omega
    simp only [Bool.true_or, decide_eq_true hbelow]

theorem eqZero_of_hasValue : eqZero w = decide (x = 0) := by
  obtain ⟨neg, mag, hview, rfl⟩ := h
  rw [eqZero, hview, Bool.eq_iff_iff]
  cases neg <;> simp [signedMag]

end Comparisons

/-! ### The floor and the exact fractional part -/

theorem exists_units {z : ℤ} (hz : Representable z.natAbs) : ∃ (y : ℤ) (k : Nat), y.natAbs < 2 ^ 24 ∧ z = y * 2 ^ k := by
  obtain ⟨n, k, hn, -, hmag⟩ := hz
  refine ⟨sgn (decide (z < 0)) * n, k, by rwa [natAbs_sgn_mul, Int.natAbs_natCast], ?_⟩
  have hsign := sgn_decide_mul_natAbs z
  rw [hmag] at hsign
  push_cast at hsign
  rw [mul_assoc, hsign]

/-- 1 is a multiple of every smaller unit. -/
theorem two_pow_split {k : Nat} (hk : k < 149) : (2 : ℤ) ^ 149 = 2 ^ (149 - k) * 2 ^ k := by
  rw [← pow_add, Nat.sub_add_cancel hk.le]

/-- The floor of a finite value is exact as a word: it is small, or the value is an integer itself. -/
theorem hasValue_floor {z : ℤ} (hz : Representable z.natAbs) : HasValue (flInt (z / 2 ^ 149)) (z / 2 ^ 149 * 2 ^ 149) := by
  obtain ⟨y, k, hy, hunits⟩ := exists_units hz
  rcases Nat.lt_or_ge k 149 with hk | hk
  · refine hasValue_flInt_of_le ?_
    rw [hunits, two_pow_split hk, Int.mul_ediv_mul_of_pos_left _ _ (by positivity)]
    exact (Int.natAbs_ediv_le_natAbs y _).trans hy.le
  · have hinteger : z / 2 ^ 149 * 2 ^ 149 = z := by
      refine Int.ediv_mul_cancel ?_
      rw [hunits]
      exact Dvd.dvd.mul_left (pow_dvd_pow 2 hk) y
    refine hasValue_flInt ?_
    have habs := congrArg Int.natAbs hinteger
    rw [Int.natAbs_mul] at habs
    exact habs ▸ hz

/-- The fractional part is a finite magnitude, unless the value lies between -1 and 0. -/
theorem representable_fraction {z : ℤ} (hz : Representable z.natAbs) (hrange : z ≤ -2 ^ 149 ∨ 0 ≤ z) :
    Representable (z % 2 ^ 149).natAbs := by
  obtain ⟨y, k, hy, hunits⟩ := exists_units hz
  rcases Nat.lt_or_ge k 149 with hk | hk
  · have hD : (0 : ℤ) < 2 ^ (149 - k) := by positivity
    have hK : (0 : ℤ) < 2 ^ k := by positivity
    rw [two_pow_split hk, hunits] at hrange ⊢
    rw [mul_comm y, mul_comm (2 ^ (149 - k)), Int.mul_emod_mul_of_pos _ _ hK, mul_comm, Int.natAbs_mul]
    refine representable_mul_pow ?_ (by omega)
    rcases hrange with hlow | hhigh
    · have hnonneg := Int.emod_nonneg y hD.ne'
      have hlt := Int.emod_lt_of_pos y hD
      rw [← neg_mul, mul_le_mul_iff_left₀ hK] at hlow
      omega
    · have hpos : 0 ≤ y := nonneg_of_mul_nonneg_left hhigh hK
      rw [Int.natAbs_emod_of_nonneg hpos]
      exact (Nat.mod_le _ _).trans hy.le
  · have hzero : z % 2 ^ 149 = 0 := by
      rw [hunits]
      exact Int.emod_eq_zero_of_dvd (Dvd.dvd.mul_left (pow_dvd_pow 2 hk) y)
    rw [hzero]
    exact ⟨0, 0, by omega, by omega, rfl⟩

/-! ### The rounded fractional part between -1 and 0 -/

section BelowZero
variable {m : Nat} (hpos : 0 < m) (hlt : m < 2 ^ 149)
include hpos hlt

theorem roundMag_complement_lt : roundMag (2 ^ 149 - m) 1 < 255 * 2 ^ 23 := by
  rw [roundMag_lt_iff _ Nat.one_pos]
  calc 2 ^ 149 - m < 1 * 2 ^ 149 := by omega
    _ ≤ (2 ^ 25 - 1) * (1 * 2 ^ 252) := by
      rw [Nat.one_mul (2 ^ 252)]
      exact Nat.mul_le_mul (by omega) (Nat.pow_le_pow_right (by omega) (by omega))

theorem magOf_complement_pos : 0 < magOf (roundMag (2 ^ 149 - m) 1) := by
  obtain ⟨hnearest, -⟩ := roundMag_nearest (z := 1) (2 ^ 149 - m) Nat.one_pos (roundMag_complement_lt hpos hlt)
    ⟨1, 0, by omega, by omega, rfl⟩
  by_contra hzero
  rw [Nat.eq_zero_of_not_pos hzero] at hnearest
  push_cast [hlt.le] at hnearest
  rw [abs_of_nonneg (by omega), abs_of_nonneg (by omega)] at hnearest
  omega

/-- Up to `2^-25` the nearest value to `1 - m` is 1: a tie at `2^-25` itself, and 1 has the even significand. -/
theorem magOf_complement_eq_one (hsmall : m ≤ 2 ^ 124) : magOf (roundMag (2 ^ 149 - m) 1) = 2 ^ 149 := by
  have hplace : placeOf (2 ^ 149 - m) 1 = 125 := by
    have hlog : (2 ^ 149 - m).log2 = 148 := (Nat.log2_eq_iff (by omega)).2 (by omega)
    rw [placeOf, Nat.div_one, hlog]
  have hsig : significandOf (2 ^ 149 - m) 1 = 2 ^ 24 := by
    rw [significandOf, hplace, Nat.one_mul, nearestQuotient]
    have hdiv : (2 ^ 149 - m) / 2 ^ 125 = 2 ^ 24 - 1 := by omega
    have hmod : (2 ^ 149 - m) % 2 ^ 125 = 2 ^ 125 - m := by omega
    rw [hdiv, hmod]
    split_ifs <;> omega
  have hmag := magOf_place_significand (2 ^ 149 - m) Nat.one_pos
  rw [hplace, hsig] at hmag
  rw [roundMag_eq, hplace, hsig, Nat.min_eq_left (by omega), hmag, ← pow_add]

/-- Beyond `2^-25` the value just below 1 is at least as near as 1. -/
theorem magOf_complement_lt_one (hlarge : 2 ^ 124 < m) : magOf (roundMag (2 ^ 149 - m) 1) < 2 ^ 149 := by
  obtain ⟨hnearest, -⟩ := roundMag_nearest (z := 2 ^ 149 - 2 ^ 125) (2 ^ 149 - m) Nat.one_pos (roundMag_complement_lt hpos hlt)
    ⟨2 ^ 24 - 1, 125, by omega, by omega, by decide⟩
  by_contra hge
  have hR : (2 ^ 149 : ℤ) ≤ magOf (roundMag (2 ^ 149 - m) 1) := by exact_mod_cast Nat.not_lt.1 hge
  generalize (magOf (roundMag (2 ^ 149 - m) 1) : ℤ) = R at hnearest hR
  rw [Nat.cast_one, mul_one, mul_one, abs_of_nonpos (by omega)] at hnearest
  rcases abs_choice (((2 ^ 149 - m : ℕ) : ℤ) - (2 ^ 149 - 2 ^ 125)) with habs | habs <;> omega

end BelowZero

/-! ### The fractional part that `RB_get` computes -/

/-- A positive difference is rounded as a magnitude. -/
theorem hasValue_fsub_of_pos {a b : Word} {x y : ℤ} (ha : HasValue a x) (hb : HasValue b y) (hpos : y < x)
    (hfin : roundMag (x - y).natAbs 1 < 255 * 2 ^ 23) : HasValue (fsub a b) (magOf (roundMag (x - y).natAbs 1)) := by
  obtain ⟨na, ma, hviewa, rfl⟩ := ha
  obtain ⟨nb, mb, hviewb, rfl⟩ := hb
  have hneg : signedMag (!nb) mb = -signedMag nb mb := by rw [signedMag_eq, signedMag_eq, sgn_not, neg_mul]
  have hsum : signedMag na ma + signedMag (!nb) mb = signedMag na ma - signedMag nb mb := by rw [hneg, sub_eq_add_neg]
  rw [fsub_of_finite hviewa hviewb]
  simp only [addFinite, hsum]
  rw [if_neg (by omega), decide_eq_false (by omega)]
  exact ⟨false, _, view_roundWord false _ hfin, rfl⟩

/-- Where `RB_get` fails: from `-2^-25` up to 0, that excluded. -/
def FractionIsOne (z : ℤ) : Prop := -2 ^ 124 ≤ z ∧ z < 0

theorem hasValue_fraction {w : Word} {z : ℤ} (h : HasValue w z) :
    ∃ x : ℤ, HasValue (fsub w (flInt (z / 2 ^ 149))) x ∧ 0 ≤ x ∧ (x < 2 ^ 149 ↔ ¬FractionIsOne z) ∧
      (x = 0 ↔ z % 2 ^ 149 = 0) := by
  have hrep : Representable z.natAbs := by
    obtain ⟨neg, mag, hview, rfl⟩ := h
    rw [natAbs_signedMag]
    exact representable_of_view hview
  have hfloor := hasValue_floor hrep
  by_cases hrange : z ≤ -2 ^ 149 ∨ 0 ≤ z
  · have hfraction := representable_fraction hrep hrange
    have hsub : z - z / 2 ^ 149 * 2 ^ 149 = z % 2 ^ 149 := by omega
    refine ⟨z % 2 ^ 149, hsub ▸ hasValue_fsub h hfloor (hsub ▸ hfraction), by omega, ?_, Iff.rfl⟩
    simp only [FractionIsOne]
    omega
  · obtain ⟨m, rfl⟩ : ∃ m : Nat, z = -m := ⟨z.natAbs, by omega⟩
    have hpos : 0 < m := by omega
    have hlt : m < 2 ^ 149 := by omega
    have hminus : (-m : ℤ) / 2 ^ 149 = -1 := by omega
    have hcomplement : ((-m : ℤ) - -1 * 2 ^ 149).natAbs = 2 ^ 149 - m := by omega
    have hmagpos := magOf_complement_pos hpos hlt
    rw [hminus] at hfloor ⊢
    have hvalue := hasValue_fsub_of_pos h hfloor (by omega) (by rw [hcomplement]; exact roundMag_complement_lt hpos hlt)
    rw [hcomplement] at hvalue
    refine ⟨_, hvalue, by omega, ?_, by omega⟩
    simp only [FractionIsOne]
    rcases Nat.lt_or_ge (2 ^ 124) m with hlarge | hsmall
    · have hone := magOf_complement_lt_one hpos hlt hlarge
      omega
    · rw [magOf_complement_eq_one hpos hlt hsmall]
      omega

/-- `RB_get` of a finite offset of value `z` units of `2^-149`. -/
theorem get_of_hasValue (r : Ring) {w : Word} {z : ℤ} (h : HasValue w z) :
    (FractionIsOne z → r.get w = none) ∧
    (¬FractionIsOne z → r.get w = some
      (let idx := wrap (r.readIdx + z / 2 ^ 149) r.n
       if z % 2 ^ 149 = 0 then r.storage.read idx
       else interpolate (fsub w (flInt (z / 2 ^ 149))) (r.storage.read idx) (r.storage.read ((idx + 1) % r.n)))) := by
  obtain ⟨x, hx, hnonneg, hone, hzero⟩ := hasValue_fraction h
  obtain ⟨neg, mag, hview, rfl⟩ := h
  simp only [Ring.get, hview, floorFinite, geZero_of_hasValue hx, ltOne_of_hasValue hx, eqZero_of_hasValue hx,
    decide_eq_true hnonneg, Bool.true_and, decide_eq_true_eq]
  refine ⟨fun hfail => if_neg (fun hlt => hone.1 hlt hfail), fun hok => ?_⟩
  rw [if_pos (hone.2 hok)]
  simp only [hzero]
  split <;> rfl

/-! ### The words of the failing offsets -/

theorem normal_le_iff {f k : Nat} (hf : f < 2 ^ 23) : (2 ^ 23 + f) * 2 ^ k ≤ 2 ^ 124 ↔ k < 101 ∨ k = 101 ∧ f = 0 := by
  rcases Nat.lt_trichotomy k 101 with hk | rfl | hk
  · refine iff_of_true ?_ (.inl hk)
    calc (2 ^ 23 + f) * 2 ^ k ≤ 2 ^ 24 * 2 ^ 100 :=
          Nat.mul_le_mul (by omega) (Nat.pow_le_pow_right (by omega) (by omega))
      _ = 2 ^ 124 := by rw [← pow_add]
  · omega
  · refine iff_of_false (Nat.not_le.2 ?_) (by omega)
    calc 2 ^ 124 < 2 ^ 23 * 2 ^ 102 := by rw [← pow_add]; exact Nat.pow_lt_pow_right (by omega) (by omega)
      _ ≤ (2 ^ 23 + f) * 2 ^ k := Nat.mul_le_mul (by omega) (Nat.pow_le_pow_right (by omega) hk)

theorem fractionIsOne_signedMag (neg : Bool) (mag : Nat) :
    FractionIsOne (signedMag neg mag) ↔ neg = true ∧ 0 < mag ∧ mag ≤ 2 ^ 124 := by
  cases neg with
  | false => simp [FractionIsOne, signedMag]
  | true =>
    simp only [FractionIsOne, signedMag, if_true, true_and]
    omega

/-- The magnitudes up to `2^-25` with a sign are the words `0x80000001` to `0xB3000000`. -/
theorem fractionIsOne_iff {w : Word} {neg : Bool} {mag : Nat} (hview : view w = .finite neg mag) :
    FractionIsOne (signedMag neg mag) ↔ 0x80000001 ≤ w.toNat ∧ w.toNat ≤ 0xB3000000 := by
  have hsign : neg = true ↔ 2 ^ 31 ≤ w.toNat := by rw [← signBit_of_view hview, signBit_eq, decide_eq_true_eq]
  have hlt := w.isLt
  rw [fractionIsOne_signedMag, hsign]
  rw [view_eq] at hview
  split_ifs at hview with he hf h0
  · injection hview with _ hmag
    rw [exponentField_eq] at h0
    rw [fractionField_eq] at hmag
    omega
  · injection hview with _ hmag
    have hfrac : fractionField w < 2 ^ 23 := (w.extractLsb' 0 23).isLt
    have hmagpos : 0 < mag := hmag ▸ Nat.mul_pos (by omega) (Nat.two_pow_pos _)
    rw [← hmag, normal_le_iff hfrac, hmag, exponentField_eq, fractionField_eq]
    rw [exponentField_eq] at h0
    omega

/-! ### The statements -/

/-- Settles O15: a finite offset fails exactly where the computed fractional part is 1, and no other offset has a value. -/
theorem ringGetFailsExactly : Obligations.RingGetFailsExactly := by
  intro r w
  rcases (em (isFiniteWord w)).imp_left (isFiniteWord_iff w).1 with ⟨neg, mag, hview⟩ | hfin
  · have hexp : ¬exponentField w = 255 := (isFiniteWord_iff w).2 ⟨neg, mag, hview⟩
    obtain ⟨hfail, hanswer⟩ := get_of_hasValue r ⟨neg, mag, hview, rfl⟩
    rw [or_iff_right hexp, ← fractionIsOne_iff hview]
    refine ⟨fun hnone => ?_, hfail⟩
    by_contra hok
    simp [hanswer hok] at hnone
  · have hexp : exponentField w = 255 := not_not.1 hfin
    refine iff_of_true ?_ (.inl hexp)
    rcases view_cases w with hview | ⟨neg, hview⟩ | hview
    · simp only [Ring.get, hview]
    · simp only [Ring.get, hview]
    · exact absurd ((isFiniteWord_iff w).2 hview) hfin

theorem floor_wordValue {w : Word} {z : ℤ} (h : HasValue w z) : ⌊wordValue w⌋ = z / 2 ^ 149 := by
  have hfloor := Rat.floor_intCast_div_natCast z (2 ^ 149)
  rw [wordValue_of_hasValue h]
  exact_mod_cast hfloor

theorem wordValue_eq_floor_iff {w : Word} {z : ℤ} (h : HasValue w z) :
    wordValue w = ((z / 2 ^ 149 : ℤ) : ℚ) ↔ z % 2 ^ 149 = 0 := by
  have hcast : wordValue w = ((z / 2 ^ 149 : ℤ) : ℚ) ↔ z = z / 2 ^ 149 * 2 ^ 149 := by
    rw [wordValue_of_hasValue h, div_eq_iff (by positivity)]
    exact_mod_cast Iff.rfl
  rw [hcast]
  omega

/-- Settles O16: an answered offset is finite, the floor of its value is the index, and it is an integer exactly when nothing is
left over. -/
theorem ringGetInterpolates : Obligations.RingGetInterpolates := by
  intro r w v hn hget
  have hsuccess : ¬(exponentField w = 255 ∨ (0x80000001 ≤ w.toNat ∧ w.toNat ≤ 0xB3000000)) := fun hfail => by
    simp [(ringGetFailsExactly r w).2 hfail] at hget
  obtain ⟨neg, mag, hview⟩ := (isFiniteWord_iff w).1 fun hexp => hsuccess (.inl hexp)
  have hvalue : HasValue w (signedMag neg mag) := ⟨neg, mag, hview, rfl⟩
  obtain ⟨-, hanswer⟩ := get_of_hasValue r hvalue
  have hv := hanswer fun hone => hsuccess (.inr ((fractionIsOne_iff hview).1 hone))
  rw [hget, Option.some.injEq] at hv
  have hnext : ∀ i : ℤ, (wrap (r.readIdx + i) r.n + 1) % r.n = wrap (r.readIdx + i + 1) r.n := fun i => by
    rw [← wrap_natCast, Nat.cast_add, Nat.cast_one, SpectralTransform.wrap_wrap_add _ _ hn]
  simp only [floor_wordValue hvalue, wordValue_eq_floor_iff hvalue, ← hnext]
  exact hv

end Sys2Proof.RingOffset
end
